-- ==== Sys2Proof/Word.lean ====
section
/-! DEFINITION. Word.lean: the two widths the register window is made of (10_state.md R32, 20_memory.md R73). -/

namespace Sys2Proof

/-- One register or buffer entry: 32 bits, bit 0 the least significant (00_scope.md R9, R12). -/
abbrev Word := BitVec 32

/-- One byte of the window, or of a host's own memory (20_memory.md R73). -/
abbrev Byte := BitVec 8

end Sys2Proof
end

