-- ==== Sys2Proof/Machine/Float.lean ====
section
/-! DEFINITION. Machine/Float.lean: the two IEEE 754 formats and the only floating-point operations of the core:
addition, subtraction and multiplication rounded to nearest even, exact negation, conversion from an integer
(40_numeric_common.md R131, R132, R136). -/

namespace Sys2Proof.Machine

/-- The two formats (40_numeric_common.md R131). -/
inductive Precision where
  | binary32
  | binary64
deriving DecidableEq, Repr

/-- Bits of the significand, the leading one counted: 24 and 53. -/
def Precision.sigBits : Precision → Nat
  | .binary32 => 24
  | .binary64 => 53

/-- Bits of the exponent field: 8 and 11. -/
def Precision.expBits : Precision → Nat
  | .binary32 => 8
  | .binary64 => 11

/-- The least positive value is 2 to the minus this: bias 127 or 1023, plus the fraction bits, less one. -/
def Precision.unitExp : Precision → Nat
  | .binary32 => 149
  | .binary64 => 1074

/-- The greatest exponent step of a finite value: 2^expBits - 3. -/
def Precision.maxStep : Precision → Nat
  | .binary32 => 253
  | .binary64 => 2045

/-- A datum of precision `P`. `fin neg m q` is the value (-1)^neg · m · 2^(q - unitExp): a significand below
2^sigBits, and an exponent step that is 0 where the significand is below 2^(sigBits-1) (zeros and subnormals), so
that each value has one form (`Flt.Canonical`). Every operation answers that form. -/
inductive Flt (P : Precision) where
  | nan
  | inf (neg : Bool)
  | fin (neg : Bool) (m q : Nat)
deriving DecidableEq, Repr

/-- The one form of a finite value, or an infinity, or NaN. -/
def Flt.Canonical {P : Precision} : Flt P → Bool
  | .fin _ m q => m < 2 ^ P.sigBits && q ≤ P.maxStep && (q == 0 || 2 ^ (P.sigBits - 1) ≤ m)
  | .inf _ | .nan => true

/-- Neither an infinity nor NaN. -/
def Flt.isFinite {P : Precision} : Flt P → Bool
  | .fin _ _ _ => true
  | .inf _ | .nan => false

/-- The quotient of `n` by 2^d, rounded to the nearest integer, ties to even. -/
def roundShift (n d : Nat) : Nat :=
  let f := n >>> d
  let r := n % 2 ^ d
  if 2 * r > 2 ^ d || (2 * r == 2 ^ d && f % 2 == 1) then f + 1 else f

/-- The exact value (-1)^neg · n · 2^(e - 2·unitExp), correctly rounded to nearest, ties to even, with gradual
underflow (40_numeric_common.md R132). A magnitude past the greatest finite one rounds to infinity. -/
def Flt.round (P : Precision) (neg : Bool) (n e : Nat) : Flt P :=
  if n = 0 then .fin neg 0 0
  else
    let q := (e + n.log2 + 1) - (P.sigBits + P.unitExp)
    let m := if e ≤ q + P.unitExp then roundShift n (q + P.unitExp - e) else n <<< (e - (q + P.unitExp))
    if m = 2 ^ P.sigBits then
      if q + 1 ≤ P.maxStep then .fin neg (2 ^ (P.sigBits - 1)) (q + 1) else .inf neg
    else if q ≤ P.maxStep then .fin neg m q
    else .inf neg

/-- Exact negation: the sign flips (00_scope.md R14). -/
def Flt.negate {P : Precision} : Flt P → Flt P
  | .nan => .nan
  | .inf s => .inf (!s)
  | .fin s m q => .fin (!s) m q

/-- IEEE 754 addition (40_numeric_common.md R132). An exact zero sum is +0, but (-0) + (-0) = -0. Sums of
infinities and NaN are the standard's (log 13); none arises (R148). -/
def Flt.add {P : Precision} : Flt P → Flt P → Flt P
  | .fin s₁ m₁ q₁, .fin s₂ m₂ q₂ =>
    let q := min q₁ q₂
    let a₁ := m₁ <<< (q₁ - q)
    let a₂ := m₂ <<< (q₂ - q)
    if s₁ = s₂ then .round P s₁ (a₁ + a₂) (q + P.unitExp)
    else if a₂ < a₁ then .round P s₁ (a₁ - a₂) (q + P.unitExp)
    else if a₁ < a₂ then .round P s₂ (a₂ - a₁) (q + P.unitExp)
    else .fin false 0 0
  | .nan, _ => .nan
  | _, .nan => .nan
  | .inf s, .inf t => if s = t then .inf s else .nan
  | .inf s, .fin _ _ _ => .inf s
  | .fin _ _ _, .inf t => .inf t

/-- IEEE 754 subtraction: the sum with the negated second operand (40_numeric_common.md R132). -/
def Flt.sub {P : Precision} (a b : Flt P) : Flt P := a.add b.negate

/-- IEEE 754 multiplication (40_numeric_common.md R132); products with an infinity or NaN as in log 13. -/
def Flt.mul {P : Precision} : Flt P → Flt P → Flt P
  | .fin s₁ m₁ q₁, .fin s₂ m₂ q₂ => .round P (s₁ != s₂) (m₁ * m₂) (q₁ + q₂)
  | .nan, _ => .nan
  | _, .nan => .nan
  | .inf s, .inf t => .inf (s != t)
  | .inf s, .fin t m _ => if m = 0 then .nan else .inf (s != t)
  | .fin s m _, .inf t => if m = 0 then .nan else .inf (s != t)

/-- cvtP(z): an integer to precision `P`, rounded to nearest even (40_numeric_common.md R136). -/
def Flt.ofInt (P : Precision) (z : Int) : Flt P := .round P (z < 0) z.natAbs (2 * P.unitExp)

/-- +0. -/
def Flt.zero (P : Precision) : Flt P := .fin false 0 0

/-- The datum with the interchange encoding `b`: the sign, then the exponent field, then the fraction
(40_numeric_common.md R131, 30_encoding.md R111). -/
def Flt.ofBits (P : Precision) (b : Nat) : Flt P :=
  let neg := b >>> (P.sigBits + P.expBits - 1) % 2 == 1
  let field := b >>> (P.sigBits - 1) % 2 ^ P.expBits
  let frac := b % 2 ^ (P.sigBits - 1)
  if field = 0 then .fin neg frac 0
  else if field = 2 ^ P.expBits - 1 then (if frac = 0 then .inf neg else .nan)
  else .fin neg (frac + 2 ^ (P.sigBits - 1)) (field - 1)

/-- The interchange encoding without the sign. For a finite value the exponent field and the fraction are
`m + q · 2^(sigBits-1)` read as one number, subnormals included. NaN is the quiet NaN (PRESUMED, log 12). -/
def Flt.magBits {P : Precision} : Flt P → Nat
  | .fin _ m q => m + q * 2 ^ (P.sigBits - 1)
  | .inf _ => (2 ^ P.expBits - 1) * 2 ^ (P.sigBits - 1)
  | .nan => (2 ^ P.expBits - 1) * 2 ^ (P.sigBits - 1) + 2 ^ (P.sigBits - 2)

/-- The sign bit. -/
def Flt.signBit {P : Precision} : Flt P → Bool
  | .fin s _ _ => s
  | .inf s => s
  | .nan => false

/-- The interchange encoding of a datum (30_encoding.md R111). -/
def Flt.toBits {P : Precision} (a : Flt P) : Nat :=
  (if a.signBit then 2 ^ (P.sigBits + P.expBits - 1) else 0) + a.magBits

/-- val(a): the exact value of a finite datum (00_scope.md R14); 0 for the others, which have none. -/
def Flt.val {P : Precision} : Flt P → Rat
  | .fin s m q =>
    let n : Int := (m <<< q : Nat)
    mkRat (if s then -n else n) (2 ^ P.unitExp)
  | .inf _ | .nan => 0

/-- +P as the sign `+` of a kernel. -/
@[reducible] def Flt.addOp (P : Precision) : Add (Flt P) := ⟨Flt.add⟩
/-- -P as the sign `-` of a kernel. -/
@[reducible] def Flt.subOp (P : Precision) : Sub (Flt P) := ⟨Flt.sub⟩
/-- *P as the sign `*` of a kernel. -/
@[reducible] def Flt.mulOp (P : Precision) : Mul (Flt P) := ⟨Flt.mul⟩
/-- Exact negation as the sign `-` of a kernel. -/
@[reducible] def Flt.negOp (P : Precision) : Neg (Flt P) := ⟨Flt.negate⟩
/-- +0 as the `0` a kernel's sums start at. -/
@[reducible] def Flt.zeroOp (P : Precision) : Zero (Flt P) := ⟨Flt.zero P⟩

end Sys2Proof.Machine
end

