-- ==== Sys2Proof/Syntax.lean ====
section
/-! DEFINITION. Syntax.lean: the thirteen commands of the core with their rounding policy, the six recorded
errors, and the host transactions a program for this core is made of. -/

namespace Sys2Proof

/-- The three legal values of RMODE, the rounding policy of a command (30_encoding.md R103). The fourth value of
the field, 3, is no policy: the decoder refuses it, so it is no constructor. -/
inductive RMode where
  /-- RMODE 0, suffix .HA: half away from zero. -/
  | halfAway
  /-- RMODE 1, suffix .HU: half toward plus infinity. -/
  | halfUp
  /-- RMODE 2, suffix .HE: half to even. -/
  | halfEven
deriving DecidableEq, Repr

/-- The thirteen operations of the core, one constructor per row of the opcode map, in its order
(30_encoding.md R102). A command has no operand but RMODE (R106). -/
inductive Instr where
  | idctRefF32 (m : RMode)
  | idctRefF64 (m : RMode)
  | fdctRef (m : RMode)
  | idctSep (m : RMode)
  | idctSepSym2 (m : RMode)
  | idctSepSym4 (m : RMode)
  | idctSepSym8 (m : RMode)
  | idctSepFix (m : RMode)
  | idctLlm (m : RMode)
  | fdctLlm (m : RMode)
  | idctAanF32 (m : RMode)
  | idctAanF64 (m : RMode)
  | idctAp922 (m : RMode)
deriving DecidableEq, Repr

/-- The six errors a host write can record; there is no other (60_exceptions.md R302). -/
inductive CmdError where
  | cmdWhileBusy
  | reservedBits
  | illegalOp
  | illegalRmode
  | sampleRange
  | inWriteWhileBusy
deriving DecidableEq, Repr

/-- One host bus transaction: a read or write of `size` bytes at byte offset `off` of the register window
(20_memory.md R74). Only a 4-byte write moves a value, so the value has the width of one register. -/
inductive Transaction where
  | read (off size : Nat)
  | write (off size : Nat) (v : Word)
deriving DecidableEq, Repr

end Sys2Proof
end

