-- ==== Sys2Proof/Machine/Operands.lean ====
section
/-! DEFINITION. Machine/Operands.lean: how an operation reads its block and encodes its results (30_encoding.md
R107 to R111), and the round, shift and clamp that end every inverse operation (40_numeric_common.md R137, R138). -/

namespace Sys2Proof.Machine

/-- A block: 64 elements, row-major (40_numeric_common.md R130). -/
abbrev Block (α : Type) := Vector α 64

/-- One row or column of a block. -/
abbrev Vec8 (α : Type) := Vector α 8

/-- The index 8·r + c of the element in row r and column c (00_scope.md R15). -/
def blockIndex (r c : Fin 8) : Fin 64 := ⟨8 * r.val + c.val, by omega⟩

/-- The row of an index. -/
def rowOf (i : Fin 64) : Fin 8 := ⟨i.val / 8, by omega⟩

/-- The column of an index. -/
def colOf (i : Fin 64) : Fin 8 := ⟨i.val % 8, by omega⟩

/-- blk[r][c] (00_scope.md R15). -/
def Block.at {α : Type} (b : Block α) (r c : Fin 8) : α := b[blockIndex r c]

/-- The block with the element `f r c` in row r and column c. -/
def Block.build {α : Type} (f : Fin 8 → Fin 8 → α) : Block α := Vector.ofFn fun i => f (rowOf i) (colOf i)

/-- COEFF: a 32-bit two's complement integer (30_encoding.md R108). -/
def coeff (w : Word) : Int := w.toInt

/-- SAMPLE: the byte in bits 7:0 (30_encoding.md R109). -/
def sample (w : Word) : Int := (w.extractLsb' 0 8).toNat

/-- The SAMPLE encoding of an entry is legal: bits 31:8 are 0 (30_encoding.md R109). -/
def sampleLegal (w : Word) : Bool := w.extractLsb' 8 24 == 0

/-- BYTE: an integer of 0 to 255, zero-extended (30_encoding.md R110). -/
def byteWord (b : Int) : Word := BitVec.ofNat 32 b.toNat

/-- F32: the binary32 encoding (30_encoding.md R111). -/
def floatWord (c : Flt .binary32) : Word := BitVec.ofNat 32 c.toBits

/-- Clamp(lo, hi, z) (00_scope.md R13). -/
def clamp (lo hi z : Int) : Int := if z < lo then lo else if hi < z then hi else z

/-- RoundInt_m(q): an exact value to an integer under the policy m (40_numeric_common.md R137). -/
def roundInt (m : RMode) (q : Rat) : Int :=
  let f := q.floor
  let r := q - f
  if r < 1 / 2 then f
  else if 1 / 2 < r then f + 1
  else
    match m with
    | .halfAway => if 0 < q then f + 1 else f
    | .halfUp => f + 1
    | .halfEven => if f % 2 = 0 then f else f + 1

/-- Finalize_m(q) of an exact value: round, add 128, clamp to 0..255 (40_numeric_common.md R138). -/
def finalize (m : RMode) (q : Rat) : Int := clamp 0 255 (roundInt m q + 128)

/-- Finalize_m of a float result: of val(v), or 0, 255 and 0 for NaN, +∞ and -∞ (40_numeric_common.md R138). -/
def finalizeFlt {P : Precision} (m : RMode) : Flt P → Int
  | .nan => 0
  | .inf neg => if neg then 0 else 255
  | .fin s n q => finalize m (Flt.val (P := P) (.fin s n q))

/-- RoundDiv_m(a, d) = RoundInt_m(a / d), the division exact (42_separable.md R196). -/
def roundDiv (m : RMode) (a : Int) (d : Nat) : Int := roundInt m (mkRat a d)

/-- The coefficient block an inverse operation reads (40_numeric_common.md R143). -/
def coeffBlock (inBuf : Block Word) : Block Int := inBuf.map coeff

/-- The sample block a forward operation reads (40_numeric_common.md R143). -/
def sampleBlock (inBuf : Block Word) : Block Int := inBuf.map sample

/-- cvtP of every coefficient (40_numeric_common.md R136). -/
def cvtBlock (P : Precision) (F : Block Int) : Block (Flt P) := F.map (Flt.ofInt P)

/-- cvtP(s - 128) of every sample (40_numeric_common.md R136). -/
def cvtSamples (P : Precision) (s : Block Int) : Block (Flt P) := s.map fun z => Flt.ofInt P (z - 128)

/-- The output block of an inverse operation with float results (40_numeric_common.md R139). -/
def bytesOut {P : Precision} (m : RMode) (r : Block (Flt P)) : Block Word :=
  r.map fun v => byteWord (finalizeFlt m v)

/-- The output block of IDCT_SEP_FIX, whose results are exact rationals (40_numeric_common.md R139, R143). -/
def bytesOutExact (m : RMode) (q : Block Rat) : Block Word := q.map fun v => byteWord (finalize m v)

/-- The output block of a forward operation (40_numeric_common.md R140). -/
def floatsOut (c : Block (Flt .binary32)) : Block Word := c.map floatWord

/-- A first pass over the rows: row r of the block through the kernel of that row; the result's rows. -/
def rowPass {α β : Type} (kernel : Fin 8 → Vec8 α → Vec8 β) (X : Block α) : Vec8 (Vec8 β) :=
  Vector.ofFn fun r => kernel r (Vector.ofFn fun c => X.at r c)

/-- A first pass over the columns of a block; the result's columns. -/
def colPass {α β : Type} (kernel : Vec8 α → Vec8 β) (X : Block α) : Vec8 (Vec8 β) :=
  Vector.ofFn fun c => kernel (Vector.ofFn fun r => X.at r c)

/-- A second pass across the first: the k-th vector it feeds the kernel holds the k-th element of each vector. -/
def crossPass {α β : Type} (kernel : Vec8 α → Vec8 β) (T : Vec8 (Vec8 α)) : Vec8 (Vec8 β) :=
  Vector.ofFn fun k => kernel (Vector.ofFn fun j => T[j][k])

/-- The block whose rows are given. -/
def ofRows {α : Type} (R : Vec8 (Vec8 α)) : Block α := Block.build fun r c => R[r][c]

/-- The block whose columns are given. -/
def ofCols {α : Type} (C : Vec8 (Vec8 α)) : Block α := Block.build fun r c => C[c][r]

/-- The sum of the terms of the listed indices, added one by one from zero in the order of the list
(00_scope.md R15). -/
def sumOver {α : Type} [Add α] [Zero α] (ks : List (Fin 8)) (term : Fin 8 → α) : α :=
  ks.foldl (fun acc k => acc + term k) 0

/-- 0..7, ascending. -/
def allIdx : List (Fin 8) := [0, 1, 2, 3, 4, 5, 6, 7]
/-- The even group (00_scope.md R18). -/
def evenIdx : List (Fin 8) := [0, 2, 4, 6]
/-- The odd group (00_scope.md R18). -/
def oddIdx : List (Fin 8) := [1, 3, 5, 7]

end Sys2Proof.Machine
end

