-- ==== Sys2Proof/Machine/Constants.lean ====
section
/-! DEFINITION. Machine/Constants.lean: the constant ROMs (10_state.md R42): every floating-point constant as the bits
of its closed form, correctly rounded (40_numeric_common.md R133). The closed forms are in Machine/ClosedForm.lean. -/

namespace Sys2Proof.Machine

/-- The Basis Matrix B[k][n], frequency first, from c_m = cos(mπ/16) for m = 0..7: every entry is one of them or its
negation (40_numeric_common.md R135, 90_conflicts.md C3). -/
def basisOf {α : Type} [Neg α] (cs : Vec8 α) : Vec8 (Vec8 α) :=
  #v[#v[cs[0], cs[0], cs[0], cs[0], cs[0], cs[0], cs[0], cs[0]],
    #v[cs[1], cs[3], cs[5], cs[7], -cs[7], -cs[5], -cs[3], -cs[1]],
    #v[cs[2], cs[6], -cs[6], -cs[2], -cs[2], -cs[6], cs[6], cs[2]],
    #v[cs[3], -cs[7], -cs[1], -cs[5], cs[5], cs[1], cs[7], -cs[3]],
    #v[cs[4], -cs[4], -cs[4], cs[4], cs[4], -cs[4], -cs[4], cs[4]],
    #v[cs[5], -cs[1], cs[7], cs[3], -cs[3], -cs[7], cs[1], -cs[5]],
    #v[cs[6], -cs[2], cs[2], -cs[6], -cs[6], cs[2], -cs[2], cs[6]],
    #v[cs[7], -cs[5], cs[3], -cs[1], cs[1], -cs[3], cs[5], -cs[7]]]

/-- The bits of crP(c_m) for m = 0..7 (40_numeric_common.md R135). -/
def cosBits : Precision → Vec8 Nat
  | .binary32 => #v[0x3F800000, 0x3F7B14BE, 0x3F6C835E, 0x3F54DB31, 0x3F3504F3, 0x3F0E39DA, 0x3EC3EF15, 0x3E47C5C2]
  | .binary64 =>
    #v[0x3FF0000000000000, 0x3FEF6297CFF75CB0, 0x3FED906BCF328D46, 0x3FEA9B66290EA1A3,
       0x3FE6A09E667F3BCD, 0x3FE1C73B39AE68C8, 0x3FD87DE2A6AEA963, 0x3FC8F8B83C69A60B]

/-- B_P[k][n] (40_numeric_common.md R135). -/
def basis (P : Precision) : Vec8 (Vec8 (Flt P)) := @basisOf _ (Flt.negOp P) ((cosBits P).map (Flt.ofBits P))

/-- The normalisation constants from their two values: C(0), and C(k) for k = 1..7 (40_numeric_common.md R134). -/
def normOf {α : Type} (c0 ck : α) : Vec8 α := #v[c0, ck, ck, ck, ck, ck, ck, ck]

/-- Cp[k] in precision `P`: crP(1/√2) = crP(c_4) for k = 0, else 1.0 (40_numeric_common.md R134). -/
def norm (P : Precision) : Vec8 (Flt P) :=
  normOf (Flt.ofBits P (cosBits P)[4]) (Flt.ofBits P (cosBits P)[0])

/-- The bits of 0.25, the final factor of the reference, separable and AP-922 transforms. -/
def quarterBits : Precision → Nat
  | .binary32 => 0x3E800000
  | .binary64 => 0x3FD0000000000000

/-- 0.25 (41_reference.md R171). -/
def quarter (P : Precision) : Flt P := Flt.ofBits P (quarterBits P)

/-- 0.125 in binary32 (43_llm.md R222, 46_fdct_fast.md R282). -/
def eighth : Flt .binary32 := Flt.ofBits _ 0x3E000000

/-- The seven named constants of the LLM networks (43_llm.md R220). -/
structure LlmConsts (α : Type) where
  r2 : α
  r2c2 : α
  r2c6 : α
  c1 : α
  s1 : α
  c3 : α
  s3 : α

/-- The LLM constants in binary32 (43_llm.md R220). -/
def llmConsts : LlmConsts (Flt .binary32) where
  r2 := Flt.ofBits _ 0x3FB504F3
  r2c2 := Flt.ofBits _ 0x3FA73D75
  r2c6 := Flt.ofBits _ 0x3F0A8BD4
  c1 := Flt.ofBits _ 0x3F7B14BE
  s1 := Flt.ofBits _ 0x3E47C5C2
  c3 := Flt.ofBits _ 0x3F54DB31
  s3 := Flt.ofBits _ 0x3F0E39DA

/-- The named constants of the AAN network (44_aan.md R240). B is named and multiplies nothing (90_conflicts.md C8). -/
structure AanConsts (α : Type) where
  r2 : α
  a : α
  b : α
  aMinusB : α
  aPlusB : α

/-- The bits of the AAN constants R2, A, B, AmB, ApB (44_aan.md R240). -/
def aanBits : Precision → AanConsts Nat
  | .binary32 => ⟨0x3FB504F3, 0x3FEC835E, 0x3F43EF15, 0x3F8A8BD4, 0x40273D75⟩
  | .binary64 => ⟨0x3FF6A09E667F3BCD, 0x3FFD906BCF328D46, 0x3FE87DE2A6AEA963, 0x3FF1517A7BDB3895, 0x4004E7AE9144F0FC⟩

/-- The AAN constants in precision `P` (44_aan.md R240). -/
def aanConsts (P : Precision) : AanConsts (Flt P) where
  r2 := Flt.ofBits P (aanBits P).r2
  a := Flt.ofBits P (aanBits P).a
  b := Flt.ofBits P (aanBits P).b
  aMinusB := Flt.ofBits P (aanBits P).aMinusB
  aPlusB := Flt.ofBits P (aanBits P).aPlusB

/-- The bits of the AAN pre-scale table Q[u][v] (44_aan.md R241). -/
def prescaleBits : Precision → Vec8 (Vec8 Nat)
  | .binary32 =>
    #v[#v[0x3E000000, 0x3E318A86, 0x3E273D75, 0x3E168317, 0x3E000000, 0x3DC9234E, 0x3D8A8BD4, 0x3D0D42AF],
      #v[0x3E318A86, 0x3E7641AF, 0x3E67F7F8, 0x3E50C429, 0x3E318A86, 0x3E0B7E3F, 0x3DC02B4A, 0x3D43EF15],
      #v[0x3E273D75, 0x3E67F7F8, 0x3E5A827A, 0x3E44A74C, 0x3E273D75, 0x3E036651, 0x3DB504F3, 0x3D3890D3],
      #v[0x3E168317, 0x3E50C429, 0x3E44A74C, 0x3E30FBC5, 0x3E168317, 0x3DEC835E, 0x3DA2E9C1, 0x3D261AD1],
      #v[0x3E000000, 0x3E318A86, 0x3E273D75, 0x3E168317, 0x3E000000, 0x3DC9234E, 0x3D8A8BD4, 0x3D0D42AF],
      #v[0x3DC9234E, 0x3E0B7E3F, 0x3E036651, 0x3DEC835E, 0x3DC9234E, 0x3D9E0875, 0x3D59B5C9, 0x3CDDF9AD],
      #v[0x3D8A8BD4, 0x3DC02B4A, 0x3DB504F3, 0x3DA2E9C1, 0x3D8A8BD4, 0x3D59B5C9, 0x3D15F61A, 0x3C98E635],
      #v[0x3D0D42AF, 0x3D43EF15, 0x3D3890D3, 0x3D261AD1, 0x3D0D42AF, 0x3CDDF9AD, 0x3C98E635, 0x3C1BE50C]]
  | .binary64 =>
    #v[#v[0x3FC0000000000000, 0x3FC63150B15E8536, 0x3FC4E7AE9144F0FC, 0x3FC2D062EF88E319,
         0x3FC0000000000000, 0x3FB92469C0DCF32D, 0x3FB1517A7BDB3895, 0x3FA1A855DEC071B5],
      #v[0x3FC63150B15E8536, 0x3FCEC835E79946A3, 0x3FCCFEFEFC82FF2A, 0x3FCA18851AD8E489,
         0x3FC63150B15E8536, 0x3FC16FC7DCEB483F, 0x3FB8056948C8D24B, 0x3FA87DE2A6AEA963],
      #v[0x3FC4E7AE9144F0FC, 0x3FCCFEFEFC82FF2A, 0x3FCB504F333F9DE6, 0x3FC894E984D2E2BC,
         0x3FC4E7AE9144F0FC, 0x3FC06CCA1C148593, 0x3FB6A09E667F3BCD, 0x3FA7121A5527FE8B],
      #v[0x3FC2D062EF88E319, 0x3FCA18851AD8E489, 0x3FC894E984D2E2BC, 0x3FC61F78A9ABAA59,
         0x3FC2D062EF88E319, 0x3FBD906BCF328D46, 0x3FB45D3819F43820, 0x3FA4C35A264FCE36],
      #v[0x3FC0000000000000, 0x3FC63150B15E8536, 0x3FC4E7AE9144F0FC, 0x3FC2D062EF88E319,
         0x3FC0000000000000, 0x3FB92469C0DCF32D, 0x3FB1517A7BDB3895, 0x3FA1A855DEC071B5],
      #v[0x3FB92469C0DCF32D, 0x3FC16FC7DCEB483F, 0x3FC06CCA1C148593, 0x3FBD906BCF328D46,
         0x3FB92469C0DCF32D, 0x3FB3C10EACA8AB4F, 0x3FAB36B92C91E7CF, 0x3F9BBF35A2CD45E6],
      #v[0x3FB1517A7BDB3895, 0x3FB8056948C8D24B, 0x3FB6A09E667F3BCD, 0x3FB45D3819F43820,
         0x3FB1517A7BDB3895, 0x3FAB36B92C91E7CF, 0x3FA2BEC333018867, 0x3F931CC69BA2EC35],
      #v[0x3FA1A855DEC071B5, 0x3FA87DE2A6AEA963, 0x3FA7121A5527FE8B, 0x3FA4C35A264FCE36,
         0x3FA1A855DEC071B5, 0x3F9BBF35A2CD45E6, 0x3F931CC69BA2EC35, 0x3F837CA1866B95CF]]

/-- Q_P[u][v] (44_aan.md R241). -/
def prescale (P : Precision) : Vec8 (Vec8 (Flt P)) := (prescaleBits P).map fun row => row.map (Flt.ofBits P)

/-- The constants of the AP-922 column pass (45_ap922.md R260). -/
structure Ap922Consts (α : Type) where
  t1 : α
  t2 : α
  t3 : α
  g4 : α

/-- T1, T2, T3 and G4 in binary32 (45_ap922.md R260). -/
def ap922Consts : Ap922Consts (Flt .binary32) where
  t1 := Flt.ofBits _ 0x3E4BAFAF
  t2 := Flt.ofBits _ 0x3ED413CD
  t3 := Flt.ofBits _ 0x3F2B0DC1
  g4 := Flt.ofBits _ 0x3F3504F3

/-- ROW2IDX: the table that transforms row r (45_ap922.md R261). -/
def row2idx : Vec8 (Fin 4) := #v[0, 1, 2, 3, 0, 3, 2, 1]

/-- GROUPK: the index of the g constant whose scale table idx carries (45_ap922.md R261). -/
def groupK : Vector Nat 4 := #v[4, 1, 2, 3]

/-- The bits of table 0 of W, entries k = 0..7 of each row n = 0..3 (45_ap922.md R262). -/
def wBits0 : Vector (Vec8 Nat) 4 :=
  #v[#v[0x3F000000, 0x3F318A86, 0x3F273D75, 0x3F168317, 0x3F000000, 0x3EC9234E, 0x3E8A8BD4, 0x3E0D42AF],
    #v[0x3F000000, 0x3F168317, 0x3E8A8BD4, 0xBE0D42AF, 0xBF000000, 0xBF318A86, 0xBF273D75, 0xBEC9234E],
    #v[0x3F000000, 0x3EC9234E, 0xBE8A8BD4, 0xBF318A86, 0xBF000000, 0x3E0D42AF, 0x3F273D75, 0x3F168317],
    #v[0x3F000000, 0x3E0D42AF, 0xBF273D75, 0xBEC9234E, 0x3F000000, 0x3F168317, 0xBE8A8BD4, 0xBF318A86]]

/-- The bits of table 1 of W (45_ap922.md R262). -/
def wBits1 : Vector (Vec8 Nat) 4 :=
  #v[#v[0x3F318A86, 0x3F7641AF, 0x3F67F7F8, 0x3F50C429, 0x3F318A86, 0x3F0B7E3F, 0x3EC02B4A, 0x3E43EF15],
    #v[0x3F318A86, 0x3F50C429, 0x3EC02B4A, 0xBE43EF15, 0xBF318A86, 0xBF7641AF, 0xBF67F7F8, 0xBF0B7E3F],
    #v[0x3F318A86, 0x3F0B7E3F, 0xBEC02B4A, 0xBF7641AF, 0xBF318A86, 0x3E43EF15, 0x3F67F7F8, 0x3F50C429],
    #v[0x3F318A86, 0x3E43EF15, 0xBF67F7F8, 0xBF0B7E3F, 0x3F318A86, 0x3F50C429, 0xBEC02B4A, 0xBF7641AF]]

/-- The bits of table 2 of W (45_ap922.md R262). -/
def wBits2 : Vector (Vec8 Nat) 4 :=
  #v[#v[0x3F273D75, 0x3F67F7F8, 0x3F5A827A, 0x3F44A74C, 0x3F273D75, 0x3F036651, 0x3EB504F3, 0x3E3890D3],
    #v[0x3F273D75, 0x3F44A74C, 0x3EB504F3, 0xBE3890D3, 0xBF273D75, 0xBF67F7F8, 0xBF5A827A, 0xBF036651],
    #v[0x3F273D75, 0x3F036651, 0xBEB504F3, 0xBF67F7F8, 0xBF273D75, 0x3E3890D3, 0x3F5A827A, 0x3F44A74C],
    #v[0x3F273D75, 0x3E3890D3, 0xBF5A827A, 0xBF036651, 0x3F273D75, 0x3F44A74C, 0xBEB504F3, 0xBF67F7F8]]

/-- The bits of table 3 of W (45_ap922.md R262). -/
def wBits3 : Vector (Vec8 Nat) 4 :=
  #v[#v[0x3F168317, 0x3F50C429, 0x3F44A74C, 0x3F30FBC5, 0x3F168317, 0x3EEC835E, 0x3EA2E9C1, 0x3E261AD1],
    #v[0x3F168317, 0x3F30FBC5, 0x3EA2E9C1, 0xBE261AD1, 0xBF168317, 0xBF50C429, 0xBF44A74C, 0xBEEC835E],
    #v[0x3F168317, 0x3EEC835E, 0xBEA2E9C1, 0xBF50C429, 0xBF168317, 0x3E261AD1, 0x3F44A74C, 0x3F30FBC5],
    #v[0x3F168317, 0x3E261AD1, 0xBF44A74C, 0xBEEC835E, 0x3F168317, 0x3F30FBC5, 0xBEA2E9C1, 0xBF50C429]]

/-- W[idx][n][k] in binary32 (45_ap922.md R262). -/
def wTables : Vector (Vector (Vec8 (Flt .binary32)) 4) 4 :=
  #v[wBits0, wBits1, wBits2, wBits3].map fun t => t.map fun row => row.map (Flt.ofBits _)

end Sys2Proof.Machine
end

