-- ==== Sys2Proof/WellFormed.lean ====
section
/-! DEFINITION. WellFormed.lean: which 32-bit words are command words and which host accesses are legal. `Instr`
itself has no ill-formed term: its one operand, RMODE, is a type of the three legal policies. -/

namespace Sys2Proof

/-- The two reserved fields W[7:5] and W[31:10] are 0 (30_encoding.md R104). -/
def wfReserved (w : Word) : Bool := w.extractLsb' 5 3 == 0 && w.extractLsb' 10 22 == 0

/-- OP = W[4:0] is one of the codes 0x01 to 0x0D (30_encoding.md R101). -/
def wfOp (w : Word) : Bool := 1 ≤ (w.extractLsb' 0 5).toNat && (w.extractLsb' 0 5).toNat ≤ 0x0D

/-- RMODE = W[9:8] is one of the codes 0 to 2 (30_encoding.md R103). -/
def wfRmode (w : Word) : Bool := (w.extractLsb' 8 2).toNat ≤ 2

/-- A legal command word (30_encoding.md R112). -/
def wfCommand (w : Word) : Bool := wfReserved w && wfOp w && wfRmode w

/-- The only legal access: 4 bytes, at a multiple of 4, inside the window (20_memory.md R75). -/
def wfAccess (off size : Nat) : Bool := size == 4 && off % 4 == 0 && off ≤ 0x3FC

/-- The access of a transaction is a legal one (20_memory.md R75). -/
def Transaction.wf : Transaction → Bool
  | .read off size => wfAccess off size
  | .write off size _ => wfAccess off size

end Sys2Proof
end

