-- ==== Sys2Proof/Decode.lean ====
section
/-! DEFINITION. Decode.lean: the command word, read and written (30_encoding.md R100 to R105), the assembler's
spelling of a command (R115), and the 64-bit record of a host transaction (R117). -/

namespace Sys2Proof

/-- RMODE from its 2-bit code; 3 is refused (30_encoding.md R103). -/
def RMode.ofCode (c : BitVec 2) : Option RMode :=
  match c.toNat with
  | 0 => some .halfAway
  | 1 => some .halfUp
  | 2 => some .halfEven
  | _ => none

/-- The 2-bit code of a rounding policy (30_encoding.md R103). -/
def RMode.code : RMode → BitVec 2
  | .halfAway => 0
  | .halfUp => 1
  | .halfEven => 2

/-- The operation of a 5-bit operation code, which still lacks its RMODE; 0x00 and 0x0E to 0x1F are no operation
(30_encoding.md R101, R102). -/
def Instr.ofOp (op : BitVec 5) : Option (RMode → Instr) :=
  match op.toNat with
  | 0x01 => some .idctRefF32
  | 0x02 => some .idctRefF64
  | 0x03 => some .fdctRef
  | 0x04 => some .idctSep
  | 0x05 => some .idctSepSym2
  | 0x06 => some .idctSepSym4
  | 0x07 => some .idctSepSym8
  | 0x08 => some .idctSepFix
  | 0x09 => some .idctLlm
  | 0x0A => some .fdctLlm
  | 0x0B => some .idctAanF32
  | 0x0C => some .idctAanF64
  | 0x0D => some .idctAp922
  | _ => none

/-- Decode of a command word: checks 2 to 4 of 30_encoding.md R105, in that order. The checks that need the state
(BUSY, the written-marks, SAMPLE_RANGE) are made by the submission. -/
def decodeCommand (w : Word) : Except CmdError Instr :=
  if w.extractLsb' 5 3 ≠ 0 ∨ w.extractLsb' 10 22 ≠ 0 then .error .reservedBits
  else
    match Instr.ofOp (w.extractLsb' 0 5) with
    | none => .error .illegalOp
    | some op =>
      match RMode.ofCode (w.extractLsb' 8 2) with
      | none => .error .illegalRmode
      | some m => .ok (op m)

/-- The four bytes of a word, lowest address first: the window is little-endian (20_memory.md R73). -/
def wordBytes (w : Word) : List Byte :=
  [w.extractLsb' 0 8, w.extractLsb' 8 8, w.extractLsb' 16 8, w.extractLsb' 24 8]

/-- The word whose bytes are b0, b1, b2, b3 in ascending address order (20_memory.md R73). -/
def wordOfBytes (b0 b1 b2 b3 : Byte) : Word := b3 ++ b2 ++ b1 ++ b0

/-- Why bytes are no command: fewer than the four of a command word, or a word the core refuses. -/
inductive DecodeError where
  | truncated
  | refused (e : CmdError)
deriving DecidableEq, Repr

/-- Decode from bytes as a host lays them out in memory: every command is exactly 32 bits (30_encoding.md R113).
Answers the instruction and the bytes after it. -/
def decodeBytes : List Byte → Except DecodeError (Instr × List Byte)
  | b0 :: b1 :: b2 :: b3 :: rest =>
    match decodeCommand (wordOfBytes b0 b1 b2 b3) with
    | .ok i => .ok (i, rest)
    | .error e => .error (.refused e)
  | _ => .error .truncated

/-- The operation code of an instruction (30_encoding.md R102). -/
def Instr.opcode : Instr → BitVec 5
  | .idctRefF32 _ => 0x01
  | .idctRefF64 _ => 0x02
  | .fdctRef _ => 0x03
  | .idctSep _ => 0x04
  | .idctSepSym2 _ => 0x05
  | .idctSepSym4 _ => 0x06
  | .idctSepSym8 _ => 0x07
  | .idctSepFix _ => 0x08
  | .idctLlm _ => 0x09
  | .fdctLlm _ => 0x0A
  | .idctAanF32 _ => 0x0B
  | .idctAanF64 _ => 0x0C
  | .idctAp922 _ => 0x0D

/-- The rounding policy of an instruction (30_encoding.md R106: the only per-command parameter). -/
def Instr.rmode : Instr → RMode
  | .idctRefF32 m | .idctRefF64 m | .fdctRef m | .idctSep m | .idctSepSym2 m | .idctSepSym4 m
  | .idctSepSym8 m | .idctSepFix m | .idctLlm m | .fdctLlm m | .idctAanF32 m | .idctAanF64 m
  | .idctAp922 m => m

/-- The forward operations are OP 0x03 and 0x0A; every other is inverse (30_encoding.md R102). -/
def Instr.isForward : Instr → Bool
  | .fdctRef _ | .fdctLlm _ => true
  | .idctRefF32 _ | .idctRefF64 _ | .idctSep _ | .idctSepSym2 _ | .idctSepSym4 _ | .idctSepSym8 _
  | .idctSepFix _ | .idctLlm _ | .idctAanF32 _ | .idctAanF64 _ | .idctAp922 _ => false

/-- The command word of an instruction, W = (RMODE << 8) | OP (30_encoding.md R115). -/
def encodeCommand (i : Instr) : Word :=
  (i.rmode.code.setWidth 32 <<< 8) ||| i.opcode.setWidth 32

/-- The bytes of an instruction's command word, lowest address first. -/
def encodeBytes (i : Instr) : List Byte := wordBytes (encodeCommand i)

/-- The host's question: the instruction whose bits, numbered as the opcode table numbers them, are `w`, `nbits` of
them given and every higher bit of the 32-bit command word 0. -/
def decodeTableWord (nbits w : Nat) : Option Instr :=
  match decodeBytes (wordBytes (BitVec.ofNat 32 (w % 2 ^ nbits))) with
  | .ok (i, _) => some i
  | .error _ => none

/-- The ERRCODE of an error (60_exceptions.md R302). -/
def CmdError.code : CmdError → BitVec 4
  | .cmdWhileBusy => 1
  | .reservedBits => 2
  | .illegalOp => 3
  | .illegalRmode => 4
  | .sampleRange => 5
  | .inWriteWhileBusy => 6

/-- The mnemonic of an instruction (30_encoding.md R102). -/
def Instr.mnemonic : Instr → String
  | .idctRefF32 _ => "IDCT_REF_F32"
  | .idctRefF64 _ => "IDCT_REF_F64"
  | .fdctRef _ => "FDCT_REF"
  | .idctSep _ => "IDCT_SEP"
  | .idctSepSym2 _ => "IDCT_SEP_SYM2"
  | .idctSepSym4 _ => "IDCT_SEP_SYM4"
  | .idctSepSym8 _ => "IDCT_SEP_SYM8"
  | .idctSepFix _ => "IDCT_SEP_FIX"
  | .idctLlm _ => "IDCT_LLM"
  | .fdctLlm _ => "FDCT_LLM"
  | .idctAanF32 _ => "IDCT_AAN_F32"
  | .idctAanF64 _ => "IDCT_AAN_F64"
  | .idctAp922 _ => "IDCT_AP922"

/-- The suffix of a rounding policy (30_encoding.md R103). -/
def RMode.suffix : RMode → String
  | .halfAway => ".HA"
  | .halfUp => ".HU"
  | .halfEven => ".HE"

/-- The thirteen operations under one rounding policy, in the order of their codes. -/
def Instr.allWith (m : RMode) : List Instr :=
  [.idctRefF32 m, .idctRefF64 m, .fdctRef m, .idctSep m, .idctSepSym2 m, .idctSepSym4 m, .idctSepSym8 m,
   .idctSepFix m, .idctLlm m, .fdctLlm m, .idctAanF32 m, .idctAanF64 m, .idctAp922 m]

/-- All 39 legal commands (30_encoding.md R112). -/
def Instr.all : List Instr :=
  Instr.allWith .halfAway ++ Instr.allWith .halfUp ++ Instr.allWith .halfEven

/-- Does this text spell this command: its mnemonic and suffix, or its mnemonic alone under RMODE 0
(30_encoding.md R115)? -/
def Instr.spelled (text : String) (i : Instr) : Bool :=
  text == i.mnemonic ++ i.rmode.suffix || (i.rmode == .halfAway && text == i.mnemonic)

/-- The command a text spells (30_encoding.md R115). -/
def parseCommand (text : String) : Option Instr := Instr.all.find? (Instr.spelled text)

/-- The 64-bit record of a legal-width transaction: bit 63 write, [41:32] the offset, [31:0] the value or 0
(30_encoding.md R117). Only a 4-byte transaction at an offset of 10 bits has a record. -/
def encodeRecord : Transaction → Option (BitVec 64)
  | .read off size =>
    if size = 4 ∧ off < 0x400 then
      some (((0 : BitVec 22) ++ BitVec.ofNat 10 off ++ (0 : Word)).setWidth 64)
    else none
  | .write off size v =>
    if size = 4 ∧ off < 0x400 then
      some ((1 : BitVec 1) ++ (0 : BitVec 21) ++ BitVec.ofNat 10 off ++ v)
    else none

/-- The transaction of a record (30_encoding.md R117). Bits [62:42], and the value of a read, must be 0: any other
word is no record. -/
def decodeRecord (r : BitVec 64) : Option Transaction :=
  let off := (r.extractLsb' 32 10).toNat
  let v : Word := r.extractLsb' 0 32
  if r.extractLsb' 42 21 ≠ 0 then none
  else if r.extractLsb' 63 1 = 1 then some (.write off 4 v)
  else if v = 0 then some (.read off 4)
  else none

end Sys2Proof
end

