-- ==== Sys2Proof/Config.lean ====
section
/-! DEFINITION. Config.lean: the parameters of 00_scope.md R9 that the model fixes or leaves open, and the source of
free values. `EVAL_op` is not here: a model uses the default of the operation's family rule (40_numeric_common.md
R144), so the evaluation functions are definitions of the machine. -/

namespace Sys2Proof

/-- ID_VALUE, the bytes D, C, T, 8 from bit 31 down (10_state.md R36). -/
def Config.idValue : Word := 0x44435438

/-- FIX_SCALE, the scale of IDCT_SEP_FIX, at its default (42_separable.md R197).
DESIGN CHOICE (log 14): any integer of 2 or more is allowed; unsafe for a core built with another. -/
def Config.fixScale : Nat := 4096

/-- COEFF_LAW_BOUND, the domain of the tolerance laws (40_numeric_common.md R145). -/
def Config.coeffLawBound : Int := 2048

/-- DCT_BASE in units of 0x400 bytes: an OPEN platform parameter (20_memory.md R70), left without a value. -/
opaque Config.dctBaseBlock : Nat

/-- DCT_BASE, the byte address of the window on the host bus: a multiple of 0x400 (20_memory.md R70). -/
def Config.dctBase : Nat := 0x400 * Config.dctBaseBlock

/-- The free values: what the n-th unspecified read of a run returns, any 32-bit value under no law
(60_exceptions.md R318). It has no body, so nothing can be proved of a value of it (log 8). -/
opaque Config.freeWord : Nat → Word

end Sys2Proof
end

