-- ==== Sys2Proof/Machine/State.lean ====
section
/-! DEFINITION. Machine/State.lean: the whole state of one core instance (10_state.md R32), the model's own
bookkeeping beside it, the reasons a step can stop, and the state after reset. -/

namespace Sys2Proof.Machine

/-- STATUS by its fields (10_state.md R37). Bits 7:4 and 31:12 are reserved and read 0, so no field holds them. -/
structure Status where
  /-- Bit 0: a command is in flight. -/
  busy : Bool
  /-- Bit 1: the latest accepted command has completed. -/
  done : Bool
  /-- Bit 2: an error is recorded. -/
  err : Bool
  /-- Bit 3: a further error came while one was recorded. -/
  multi : Bool
  /-- Bits 11:8: the code of the first error since ERR was last cleared. -/
  errCode : BitVec 4
deriving DecidableEq, Repr

/-- CTRL by its one field (10_state.md R38). Bits 31:1 are reserved and read 0. -/
structure Ctrl where
  /-- Bit 0: the irq output is enabled. -/
  irqEn : Bool
deriving DecidableEq, Repr

/-- What can happen next: a host transaction, a turn of the engine, or the platform's reset. All three are atomic
and form one total order (20_memory.md R80, 70_reset_and_hazards.md R340). -/
inductive Event where
  | host (t : Transaction)
  | engine
  | reset
deriving DecidableEq, Repr

/-- The bus response (20_memory.md R74). -/
inductive BusResp where
  | okay
  | error
deriving DecidableEq, Repr

/-- What a host transaction gets back (20_memory.md R74). -/
inductive Reply where
  | read (resp : BusResp) (data : Word)
  | write (resp : BusResp)
deriving DecidableEq, Repr

/-- The state of one core instance. ID and the constant ROMs are constants and irq is a function of `status` and
`ctrl` (10_state.md R36, R42, R43); SCRATCH lives only inside one engine step (R41). -/
structure State where
  /-- IN[0..63] (10_state.md R33). -/
  inBuf : Vector Word 64
  /-- OUT[0..63] (10_state.md R34). -/
  outBuf : Vector Word 64
  /-- CMD, the last accepted command word (10_state.md R35). -/
  cmd : Word
  /-- STATUS (10_state.md R37). -/
  status : Status
  /-- CTRL (10_state.md R38). -/
  ctrl : Ctrl
  /-- PEND, the operation and rounding policy in flight (10_state.md R40). -/
  pend : Option Instr
  /-- The written-mark of each IN entry (10_state.md R44). -/
  inWritten : Vector Bool 64
  /-- The valid-mark of OUT (10_state.md R44). -/
  outValid : Bool
  /-- The model's own: how many free values have been drawn (log 8). -/
  draws : Nat
  /-- The model's own: the events to come, the next one first (log 1). -/
  inputs : List Event
  /-- The model's own: what the host has got back so far, oldest first (log 9; a run's observation
  takes the values of its reads from it, 70_reset_and_hazards.md R355). -/
  replies : List Reply
deriving DecidableEq, Repr

/-- The model faults of 60_exceptions.md R318 and 93_implementation_defined.md. No recorded error is a fault. -/
inductive Fault where
  /-- Raised by a CMD write that passes checks 1 to 4 while an IN entry is unwritten since reset. Safe: the
  hardware computes with unspecified values. -/
  | unwrittenIn
  /-- Raised by a host read of OUT with BUSY = 0 before any command has completed since reset. Safe: the hardware
  returns an unspecified value. -/
  | unwrittenOut
  /-- Raised by a turn of the engine with BUSY = 1 and nothing in PEND, which no rule produces. Safe: the machine
  has no step there. -/
  | engineStuck
deriving DecidableEq, Repr

/-- Refusals: an instruction without a meaning. -/
inductive Refusal where
  /-- Raised by `exec` for an instruction not modelled yet, by its mnemonic; no instruction is left so. Safe. -/
  | notModelled (mnemonic : String)
deriving DecidableEq, Repr

/-- The state right after reset (10_state.md R45, 70_reset_and_hazards.md R340). The spec leaves IN and OUT
unspecified; the model names 0 for each entry, DESIGN CHOICE, unsafe (log 5 and 6), and no host read shows it. -/
def State.reset : State where
  inBuf := Vector.replicate 64 0
  outBuf := Vector.replicate 64 0
  cmd := 0
  status := { busy := false, done := false, err := false, multi := false, errCode := 0 }
  ctrl := { irqEn := false }
  pend := none
  inWritten := Vector.replicate 64 false
  outValid := false
  draws := 0
  inputs := []
  replies := []

end Sys2Proof.Machine
end

