-- ==== Sys2Proof/Machine/Flags.lean ====
section
/-! DEFINITION. Machine/Flags.lean: the flags, which are the STATUS bits and no others (10_state.md R39), what
writes them, and the irq line. -/

namespace Sys2Proof.Machine

/-- The 32-bit value of STATUS: BUSY, DONE, ERR, MULTI in bits 0 to 3 and ERRCODE in 11:8 (10_state.md R37). -/
def Status.toWord (f : Status) : Word :=
  (0 : BitVec 20) ++ f.errCode ++ (0 : BitVec 4) ++ BitVec.ofBool f.multi ++ BitVec.ofBool f.err
    ++ BitVec.ofBool f.done ++ BitVec.ofBool f.busy

/-- The 32-bit value of CTRL (10_state.md R38). -/
def Ctrl.toWord (c : Ctrl) : Word := (0 : BitVec 31) ++ BitVec.ofBool c.irqEn

/-- The host's write to STATUS: W[1] clears DONE; W[2] clears ERR, MULTI and ERRCODE; nothing else is written
(10_state.md R37). -/
def Status.writeClear (f : Status) (w : Word) : Status where
  busy := f.busy
  done := f.done && !w.getLsbD 1
  err := f.err && !w.getLsbD 2
  multi := f.multi && !w.getLsbD 2
  errCode := if w.getLsbD 2 then 0 else f.errCode

/-- record_error: the first error since ERR was cleared sets ERR and ERRCODE, a later one sets MULTI only
(60_exceptions.md R304). -/
def Status.record (f : Status) (e : CmdError) : Status :=
  if f.err then { f with multi := true } else { f with err := true, errCode := e.code }

/-- The flags an accepted command writes: BUSY set, DONE cleared (60_exceptions.md R301). -/
def Status.accepted (f : Status) : Status := { f with busy := true, done := false }

/-- The flags the completing engine step writes: BUSY cleared, DONE set (60_exceptions.md R300). -/
def Status.completed (f : Status) : Status := { f with busy := false, done := true }

/-- irq = CTRL.IRQ_EN AND (STATUS.DONE OR STATUS.ERR), a level (10_state.md R43, 60_exceptions.md R308). -/
def State.irq (s : State) : Bool := s.ctrl.irqEn && (s.status.done || s.status.err)

end Sys2Proof.Machine
end

