-- ==== Sys2Proof/Machine/Ops.lean ====
section
/-! DEFINITION. Machine/Ops.lean: the named operations over the registers and buffers: the address map, recording an
error, acceptance and completion of a command, bus reads and writes, reset, and the choice of the next event. -/

namespace Sys2Proof.Machine

/-- What stands at an offset of the window (20_memory.md R71). -/
inductive Reg where
  | id
  | cmd
  | status
  | ctrl
  | inEntry (i : Fin 64)
  | outEntry (i : Fin 64)
  | reserved
deriving DecidableEq, Repr

/-- The address map (20_memory.md R71), for the offset of an aligned word. -/
def regAt (off : Nat) : Reg :=
  if off = 0x000 then .id
  else if off = 0x004 then .cmd
  else if off = 0x008 then .status
  else if off = 0x00C then .ctrl
  else if 0x100 ≤ off ∧ off < 0x200 then .inEntry ⟨(off - 0x100) / 4 % 64, by omega⟩
  else if 0x200 ≤ off ∧ off < 0x300 then .outEntry ⟨(off - 0x200) / 4 % 64, by omega⟩
  else .reserved

/-- The word stored at an aligned offset, whatever a host read of it would answer: the registers by their values,
reserved offsets and everything outside the window 0 (20_memory.md R71, R72). -/
def State.peek (s : State) (off : Nat) : Word :=
  match regAt off with
  | .id => Config.idValue
  | .cmd => s.cmd
  | .status => s.status.toWord
  | .ctrl => s.ctrl.toWord
  | .inEntry i => s.inBuf[i]
  | .outEntry i => s.outBuf[i]
  | .reserved => 0

/-- Byte `a` of the window, little-endian (20_memory.md R73). -/
def State.peekByte (s : State) (a : Nat) : Byte := (s.peek (a - a % 4)).extractLsb' (8 * (a % 4)) 8

/-- raise CmdError(e): the one shared operation of every recorded error. Only STATUS changes (60_exceptions.md R302,
R304). -/
def State.recordError (s : State) (e : CmdError) : State := { s with status := s.status.record e }

/-- accept(W, op, m): CMD and PEND take the command, BUSY is set and DONE cleared (60_exceptions.md R301). -/
def State.accept (s : State) (w : Word) (i : Instr) : State :=
  { s with cmd := w, pend := some i, status := s.status.accepted }

/-- The completion of a command with the result block `out`: OUT is written, BUSY cleared, DONE set, PEND emptied
and the valid-mark set, in one atomic step (60_exceptions.md R300). -/
def State.complete (s : State) (out : Block Word) : State :=
  { s with outBuf := out, status := s.status.completed, pend := none, outValid := true }

/-- A host write to IN[i] while BUSY = 0: the entry and its written-mark (10_state.md R33, R44). -/
def State.writeIn (s : State) (i : Fin 64) (v : Word) : State :=
  { s with inBuf := s.inBuf.set i v, inWritten := s.inWritten.set i true }

/-- Every written-mark is set (60_exceptions.md R318). -/
def State.allWritten (s : State) : Bool := s.inWritten.all id

/-- Every IN entry holds a legal sample (30_encoding.md R105, R109). -/
def State.samplesLegal (s : State) : Bool := s.inBuf.all sampleLegal

/-- One reply to the host. -/
def State.reply (s : State) (r : Reply) : State := { s with replies := s.replies ++ [r] }

/-- The next free value is drawn (log 8). -/
def State.draw (s : State) : Word × State := (Config.freeWord s.draws, { s with draws := s.draws + 1 })

/-- What one machine action answers. -/
abbrev Result := Host.Outcome State Fault Refusal

/-- Command submission: the checks in their order, the model fault UNWRITTEN_IN after check 4, then acceptance
(30_encoding.md R105, 60_exceptions.md R318). A refused command changes STATUS only. -/
def State.submit (s : State) (w : Word) : Result :=
  if s.status.busy then .next (s.recordError .cmdWhileBusy)
  else
    match decodeCommand w with
    | .error e => .next (s.recordError e)
    | .ok i =>
      if !s.allWritten then .fault .unwrittenIn
      else if i.isForward && !s.samplesLegal then .next (s.recordError .sampleRange)
      else .next (s.accept w i)

/-- write_effect of a legal access (20_memory.md R77). -/
def State.writeEffect (s : State) (off : Nat) (v : Word) : Result :=
  match regAt off with
  | .cmd => s.submit v
  | .status => .next { s with status := s.status.writeClear v }
  | .ctrl => .next { s with ctrl := { irqEn := v.getLsbD 0 } }
  | .inEntry i => if s.status.busy then .next (s.recordError .inWriteWhileBusy) else .next (s.writeIn i v)
  | .id | .outEntry _ | .reserved => .next s

/-- The reply of a read, then the state after it. -/
def State.answer (s : State) (v : Word) : Result := .next (s.reply (.read .okay v))

/-- The reply of a read of an unspecified value: a draw, any 32-bit value (60_exceptions.md R318). -/
def State.answerFree (s : State) : Result := s.draw.2.answer s.draw.1

/-- read_effect of a legal access, with its reply (20_memory.md R77, R79, 60_exceptions.md R318). -/
def State.readEffect (s : State) (off : Nat) : Result :=
  match regAt off with
  | .id => s.answer Config.idValue
  | .cmd => s.answer s.cmd
  | .status => s.answer s.status.toWord
  | .ctrl => s.answer s.ctrl.toWord
  | .inEntry i => if s.inWritten[i] then s.answer s.inBuf[i] else s.answerFree
  | .outEntry i =>
    if s.status.busy then s.answerFree
    else if s.outValid then s.answer s.outBuf[i]
    else .fault .unwrittenOut
  | .reserved => s.answer 0

/-- The check of MemRead and MemWrite, as R74 writes it: an access of another size than 4, misaligned or above 0x3FC
is malformed (20_memory.md R74, R75). -/
def accessLegal (off size : Nat) : Bool := !(size != 4 || off % 4 != 0 || 0x3FC < off)

/-- MemRead and MemWrite, one indivisible transaction (20_memory.md R74). -/
def State.transact (s : State) : Transaction → Result
  | .read off size =>
    if accessLegal off size then s.readEffect off else .next (s.reply (.read .error 0))
  | .write off size v =>
    if accessLegal off size then
      match s.writeEffect off v with
      | .next s' => .next (s'.reply (.write .okay))
      | .fault f => .fault f
      | .refused r => .refused r
    else .next (s.reply (.write .error))

/-- The reset event: every piece of the core's state to its value of 10_state.md R45 (70_reset_and_hazards.md R340).
What the host still has to send, what it has got back and the count of draws are not the core's and stay (log 16). -/
def State.resetEvent (s : State) : State :=
  { State.reset with draws := s.draws, inputs := s.inputs, replies := s.replies }

/-- The next event and the state that has it no longer before it. With no event left the engine has its turn while
BUSY = 1 (70_reset_and_hazards.md R351, R355; log 2); with BUSY = 0 there is none. -/
def State.nextEvent (s : State) : Option Event × State :=
  match s.inputs with
  | [] => (if s.status.busy then some .engine else none, s)
  | e :: rest => (some e, { s with inputs := rest })

/-- What the engine's turn does. -/
inductive Turn where
  /-- BUSY = 0: the engine has no enabled step (60_exceptions.md R300), and nothing happens (log 3). -/
  | idle
  /-- The completion step of the command in PEND. -/
  | run (i : Instr)
  /-- BUSY = 1 without PEND, which no rule produces (93_implementation_defined.md; log 4). -/
  | stuck
deriving DecidableEq, Repr

/-- The engine's fetch: the command in PEND while BUSY = 1 (60_exceptions.md R300). -/
def State.engineTurn (s : State) : Turn :=
  if s.status.busy then
    match s.pend with
    | some i => .run i
    | none => .stuck
  else .idle

end Sys2Proof.Machine
end

