-- ==== Sys2Proof/Machine/Aan.lean ====
section
/-! DEFINITION. Machine/Aan.lean: the unit dct_aan_factored, IDCT_AAN_F32 and IDCT_AAN_F64 (44_aan.md). -/

namespace Sys2Proof.Machine

/-- AAN1D: the 8-point scaled inverse butterfly, in the order and with the names of 44_aan.md R242. -/
def aan1d {α : Type} [Add α] [Sub α] [Mul α] (k : AanConsts α) (x : Vec8 α) : Vec8 α :=
  -- even part
  let t10 := x[0] + x[4]
  let t11 := x[0] - x[4]
  let t13 := x[2] + x[6]
  let t12 := ((x[2] - x[6]) * k.r2) - t13
  let e0 := t10 + t13
  let e3 := t10 - t13
  let e1 := t11 + t12
  let e2 := t11 - t12
  -- odd part
  let z13 := x[5] + x[3]
  let z10 := x[5] - x[3]
  let z11 := x[1] + x[7]
  let z12 := x[1] - x[7]
  let o7 := z11 + z13
  let u11 := (z11 - z13) * k.r2
  let z5 := (z10 + z12) * k.a
  let u10 := z5 - (z12 * k.aMinusB)
  let u12 := z5 - (z10 * k.aPlusB)
  let o6 := u12 - o7
  let o5 := u11 - o6
  let o4 := u10 - o5
  -- final combine
  #v[e0 + o7, e1 + o6, e2 + o5, e3 + o4, e3 - o4, e2 - o5, e1 - o6, e0 - o7]

/-- AAN1D_P (44_aan.md R242). -/
def aan1dFlt (P : Precision) : Vec8 (Flt P) → Vec8 (Flt P) :=
  @aan1d _ (Flt.addOp P) (Flt.subOp P) (Flt.mulOp P) (aanConsts P)

/-- The pre-scale and the two passes of the AAN transform, rows then columns, with no scale at the end (44_aan.md
R243). -/
def aan2d {α : Type} [Add α] [Sub α] [Mul α] (k : AanConsts α) (Q : Vec8 (Vec8 α)) (F : Block α) : Block α :=
  ofCols (crossPass (aan1d k) (rowPass (fun _ => aan1d k) (Block.build fun u v => F.at u v * Q[u][v])))

/-- EVAL_IDCT_AAN_P (44_aan.md R243, R244). -/
def evalIdctAan (P : Precision) (F : Block Int) : Block (Flt P) :=
  @aan2d _ (Flt.addOp P) (Flt.subOp P) (Flt.mulOp P) (aanConsts P) (prescale P) (cvtBlock P F)

/-- IDCT_AAN_F32 (44_aan.md R243). -/
def execIdctAanF32 (m : RMode) (s : State) : Result :=
  .next (s.complete (bytesOut m (evalIdctAan .binary32 (coeffBlock s.inBuf))))

/-- IDCT_AAN_F64 (44_aan.md R244). -/
def execIdctAanF64 (m : RMode) (s : State) : Result :=
  .next (s.complete (bytesOut m (evalIdctAan .binary64 (coeffBlock s.inBuf))))

end Sys2Proof.Machine
end

