-- ==== Sys2Proof/Machine/Ap922.lean ====
section
/-! DEFINITION. Machine/Ap922.lean: the unit dct_ap922_factored, IDCT_AP922 (45_ap922.md). -/

namespace Sys2Proof.Machine

/-- AP922ROW: four products of the even group, four of the odd, then the 8-point add and subtract butterfly
(45_ap922.md R263). -/
def ap922Row {α : Type} [Add α] [Sub α] [Mul α] [Zero α] (Wt : Vector (Vec8 α) 4) (X : Vec8 α) : Vec8 α :=
  let E := fun n : Fin 4 => sumOver evenIdx fun k => Wt[n][k] * X[k]
  let O := fun n : Fin 4 => sumOver oddIdx fun k => Wt[n][k] * X[k]
  #v[E 0 + O 0, E 1 + O 1, E 2 + O 2, E 3 + O 3, E 3 - O 3, E 2 - O 2, E 1 - O 1, E 0 - O 0]

/-- AP922COL: the column kernel, in the order and with the names of 45_ap922.md R264. -/
def ap922Col {α : Type} [Add α] [Sub α] [Mul α] (k : Ap922Consts α) (x : Vec8 α) : Vec8 α :=
  -- even part
  let u04 := x[0] + x[4]
  let v04 := x[0] - x[4]
  let u26 := x[2] + (k.t2 * x[6])
  let v26 := (k.t2 * x[2]) - x[6]
  let a0 := u04 + u26
  let a1 := v04 + v26
  let a2 := v04 - v26
  let a3 := u04 - u26
  -- odd part
  let u17 := x[1] + (k.t1 * x[7])
  let v17 := (k.t1 * x[1]) - x[7]
  let u35 := x[3] + (k.t3 * x[5])
  let v35 := (k.t3 * x[3]) - x[5]
  let b0 := u17 + u35
  let b3 := v17 - v35
  let u12 := k.g4 * (u17 - u35)
  let v12 := k.g4 * (v17 + v35)
  let b1 := u12 + v12
  let b2 := u12 - v12
  -- final combine
  #v[a0 + b0, a1 + b1, a2 + b2, a3 + b3, a3 - b3, a2 - b2, a1 - b1, a0 - b0]

/-- AP922ROW in binary32 with the table of row r (45_ap922.md R261, R263). -/
def ap922RowF32 (r : Fin 8) : Vec8 (Flt .binary32) → Vec8 (Flt .binary32) :=
  @ap922Row _ (Flt.addOp _) (Flt.subOp _) (Flt.mulOp _) (Flt.zeroOp _) wTables[row2idx[r]]

/-- AP922COL in binary32 (45_ap922.md R264). -/
def ap922ColF32 : Vec8 (Flt .binary32) → Vec8 (Flt .binary32) :=
  @ap922Col _ (Flt.addOp _) (Flt.subOp _) (Flt.mulOp _) ap922Consts

/-- The two passes of IDCT_AP922, rows of F each with its table, then columns, and the factor 0.25 (45_ap922.md R265,
90_conflicts.md C4, C10). -/
def ap922Twice {α : Type} [Add α] [Sub α] [Mul α] [Zero α] (W : Vector (Vector (Vec8 α) 4) 4) (k : Ap922Consts α)
    (quarter : α) (F : Block α) : Block α :=
  (ofCols (crossPass (ap922Col k) (rowPass (fun r => ap922Row W[row2idx[r]]) F))).map (· * quarter)

/-- EVAL_IDCT_AP922 (45_ap922.md R265). -/
def evalIdctAp922 (F : Block Int) : Block (Flt .binary32) :=
  @ap922Twice _ (Flt.addOp _) (Flt.subOp _) (Flt.mulOp _) (Flt.zeroOp _) wTables ap922Consts (quarter _)
    (cvtBlock .binary32 F)

/-- IDCT_AP922 (45_ap922.md R265). -/
def execIdctAp922 (m : RMode) (s : State) : Result :=
  .next (s.complete (bytesOut m (evalIdctAp922 (coeffBlock s.inBuf))))

end Sys2Proof.Machine
end

