-- ==== Sys2Proof/Machine/FdctFast.lean ====
section
/-! DEFINITION. Machine/FdctFast.lean: the unit fdct_fast, FDCT_LLM (46_fdct_fast.md). -/

namespace Sys2Proof.Machine

/-- LLMF1D: the 8-point forward butterfly network, in the order and with the names of 46_fdct_fast.md R281; it uses
the LLM constants (R280). -/
def llmF1d {α : Type} [Add α] [Sub α] [Mul α] (k : LlmConsts α) (x : Vec8 α) : Vec8 α :=
  -- input butterfly
  let a0 := x[0] + x[7]
  let a7 := x[0] - x[7]
  let a1 := x[1] + x[6]
  let a6 := x[1] - x[6]
  let a2 := x[2] + x[5]
  let a5 := x[2] - x[5]
  let a3 := x[3] + x[4]
  let a4 := x[3] - x[4]
  -- even part
  let b0 := a0 + a3
  let b3 := a0 - a3
  let b1 := a1 + a2
  let b2 := a1 - a2
  let Y0 := b0 + b1
  let Y4 := b0 - b1
  let Y2 := (k.r2c2 * b3) + (k.r2c6 * b2)
  let Y6 := (k.r2c6 * b3) - (k.r2c2 * b2)
  -- odd part
  let b4 := (k.c3 * a4) + (k.s3 * a7)
  let b7 := (k.c3 * a7) - (k.s3 * a4)
  let b5 := (k.c1 * a5) + (k.s1 * a6)
  let b6 := (k.c1 * a6) - (k.s1 * a5)
  let c7 := b7 + b5
  let c4 := b4 + b6
  let Y1 := c7 + c4
  let Y7 := c7 - c4
  let Y3 := k.r2 * (b7 - b5)
  let Y5 := k.r2 * (b4 - b6)
  #v[Y0, Y1, Y2, Y3, Y4, Y5, Y6, Y7]

/-- LLMF1D in binary32 (46_fdct_fast.md R281). -/
def llmF1dF32 : Vec8 (Flt .binary32) → Vec8 (Flt .binary32) :=
  @llmF1d _ (Flt.addOp _) (Flt.subOp _) (Flt.mulOp _) llmConsts

/-- The two passes of FDCT_LLM, columns then rows, and the factor 0.125 (46_fdct_fast.md R282). -/
def llmF2d {α : Type} [Add α] [Sub α] [Mul α] (k : LlmConsts α) (eighth : α) (d : Block α) : Block α :=
  (ofRows (crossPass (llmF1d k) (colPass (llmF1d k) d))).map (· * eighth)

/-- EVAL_FDCT_LLM (46_fdct_fast.md R282). -/
def evalFdctLlm (s : Block Int) : Block (Flt .binary32) :=
  @llmF2d _ (Flt.addOp _) (Flt.subOp _) (Flt.mulOp _) llmConsts eighth (cvtSamples .binary32 s)

/-- FDCT_LLM; RMODE is checked at submission and has no effect (46_fdct_fast.md R282, 30_encoding.md R103). -/
def execFdctLlm (_m : RMode) (s : State) : Result :=
  .next (s.complete (floatsOut (evalFdctLlm (sampleBlock s.inBuf))))

end Sys2Proof.Machine
end

