-- ==== Sys2Proof/Machine/Llm.lean ====
section
/-! DEFINITION. Machine/Llm.lean: the unit dct_llm_factored, IDCT_LLM (43_llm.md). -/

namespace Sys2Proof.Machine

/-- LLM1D: the 8-point inverse butterfly network, in the order and with the names of 43_llm.md R221. -/
def llm1d {α : Type} [Add α] [Sub α] [Mul α] (k : LlmConsts α) (Y : Vec8 α) : Vec8 α :=
  -- even part
  let b0 := Y[0] + Y[4]
  let b1 := Y[0] - Y[4]
  let b3 := (k.r2c2 * Y[2]) + (k.r2c6 * Y[6])
  let b2 := (k.r2c6 * Y[2]) - (k.r2c2 * Y[6])
  let a0 := b0 + b3
  let a3 := b0 - b3
  let a1 := b1 + b2
  let a2 := b1 - b2
  -- odd part
  let c7 := Y[1] + Y[7]
  let c4 := Y[1] - Y[7]
  let t5 := k.r2 * Y[3]
  let t6 := k.r2 * Y[5]
  let b7 := c7 + t5
  let b5 := c7 - t5
  let b4 := c4 + t6
  let b6 := c4 - t6
  let a4 := (k.c3 * b4) - (k.s3 * b7)
  let a7 := (k.s3 * b4) + (k.c3 * b7)
  let a5 := (k.c1 * b5) - (k.s1 * b6)
  let a6 := (k.s1 * b5) + (k.c1 * b6)
  -- final combine
  #v[a0 + a7, a1 + a6, a2 + a5, a3 + a4, a3 - a4, a2 - a5, a1 - a6, a0 - a7]

/-- LLM1D in binary32 (43_llm.md R221). -/
def llm1dF32 : Vec8 (Flt .binary32) → Vec8 (Flt .binary32) :=
  @llm1d _ (Flt.addOp _) (Flt.subOp _) (Flt.mulOp _) llmConsts

/-- The two passes of IDCT_LLM, rows then columns, and the factor 0.125 (43_llm.md R222). -/
def llm2d {α : Type} [Add α] [Sub α] [Mul α] (k : LlmConsts α) (eighth : α) (F : Block α) : Block α :=
  (ofCols (crossPass (llm1d k) (rowPass (fun _ => llm1d k) F))).map (· * eighth)

/-- EVAL_IDCT_LLM (43_llm.md R222). -/
def evalIdctLlm (F : Block Int) : Block (Flt .binary32) :=
  @llm2d _ (Flt.addOp _) (Flt.subOp _) (Flt.mulOp _) llmConsts eighth (cvtBlock .binary32 F)

/-- IDCT_LLM (43_llm.md R222). -/
def execIdctLlm (m : RMode) (s : State) : Result :=
  .next (s.complete (bytesOut m (evalIdctLlm (coeffBlock s.inBuf))))

end Sys2Proof.Machine
end

