-- ==== Sys2Proof/Machine/Reference.lean ====
section
/-! DEFINITION. Machine/Reference.lean: the unit dct_8x8_reference, IDCT_REF_F32, IDCT_REF_F64 and FDCT_REF
(41_reference.md). Kernels are written over any arithmetic, so that the same wiring can be read in IEEE arithmetic,
which is the machine, and in exact arithmetic. -/

namespace Sys2Proof.Machine

/-- The double sum of one output, outer index first, each term added as it is formed (41_reference.md R170). -/
def sum2 {α : Type} [Add α] [Zero α] (term : Fin 8 → Fin 8 → α) : α :=
  allIdx.foldl (fun acc u => allIdx.foldl (fun acc v => acc + term u v) acc) 0

/-- REFIDCT: the direct inverse kernel over converted coefficients (41_reference.md R171). -/
def refIdct {α : Type} [Add α] [Mul α] [Zero α] (C : Vec8 α) (B : Vec8 (Vec8 α)) (quarter : α) (F : Block α) :
    Block α :=
  Block.build fun x y => sum2 (fun u v => C[u] * C[v] * F.at u v * B[u][x] * B[v][y]) * quarter

/-- The direct forward kernel over shifted, converted samples (41_reference.md R174). -/
def refFdct {α : Type} [Add α] [Mul α] [Zero α] (C : Vec8 α) (B : Vec8 (Vec8 α)) (quarter : α) (d : Block α) :
    Block α :=
  Block.build fun u v => sum2 (fun x y => d.at x y * B[u][x] * B[v][y]) * (C[u] * C[v] * quarter)

/-- REFIDCT_P (41_reference.md R171). -/
def refIdctFlt (P : Precision) (F : Block (Flt P)) : Block (Flt P) :=
  @refIdct _ (Flt.addOp P) (Flt.mulOp P) (Flt.zeroOp P) (norm P) (basis P) (quarter P) F

/-- EVAL_IDCT_REF in precision `P` (41_reference.md R172, R173). -/
def evalIdctRef (P : Precision) (F : Block Int) : Block (Flt P) := refIdctFlt P (cvtBlock P F)

/-- EVAL_FDCT_REF (41_reference.md R174). -/
def evalFdctRef (s : Block Int) : Block (Flt .binary32) :=
  @refFdct _ (Flt.addOp _) (Flt.mulOp _) (Flt.zeroOp _) (norm .binary32) (basis .binary32) (quarter .binary32)
    (cvtSamples .binary32 s)

/-- IDCT_REF_F32 (41_reference.md R172). -/
def execIdctRefF32 (m : RMode) (s : State) : Result :=
  .next (s.complete (bytesOut m (evalIdctRef .binary32 (coeffBlock s.inBuf))))

/-- IDCT_REF_F64 (41_reference.md R173). -/
def execIdctRefF64 (m : RMode) (s : State) : Result :=
  .next (s.complete (bytesOut m (evalIdctRef .binary64 (coeffBlock s.inBuf))))

/-- FDCT_REF; RMODE is checked at submission and has no effect (41_reference.md R174, 30_encoding.md R103). -/
def execFdctRef (_m : RMode) (s : State) : Result :=
  .next (s.complete (floatsOut (evalFdctRef (sampleBlock s.inBuf))))

end Sys2Proof.Machine
end

