-- ==== Sys2Proof/Machine/FixedPoint.lean ====
section
/-! DEFINITION. Machine/FixedPoint.lean: the K table of IDCT_SEP_FIX for every scale (42_separable.md R198).

Each product S·cos(mπ/16) is a nested square root of integers, so its nearest integer is computed exactly: the floor
of a square root of a real is the integer square root of the real's floor, and 2·cos(mπ/16) is √(2 ± √(2 ± √2)),
√(2 ± √2) or √2 (DEDUCED, log 22). -/

namespace Sys2Proof.Machine

/-- The binary digits of an integer square root, from the highest. -/
def isqrtFrom (y : Nat) : Nat → Nat → Nat
  | 0, acc => acc
  | b + 1, acc => if (acc + 2 ^ b) * (acc + 2 ^ b) ≤ y then isqrtFrom y b (acc + 2 ^ b) else isqrtFrom y b acc

/-- The integer square root: the greatest integer whose square is at most `y`. -/
def isqrt (y : Nat) : Nat := isqrtFrom y (y.log2 / 2 + 1) 0

/-- The floor of 2·S·cos(mπ/16), for m = 1..7 and S ≥ 1. -/
def twiceCosFloor (S : Nat) (m : Fin 8) : Nat :=
  let root2 := isqrt (2 * S ^ 8)                     -- floor of S⁴·√2
  let rootP := isqrt (2 * S ^ 4 + root2)             -- floor of S²·√(2 + √2)
  let rootM := isqrt (2 * S ^ 4 - root2 - 1)         -- floor of S²·√(2 - √2)
  let flat2 := isqrt (2 * S ^ 4)                     -- floor of S²·√2
  match m with
  | 0 => 2 * S
  | 1 => isqrt (2 * S ^ 2 + rootP)
  | 2 => isqrt (2 * S ^ 2 + flat2)
  | 3 => isqrt (2 * S ^ 2 + rootM)
  | 4 => isqrt (2 * S ^ 2)
  | 5 => isqrt (2 * S ^ 2 - rootM - 1)
  | 6 => isqrt (2 * S ^ 2 - flat2 - 1)
  | 7 => isqrt (2 * S ^ 2 - rootP - 1)

/-- The integer nearest to S·cos(mπ/16), m = 1..7; no tie occurs, the product being irrational (R198). -/
def fixConst (S : Nat) (m : Fin 8) : Int := ((twiceCosFloor S m + 1) / 2 : Nat)

/-- K[k][n] for the scale `S`: the signs and angles of the Basis Matrix, with C(0) = 1/√2 folded into row 0, whose
entries are therefore S·cos(4π/16) (42_separable.md R198). -/
def fixTable (S : Nat) : Vec8 (Vec8 Int) :=
  basisOf #v[fixConst S 4, fixConst S 1, fixConst S 2, fixConst S 3, fixConst S 4, fixConst S 5, fixConst S 6,
    fixConst S 7]

end Sys2Proof.Machine
end

