-- ==== Sys2Proof/Machine/Separable.lean ====
section
/-! DEFINITION. Machine/Separable.lean: the unit dct_separable_matrix, IDCT_SEP, IDCT_SEP_SYM2, IDCT_SEP_SYM4,
IDCT_SEP_SYM8 and IDCT_SEP_FIX (42_separable.md). -/

namespace Sys2Proof.Machine

/-- Xs[k] = Cp[k]·X[k], the first line of every separable kernel (42_separable.md R192). -/
def scaled {α : Type} [Mul α] (C X : Vec8 α) : Vec8 α := Vector.ofFn fun k => C[k] * X[k]

/-- PLAIN: one output per inner loop (42_separable.md R192). -/
def plain {α : Type} [Add α] [Mul α] [Zero α] (C : Vec8 α) (B : Vec8 (Vec8 α)) (X : Vec8 α) : Vec8 α :=
  let Xs := scaled C X
  Vector.ofFn fun n : Fin 8 => sumOver allIdx fun k => Xs[k] * B[k][n]

/-- SYM2: the pair (n, 7 - n) from an even and an odd partial sum (42_separable.md R193). -/
def sym2 {α : Type} [Add α] [Sub α] [Mul α] [Zero α] (C : Vec8 α) (B : Vec8 (Vec8 α)) (X : Vec8 α) : Vec8 α :=
  let Xs := scaled C X
  let E := fun n : Fin 8 => sumOver evenIdx fun k => Xs[k] * B[k][n]
  let O := fun n : Fin 8 => sumOver oddIdx fun k => Xs[k] * B[k][n]
  #v[E 0 + O 0, E 1 + O 1, E 2 + O 2, E 3 + O 3, E 3 - O 3, E 2 - O 2, E 1 - O 1, E 0 - O 0]

/-- SYM4: the outputs n, 7 - n, 3 - n and 4 + n for n = 0, 1 (42_separable.md R194). -/
def sym4 {α : Type} [Add α] [Sub α] [Mul α] [Zero α] (C : Vec8 α) (B : Vec8 (Vec8 α)) (X : Vec8 α) : Vec8 α :=
  let Xs := scaled C X
  let EE := fun n : Fin 8 => sumOver [0, 4] fun k => Xs[k] * B[k][n]
  let EO := fun n : Fin 8 => sumOver [2, 6] fun k => Xs[k] * B[k][n]
  let O := fun n : Fin 8 => sumOver oddIdx fun k => Xs[k] * B[k][n]
  let En := fun n => EE n + EO n
  let Em := fun n => EE n - EO n
  #v[En 0 + O 0, En 1 + O 1, Em 1 + O 2, Em 0 + O 3, Em 0 - O 3, Em 1 - O 2, En 1 - O 1, En 0 - O 0]

/-- SYM8: the products of each input k, scattered to n and 7 - n with the sign of k's parity (42_separable.md
R195). Output n < 4 gathers +p for every k, output 7 - n gathers p for even k and -p for odd k, in ascending k. -/
def sym8 {α : Type} [Add α] [Mul α] [Neg α] [Zero α] (C : Vec8 α) (B : Vec8 (Vec8 α)) (X : Vec8 α) : Vec8 α :=
  let Xs := scaled C X
  let near := fun n : Fin 8 => sumOver allIdx fun k => Xs[k] * B[k][n]
  let far := fun n : Fin 8 => sumOver allIdx fun k =>
    let p := Xs[k] * B[k][n]
    if k.val % 2 = 0 then p else -p
  #v[near 0, near 1, near 2, near 3, far 3, far 2, far 1, far 0]

/-- SEP2D: the kernel over the rows, then over the columns, then the factor 1/4 (42_separable.md R191). -/
def sep2d {α : Type} [Mul α] (kernel : Vec8 α → Vec8 α) (quarter : α) (F : Block α) : Block α :=
  (ofCols (crossPass kernel (rowPass (fun _ => kernel) F))).map (· * quarter)

/-- PLAIN in binary32 (42_separable.md R192). -/
def plainF32 : Vec8 (Flt .binary32) → Vec8 (Flt .binary32) :=
  @plain _ (Flt.addOp _) (Flt.mulOp _) (Flt.zeroOp _) (norm _) (basis _)

/-- SYM2 in binary32 (42_separable.md R193). -/
def sym2F32 : Vec8 (Flt .binary32) → Vec8 (Flt .binary32) :=
  @sym2 _ (Flt.addOp _) (Flt.subOp _) (Flt.mulOp _) (Flt.zeroOp _) (norm _) (basis _)

/-- SYM4 in binary32 (42_separable.md R194). -/
def sym4F32 : Vec8 (Flt .binary32) → Vec8 (Flt .binary32) :=
  @sym4 _ (Flt.addOp _) (Flt.subOp _) (Flt.mulOp _) (Flt.zeroOp _) (norm _) (basis _)

/-- SYM8 in binary32 (42_separable.md R195). -/
def sym8F32 : Vec8 (Flt .binary32) → Vec8 (Flt .binary32) :=
  @sym8 _ (Flt.addOp _) (Flt.mulOp _) (Flt.negOp _) (Flt.zeroOp _) (norm _) (basis _)

/-- EVAL of the four binary32 separable operations, by their kernel (42_separable.md R199 to R202). -/
def evalSep (kernel : Vec8 (Flt .binary32) → Vec8 (Flt .binary32)) (F : Block Int) : Block (Flt .binary32) :=
  @sep2d _ (Flt.mulOp _) kernel (quarter _) (cvtBlock .binary32 F)

/-- The row pass of IDCT_SEP_FIX: T[u][y] (42_separable.md R203). -/
def fixRows (S : Nat) (m : RMode) (F : Block Int) : Vec8 (Vec8 Int) :=
  let K := fixTable S
  rowPass (fun _ X => Vector.ofFn fun y : Fin 8 => roundDiv m (sumOver allIdx fun v => K[v][y] * X[v]) S) F

/-- EVAL_IDCT_SEP_FIX in mathematical integers and exact rationals (42_separable.md R203). -/
def evalIdctSepFix (S : Nat) (m : RMode) (F : Block Int) : Block Rat :=
  let K := fixTable S
  let T := fixRows S m F
  Block.build fun x y => mkRat (sumOver allIdx fun u => K[u][x] * T[u][y]) (4 * S)

/-- IDCT_SEP (42_separable.md R199). -/
def execIdctSep (m : RMode) (s : State) : Result :=
  .next (s.complete (bytesOut m (evalSep plainF32 (coeffBlock s.inBuf))))

/-- IDCT_SEP_SYM2 (42_separable.md R200). -/
def execIdctSepSym2 (m : RMode) (s : State) : Result :=
  .next (s.complete (bytesOut m (evalSep sym2F32 (coeffBlock s.inBuf))))

/-- IDCT_SEP_SYM4 (42_separable.md R201). -/
def execIdctSepSym4 (m : RMode) (s : State) : Result :=
  .next (s.complete (bytesOut m (evalSep sym4F32 (coeffBlock s.inBuf))))

/-- IDCT_SEP_SYM8 (42_separable.md R202). -/
def execIdctSepSym8 (m : RMode) (s : State) : Result :=
  .next (s.complete (bytesOut m (evalSep sym8F32 (coeffBlock s.inBuf))))

/-- IDCT_SEP_FIX at the core's FIX_SCALE (42_separable.md R203). -/
def execIdctSepFix (m : RMode) (s : State) : Result :=
  .next (s.complete (bytesOutExact m (evalIdctSepFix Config.fixScale m (coeffBlock s.inBuf))))

end Sys2Proof.Machine
end

