-- ==== Sys2Proof/Machine/Dispatch.lean ====
section
/-! DEFINITION. Machine/Dispatch.lean: the engine step of each operation, one arm per constructor of Instr. -/

namespace Sys2Proof.Machine

def exec (i : Instr) (s : State) : Host.Outcome State Fault Refusal :=
  match i with
  | .idctRefF32 m => Sys2Proof.Machine.execIdctRefF32 m s
  | .idctRefF64 m => Sys2Proof.Machine.execIdctRefF64 m s
  | .fdctRef m => Sys2Proof.Machine.execFdctRef m s
  | .idctSep m => Sys2Proof.Machine.execIdctSep m s
  | .idctSepSym2 m => Sys2Proof.Machine.execIdctSepSym2 m s
  | .idctSepSym4 m => Sys2Proof.Machine.execIdctSepSym4 m s
  | .idctSepSym8 m => Sys2Proof.Machine.execIdctSepSym8 m s
  | .idctSepFix m => Sys2Proof.Machine.execIdctSepFix m s
  | .idctLlm m => Sys2Proof.Machine.execIdctLlm m s
  | .fdctLlm m => Sys2Proof.Machine.execFdctLlm m s
  | .idctAanF32 m => Sys2Proof.Machine.execIdctAanF32 m s
  | .idctAanF64 m => Sys2Proof.Machine.execIdctAanF64 m s
  | .idctAp922 m => Sys2Proof.Machine.execIdctAp922 m s

end Sys2Proof.Machine
end

