-- ==== Sys2Proof/Machine/Step.lean ====
section
/-! DEFINITION. Machine/Step.lean: one step of the machine: the next event of the one total order of host
transactions, engine steps and resets (20_memory.md R80), and the placing of an instruction for the engine. -/

namespace Sys2Proof.Machine

/-- One step. A turn of the engine with a command in flight is `exec` of that command. -/
def step (s : State) : Host.Outcome State Fault Refusal :=
  match s.nextEvent with
  | (none, s') => .next s'
  | (some (.host t), s') => s'.transact t
  | (some .reset, s') => .next s'.resetEvent
  | (some .engine, s') =>
    match s'.engineTurn with
    | .idle => .next s'
    | .run i => exec i s'
    | .stuck => .fault .engineStuck

/-- The state with an instruction placed where the engine fetches its next one: what the acceptance of its word
leaves (60_exceptions.md R301), and the engine's turn as the next event (log 10). A word that is no command cannot be
in flight: it is placed as the host's write of it to CMD, which the next step refuses (log 25). -/
def State.withFetchWord (s : State) (nbits w : Nat) : State :=
  let word : Word := BitVec.ofNat 32 (w % 2 ^ nbits)
  match decodeTableWord nbits w with
  | some i => { s.accept word i with inputs := .engine :: s.inputs }
  | none => { s with inputs := .host (.write 0x004 4 word) :: s.inputs }

end Sys2Proof.Machine
end

