-- ==== Sys2Proof/Machine/ClosedForm.lean ====
section
/-! DEFINITION. Machine/ClosedForm.lean: the closed forms that govern the constant ROMs, and the exact transforms, in
real arithmetic (40_numeric_common.md R133 to R135, R141, R142; 42_separable.md R198; 43_llm.md R220; 44_aan.md R240,
R241; 45_ap922.md R260 to R262). The machine does not run these; statements compare it with them. -/

namespace Sys2Proof.Machine

open Real

/-- c_m = cos(mπ/16) (40_numeric_common.md R135). -/
noncomputable def cosReal (m : Nat) : ℝ := cos (m * π / 16)

/-- B[k][n] = cos((2n+1)kπ/16) (40_numeric_common.md R135). -/
noncomputable def basisReal (k n : Fin 8) : ℝ := cos ((2 * (n.val : ℝ) + 1) * k.val * π / 16)

/-- C(0) = 1/√2 and C(k) = 1 (40_numeric_common.md R134). -/
noncomputable def normReal (k : Fin 8) : ℝ := if k = 0 then 1 / √2 else 1

/-- The C(k) as a kernel takes them. -/
noncomputable def normRealVec : Vec8 ℝ := Vector.ofFn normReal

/-- The Basis Matrix as a kernel takes it. -/
noncomputable def basisRealVec : Vec8 (Vec8 ℝ) := Vector.ofFn fun k => Vector.ofFn fun n => basisReal k n

/-- The closed forms of the LLM constants (43_llm.md R220). -/
noncomputable def llmReal : LlmConsts ℝ where
  r2 := √2
  r2c2 := √2 * cos (2 * π / 16)
  r2c6 := √2 * cos (6 * π / 16)
  c1 := cos (π / 16)
  s1 := sin (π / 16)
  c3 := cos (3 * π / 16)
  s3 := sin (3 * π / 16)

/-- The closed forms of the AAN constants (44_aan.md R240). -/
noncomputable def aanReal : AanConsts ℝ where
  r2 := √2
  a := 2 * cos (2 * π / 16)
  b := 2 * cos (6 * π / 16)
  aMinusB := 2 * (cos (π / 8) - cos (3 * π / 8))
  aPlusB := 2 * (cos (π / 8) + cos (3 * π / 8))

/-- aan[k] (44_aan.md R241). -/
noncomputable def aanScale (k : Fin 8) : ℝ := if k = 0 then 1 else √2 * cos (k.val * π / 16)

/-- The closed form of Q[u][v] (44_aan.md R241). -/
noncomputable def prescaleReal (u v : Fin 8) : ℝ := aanScale u * aanScale v / 8

/-- The Q table as the kernel takes it. -/
noncomputable def prescaleRealVec : Vec8 (Vec8 ℝ) := Vector.ofFn fun u => Vector.ofFn fun v => prescaleReal u v

/-- The closed forms of T1, T2, T3 and G4 (45_ap922.md R260). -/
noncomputable def ap922Real : Ap922Consts ℝ where
  t1 := cos (7 * π / 16) / cos (π / 16)
  t2 := cos (6 * π / 16) / cos (2 * π / 16)
  t3 := cos (5 * π / 16) / cos (3 * π / 16)
  g4 := cos (4 * π / 16)

/-- The scale g[GROUPK[idx]] of table idx (45_ap922.md R261). -/
noncomputable def rowScale (idx : Fin 4) : ℝ := cosReal groupK[idx]

/-- The closed form of W[idx][n][k] (45_ap922.md R262); its C'(k) is C(k). -/
noncomputable def wReal (idx n : Fin 4) (k : Fin 8) : ℝ :=
  rowScale idx * normReal k * cos ((2 * (n.val : ℝ) + 1) * k.val * π / 16)

/-- The W tables as the kernel takes them. -/
noncomputable def wRealVec : Vector (Vector (Vec8 ℝ) 4) 4 :=
  Vector.ofFn fun idx => Vector.ofFn fun n => Vector.ofFn fun k => wReal idx n k

/-- The real product that K[k][n] rounds, S·C(k)·cos((2n+1)kπ/16) (42_separable.md R198). -/
noncomputable def fixReal (S : Nat) (k n : Fin 8) : ℝ := S * (normReal k * basisReal k n)

/-- The exact 1D inverse transform of a vector (42_separable.md R190). -/
noncomputable def idct1d (X : Vec8 ℝ) (n : Fin 8) : ℝ := ∑ k : Fin 8, normReal k * X[k] * basisReal k n

/-- IDCT_exact(F)(x, y) (40_numeric_common.md R141). -/
noncomputable def idctExact (F : Block ℝ) (x y : Fin 8) : ℝ :=
  (1 / 4) * ∑ u : Fin 8, ∑ v : Fin 8, normReal u * normReal v * F.at u v * basisReal u x * basisReal v y

/-- FDCT_exact(s)(u, v), of the shifted samples s - 128 (40_numeric_common.md R142). -/
noncomputable def fdctExact (d : Block ℝ) (u v : Fin 8) : ℝ :=
  normReal u * normReal v / 4 * ∑ x : Fin 8, ∑ y : Fin 8, d.at x y * basisReal u x * basisReal v y

/-- `x` is crP(r): finite, in its one form, and no finite datum of the format is nearer to r; of two equally near ones
`x` is the one of even significand (00_scope.md R14, 40_numeric_common.md R132, R133). -/
def IsRounded (P : Precision) (r : ℝ) (x : Flt P) : Prop :=
  ∃ (s : Bool) (m q : Nat), x = .fin s m q ∧ x.Canonical = true ∧
    ∀ (s' : Bool) (m' q' : Nat), Flt.Canonical (.fin s' m' q' : Flt P) = true →
      |((x.val : ℚ) : ℝ) - r| ≤ |((Flt.val (.fin s' m' q' : Flt P) : ℚ) : ℝ) - r| ∧
      (|((x.val : ℚ) : ℝ) - r| = |((Flt.val (.fin s' m' q' : Flt P) : ℚ) : ℝ) - r| →
        Flt.val (.fin s' m' q' : Flt P) = x.val ∨ m % 2 = 0)

end Sys2Proof.Machine
end

