-- ==== Sys2Proof/Machine/HostProgram.lean ====
section
/-! DEFINITION. Machine/HostProgram.lean: host programs and their runs: the transactions and the POLL loop of
30_encoding.md R116, the records of R117, the pseudo-instructions of R118 by their expansions of R119, the interleaving
of a host with the engine, and the host's own arithmetic of the round trip (40_numeric_common.md R146). -/

namespace Sys2Proof.Machine

/-- A host program: transactions in sequence, host-side steps between them (30_encoding.md R116). The value of an RD is
named by the rest of the program, and so is what a whole program hands on. -/
inductive HostProgram (α : Type) where
  /-- The host has performed its last transaction. -/
  | done (value : α)
  /-- WR off, v. -/
  | wr (off : Nat) (v : Word) (rest : HostProgram α)
  /-- RD off -> name. -/
  | rd (off : Nat) (rest : Word → HostProgram α)
  /-- POLL off, mask, val: RD off -> t is repeated until t AND mask = val. -/
  | poll (off : Nat) (mask val : Word) (rest : HostProgram α)

/-- One program, then the program that its value selects (30_encoding.md R116). -/
def HostProgram.andThen {α β : Type} (p : HostProgram α) (q : α → HostProgram β) : HostProgram β :=
  match p with
  | .done a => q a
  | .wr off v rest => .wr off v (rest.andThen q)
  | .rd off rest => .rd off fun t => (rest t).andThen q
  | .poll off mask val rest => .poll off mask val (rest.andThen q)

/-! ## The pseudo-instructions -/

/-- The offset of IN[i] (20_memory.md R71). -/
def inOffset (i : Fin 64) : Nat := 0x100 + 4 * i.val

/-- The offset of OUT[i] (20_memory.md R71). -/
def outOffset (i : Fin 64) : Nat := 0x200 + 4 * i.val

/-- WR to the IN entries of a list, in its order. -/
def writeEntries (v : Block Word) : List (Fin 64) → HostProgram Unit
  | [] => .done ()
  | i :: rest => .wr (inOffset i) v[i] (writeEntries v rest)

/-- RD of the OUT entries of a list, in its order, into the block `r`. -/
def readEntries (r : Block Word) : List (Fin 64) → HostProgram (Block Word)
  | [] => .done r
  | i :: rest => .rd (outOffset i) fun t => readEntries (r.set i t) rest

/-- LOADBLK v[0..63]: the 64 IN writes, lowest first (30_encoding.md R119). -/
def loadBlk (v : Block Word) : HostProgram Unit := writeEntries v (List.finRange 64)

/-- START: one CMD write (30_encoding.md R119). -/
def start (i : Instr) : HostProgram Unit := .wr 0x004 (encodeCommand i) (.done ())

/-- WAIT: POLL 0x008, 0x00000001, 0x00000000, until BUSY = 0 (30_encoding.md R119). -/
def wait : HostProgram Unit := .poll 0x008 0x00000001 0x00000000 (.done ())

/-- RUN: START, then WAIT (30_encoding.md R119). -/
def runCommand (i : Instr) : HostProgram Unit := (start i).andThen fun _ => wait

/-- READBLK -> r[0..63]: the 64 OUT reads, lowest first (30_encoding.md R119). -/
def readBlk : HostProgram (Block Word) := readEntries (Vector.replicate 64 0) (List.finRange 64)

/-- CLRSTAT: W1C of DONE and ERR (30_encoding.md R119). -/
def clrStat : HostProgram Unit := .wr 0x008 0x00000006 (.done ())

/-- What CHECK takes from the STATUS it read: ERR and ERRCODE (30_encoding.md R119). -/
def checkResult (t : Word) : Bool × BitVec 4 := (t.getLsbD 2, t.extractLsb' 8 4)

/-- CHECK -> e (30_encoding.md R119). -/
def check : HostProgram (Bool × BitVec 4) := .rd 0x008 fun t => .done (checkResult t)

/-! ## Running a program -/

/-- The end of a POLL: the masked read equals the value (30_encoding.md R116). -/
def pollEnds (mask val t : Word) : Bool := t &&& mask == val

/-- The reads of a finished POLL: every one but the last fails the test, the last meets it (30_encoding.md R116). -/
def pollTrace (mask val : Word) : List Word → Bool
  | [] => false
  | [t] => pollEnds mask val t
  | t :: ts => !pollEnds mask val t && pollTrace mask val ts

/-- The next transaction of a program (30_encoding.md R116). -/
def HostProgram.transaction {α : Type} : HostProgram α → Option Transaction
  | .done _ => none
  | .wr off v _ => some (.write off 4 v)
  | .rd off _ => some (.read off 4)
  | .poll off _ _ _ => some (.read off 4)

/-- What is left of a program after its next transaction, which read `t` if it was a read: a POLL whose test fails is
there again (30_encoding.md R116). -/
def HostProgram.resume {α : Type} (p : HostProgram α) (t : Word) : HostProgram α :=
  match p with
  | .done a => .done a
  | .wr _ _ rest => rest
  | .rd _ rest => rest t
  | .poll off mask val rest => if pollEnds mask val t then rest else .poll off mask val rest

/-- The data of a reply; a write returns none, and no program asks for it (20_memory.md R74). -/
def Reply.data : Reply → Word
  | .read _ t => t
  | .write _ => 0

/-- The value a reply returns to a read; a write returns none (70_reset_and_hazards.md R355). -/
def Reply.readValue : Reply → Option Word
  | .read _ t => some t
  | .write _ => none

/-- The values returned by the reads that came after the first `n` replies, oldest first
(70_reset_and_hazards.md R355). -/
def State.readsAfter (s : State) (n : Nat) : List Word := (s.replies.drop n).filterMap Reply.readValue

/-- The data of the reply that came last. -/
def State.lastData (s : State) : Word :=
  match s.replies.getLast? with
  | some r => r.data
  | none => 0

/-- One event happens to the core, by the machine's own step. -/
def State.happen (s : State) (e : Event) : Result := step { s with inputs := [e] }

/-- A host program under way. -/
structure HostRun (α : Type) where
  /-- What is left of the program. -/
  program : HostProgram α
  /-- The core it runs against. -/
  core : State
  /-- What has happened so far, oldest first. -/
  events : List Event

/-- Whose event comes next (20_memory.md R80). -/
inductive Agent where
  /-- The host performs the next transaction of its program. -/
  | host
  /-- The engine has its turn. -/
  | engine
  /-- The platform resets the core; the host's program goes on, DESIGN CHOICE (log 30). -/
  | reset
deriving DecidableEq, Repr

/-- An event of the core, after which the program goes on as `go` says. -/
def HostRun.after {α : Type} (r : HostRun α) (e : Event) (go : State → HostProgram α) :
    Host.Outcome (HostRun α) Fault Refusal :=
  match r.core.happen e with
  | .next t => .next { program := go t, core := t, events := r.events ++ [e] }
  | .fault f => .fault f
  | .refused f => .refused f

/-- One turn. Each repetition of a POLL is a turn of its own, so the engine can have its turns between its reads; a
host that is done does nothing more (30_encoding.md R116, 20_memory.md R80). DESIGN CHOICE, unsafe for a run with a reset in
it (log 30): the program goes on through a reset as the same run. -/
def HostRun.turn {α : Type} (r : HostRun α) : Agent → Host.Outcome (HostRun α) Fault Refusal
  | .host =>
    match r.program.transaction with
    | none => .next r
    | some x => r.after (.host x) fun t => r.program.resume t.lastData
  | .engine => r.after .engine fun _ => r.program
  | .reset => r.after .reset fun _ => r.program

/-- The turns of a schedule, up to the first fault (log 29). -/
def HostRun.run {α : Type} (r : HostRun α) : List Agent → Host.Outcome (HostRun α) Fault Refusal
  | [] => .next r
  | a :: rest =>
    match r.turn a with
    | .next r' => r'.run rest
    | .fault f => .fault f
    | .refused f => .refused f

/-- A program about to run against a core (70_reset_and_hazards.md R354). What hosts got back before is no part of the
run (log 9). -/
def HostProgram.launch {α : Type} (p : HostProgram α) (s : State) : HostRun α :=
  { program := p, core := { s with inputs := [], replies := [] }, events := [] }

/-- The value of a program that is done. -/
def HostProgram.value {α : Type} : HostProgram α → Option α
  | .done a => some a
  | .wr _ _ _ | .rd _ _ | .poll _ _ _ _ => none

/-- The run is over: the host has performed its last transaction and no command is in flight
(70_reset_and_hazards.md R355). -/
def HostRun.over {α : Type} (r : HostRun α) : Bool := r.program.value.isSome && !r.core.status.busy

/-! ## Records -/

/-- The transaction of an event, if it is the host's. -/
def Event.transaction : Event → Option Transaction
  | .host t => some t
  | .engine => none
  | .reset => none

/-- The transactions performed: a POLL is expanded into the RDs it needed (30_encoding.md R117). -/
def HostRun.trace {α : Type} (r : HostRun α) : List Transaction := r.events.filterMap Event.transaction

/-- The recorded trace (30_encoding.md R117). -/
def HostRun.records {α : Type} (r : HostRun α) : Option (List (BitVec 64)) := r.trace.mapM encodeRecord

/-- The events of a recorded trace (30_encoding.md R117); none if a word is no record. -/
def eventsOfRecords (rs : List (BitVec 64)) : Option (List Event) :=
  rs.mapM fun r => (decodeRecord r).map Event.host

/-! ## The host's own arithmetic -/

/-- trunc_32 of a coefficient, as LOADBLK writes it (30_encoding.md R119). -/
def coeffWord (z : Int) : Word := BitVec.ofInt 32 z

/-- The host's rounding of one forward output: Clamp(-2048, 2047, RoundInt_0(val(c))) (40_numeric_common.md R146). -/
def hostRound (c : Word) : Int :=
  clamp (-2048) 2047 (roundInt .halfAway (Flt.val (Flt.ofBits .binary32 c.toNat)))

/-- The window offset of a byte address on the host bus; an address outside the window is not the core's
(20_memory.md R70, R75). -/
def windowOffset (addr : Nat) : Option Nat :=
  if Config.dctBase ≤ addr ∧ addr ≤ Config.dctBase + 0x3FF then some (addr - Config.dctBase) else none

end Sys2Proof.Machine
end

