-- ==== Sys2Proof/Safety.lean ====
section
/-! DEFINITION. Safety.lean: launch premises, the end and the observation of a run (70_reset_and_hazards.md R354,
R355), the invariant of the machine, and the tolerance laws (40_numeric_common.md R145 to R147). -/

namespace Sys2Proof

open Sys2Proof.Machine

/-- Launch premise clean-reset: the state right after reset, with the host's events before it (R354). -/
def cleanReset (program : List Event) (s : State) : Prop := s = { State.reset with inputs := program }

/-- Launch premise clean-idle: nothing in flight, and the marks named by `written` and `valid` (R354). -/
def cleanIdle (written : Vector Bool 64) (valid : Bool) (s : State) : Prop :=
  s.status.busy = false ∧ s.pend = none ∧ s.inWritten = written ∧ s.outValid = valid

/-- The run is over: the host has performed its last transaction and no command is in flight (R355). A run that gets
here has met no model fault, for a fault ends it; so it is a success, recorded errors or not. -/
def runOver (s : State) : Prop := s.inputs = [] ∧ s.status.busy = false

/-- The observation of a run (R355). -/
structure Observation where
  /-- IN at the end. -/
  inBuf : Block Word
  /-- OUT at the end. -/
  outBuf : Block Word
  /-- CMD at the end. -/
  cmd : Word
  /-- STATUS at the end. -/
  status : Word
  /-- CTRL at the end. -/
  ctrl : Word
  /-- The values returned by the run's reads, oldest first. -/
  reads : List Word
deriving DecidableEq, Repr

/-- What the host observes of a run from `launch` that ends in `s`: the final registers and buffers, and the values its
own reads returned (R355). -/
def observe (launch s : State) : Observation where
  inBuf := s.inBuf
  outBuf := s.outBuf
  cmd := s.cmd
  status := s.status.toWord
  ctrl := s.ctrl.toWord
  reads := s.readsAfter launch.replies.length

/-- The observation of a program's run against the core `s`, once the run is over (R355). Of a run interrupted by reset
R355 says nothing; here its reads from before the reset stay in it, DESIGN CHOICE, unsafe for such a run (log 30). -/
def observeRun {α : Type} (p : HostProgram α) (s : State) (r : HostRun α) : Option Observation :=
  if r.over then some (observe (p.launch s).core r.core) else none

/-- The states the core can be in. PEND is held exactly while BUSY = 1, and then CMD is its word, IN was written, and
the samples of a forward command are legal; DONE and BUSY exclude each other; the error fields agree; CMD is 0 or a
legal word (10_state.md R35, R37, R40; 60_exceptions.md R300 to R304, R318). -/
structure Inv (s : State) : Prop where
  pendBusy : s.pend.isSome = s.status.busy
  pendCmd : ∀ i, s.pend = some i → s.cmd = encodeCommand i
  pendWritten : ∀ i, s.pend = some i → s.allWritten = true
  pendSamples : ∀ i, s.pend = some i → i.isForward = true → s.samplesLegal = true
  notBoth : ¬ (s.status.busy = true ∧ s.status.done = true)
  multiErr : s.status.multi = true → s.status.err = true
  codeErr : s.status.errCode = 0 ↔ s.status.err = false
  codeLegal : s.status.errCode.toNat ≤ 6
  cmdLegal : s.cmd = 0 ∨ wfCommand s.cmd = true
  doneValid : s.status.done = true → s.outValid = true

/-- The coefficients of a block lie in the domain of the tolerance laws (40_numeric_common.md R145). -/
def inLawDomain (F : Block Int) : Prop := ∀ i : Fin 64, -Config.coeffLawBound ≤ F[i] ∧ F[i] ≤ Config.coeffLawBound

/-- The bytes an inverse operation writes for a coefficient block, by its engine step. -/
def outputOf (i : Instr) (F : Block Int) : Option (Block Word) :=
  match exec i { State.reset with inBuf := F.map coeffWord } with
  | .next t => some t.outBuf
  | .fault _ | .refused _ => none

/-- Two output blocks differ by at most `d` in every sample. -/
def within (d : Nat) (a b : Block Word) : Prop := ∀ i : Fin 64, |(a[i].toNat : Int) - b[i].toNat| ≤ d

/-- Cross-algorithm equivalence of an inverse operation other than IDCT_SEP_FIX with IDCT_REF_F32, under the
operation's rounding policy (40_numeric_common.md R145). -/
def CrossAlgorithmLaw (i : Instr) : Prop :=
  ∀ F : Block Int, inLawDomain F → ∀ a b : Block Word,
    outputOf i F = some a → outputOf (.idctRefF32 i.rmode) F = some b → within 1 a b

/-- The law of IDCT_SEP_FIX, on one block: within 2 of IDCT_REF_F32 (40_numeric_common.md R145). The spec requires it of
the blocks it names, not of every block of the domain. -/
def FixedPointLaw (m : RMode) (F : Block Int) : Prop :=
  ∀ a b : Block Word, outputOf (.idctSepFix m) F = some a → outputOf (.idctRefF32 m) F = some b → within 2 a b

/-- Round trip of one spatial block (40_numeric_common.md R146): through FDCT_REF, the host's rounding and IDCT_REF_F32
under RMODE 0 it comes back within 1. The spec requires it of sampled blocks. -/
def RoundTripLaw (S : Block Int) : Prop :=
  ∀ c b : Block Word,
    outputOf (.fdctRef .halfAway) S = some c → outputOf (.idctRefF32 .halfAway) (c.map hostRound) = some b →
      within 1 b (S.map coeffWord)

/-- The DC-only block with F[0] = f (40_numeric_common.md R147). -/
def dcBlock (f : Int) : Block Int := (Vector.replicate 64 0).set 0 f

/-! ## One step, in the terms of statements -/

/-- What a completed command leaves, OUT apart: BUSY = 0, DONE = 1, PEND empty and the valid-mark set; every other piece
of state, and every byte of the window outside OUT and the low byte of STATUS, as it was (60_exceptions.md R300). -/
structure Completed (s t : State) : Prop where
  busy : t.status.busy = false
  done : t.status.done = true
  err : t.status.err = s.status.err
  multi : t.status.multi = s.status.multi
  errCode : t.status.errCode = s.status.errCode
  pend : t.pend = none
  outValid : t.outValid = true
  inBuf : t.inBuf = s.inBuf
  inWritten : t.inWritten = s.inWritten
  cmd : t.cmd = s.cmd
  ctrl : t.ctrl = s.ctrl
  draws : t.draws = s.draws
  inputs : t.inputs = s.inputs
  replies : t.replies = s.replies
  bytes : ∀ a : Nat, a ≠ 0x008 → ¬ (0x200 ≤ a ∧ a < 0x300) → t.peekByte a = s.peekByte a
  statusBits : ∀ b : Nat, 2 ≤ b → (t.peekByte 0x008).getLsbD b = (s.peekByte 0x008).getLsbD b

/-- A host write refused with an error: the flags of 60_exceptions.md R304 and the OKAY response, nothing else. -/
def rejectedWith (s : State) (code : BitVec 4) : Result :=
  .next { s with
    status :=
      { s.status with
        err := true
        multi := s.status.multi || s.status.err
        errCode := if s.status.err then s.status.errCode else code }
    replies := s.replies ++ [.write .okay] }

/-- A host write with no effect but its OKAY response. -/
def writeIgnored (s : State) : Result := .next { s with replies := s.replies ++ [.write .okay] }

/-- A host read that answers a stored value. -/
def readAnswers (s : State) (v : Word) : Result := .next { s with replies := s.replies ++ [.read .okay v] }

/-- A host read that answers a free value (60_exceptions.md R318). -/
def readDraws (s : State) : Result :=
  .next { s with draws := s.draws + 1, replies := s.replies ++ [.read .okay (Config.freeWord s.draws)] }

/-- The bytes at the offset of CMD, lowest first: what a host that reads CMD stores (20_memory.md R73). -/
def cmdBytes (s : State) : List Byte := [s.peekByte 0x004, s.peekByte 0x005, s.peekByte 0x006, s.peekByte 0x007]

/-! ## Results, position by position, as the rules write them -/

/-- Position (x, y) of REFIDCT_P (41_reference.md R171): one chain of 64 additions in row-major order. -/
def refPixel (P : Precision) (inBuf : Block Word) (x y : Fin 8) : Flt P :=
  ((List.finRange 64).foldl
    (fun acc i =>
      acc.add (((((Machine.norm P)[rowOf i].mul (Machine.norm P)[colOf i]).mul (Flt.ofInt P inBuf[i].toInt)).mul
        (Machine.basis P)[rowOf i][x]).mul (Machine.basis P)[colOf i][y]))
    (Flt.zero P)).mul (quarter P)

/-- Position (u, v) of EVAL_FDCT_REF (41_reference.md R174). -/
def refCoefficient (inBuf : Block Word) (u v : Fin 8) : Flt .binary32 :=
  ((List.finRange 64).foldl
    (fun acc i =>
      acc.add (((Flt.ofInt .binary32 ((inBuf[i].toNat % 256 : Nat) - 128 : Int)).mul
        (Machine.basis .binary32)[u][rowOf i]).mul (Machine.basis .binary32)[v][colOf i]))
    (Flt.zero .binary32)).mul
    (((Machine.norm .binary32)[u].mul (Machine.norm .binary32)[v]).mul (quarter .binary32))

/-- Position (x, y) of SEP2D with a kernel (42_separable.md R191). -/
def sepPixel (kernel : Vec8 (Flt .binary32) → Vec8 (Flt .binary32)) (inBuf : Block Word) (x y : Fin 8) :
    Flt .binary32 :=
  (kernel (Vector.ofFn fun u =>
    (kernel (Vector.ofFn fun v => Flt.ofInt .binary32 (inBuf.at u v).toInt))[y]))[x].mul (quarter .binary32)

/-- T[u][y] of IDCT_SEP_FIX (42_separable.md R203). -/
def fixRowValue (S : Nat) (m : RMode) (inBuf : Block Word) (u y : Fin 8) : Int :=
  roundInt m (((∑ v : Fin 8, (fixTable S)[v][y] * (inBuf.at u v).toInt : Int) : Rat) / (S : Rat))

/-- A of IDCT_SEP_FIX at position (x, y) (42_separable.md R203). -/
def fixColumnSum (S : Nat) (m : RMode) (inBuf : Block Word) (x y : Fin 8) : Int :=
  ∑ u : Fin 8, (fixTable S)[u][x] * fixRowValue S m inBuf u y

/-- Position (x, y) of EVAL_IDCT_LLM (43_llm.md R222). -/
def llmPixel (inBuf : Block Word) (x y : Fin 8) : Flt .binary32 :=
  (llm1dF32 (Vector.ofFn fun u =>
    (llm1dF32 (Vector.ofFn fun v => Flt.ofInt .binary32 (inBuf.at u v).toInt))[y]))[x].mul eighth

/-- Position (u, v) of EVAL_FDCT_LLM (46_fdct_fast.md R282). -/
def llmCoefficient (inBuf : Block Word) (u v : Fin 8) : Flt .binary32 :=
  (llmF1dF32 (Vector.ofFn fun y =>
    (llmF1dF32 (Vector.ofFn fun x =>
      Flt.ofInt .binary32 (((inBuf.at x y).toNat % 256 : Nat) - 128 : Int)))[u]))[v].mul eighth

/-- Position (x, y) of EVAL_IDCT_AAN_P (44_aan.md R243). -/
def aanPixel (P : Precision) (inBuf : Block Word) (x y : Fin 8) : Flt P :=
  (aan1dFlt P (Vector.ofFn fun u =>
    (aan1dFlt P (Vector.ofFn fun v => (Flt.ofInt P (inBuf.at u v).toInt).mul (prescale P)[u][v]))[y]))[x]

/-- Position (n, k) of EVAL_IDCT_AP922 (45_ap922.md R265). -/
def ap922Pixel (inBuf : Block Word) (n k : Fin 8) : Flt .binary32 :=
  (ap922ColF32 (Vector.ofFn fun r =>
    (ap922RowF32 r (Vector.ofFn fun v => Flt.ofInt .binary32 (inBuf.at r v).toInt))[k]))[n].mul (quarter .binary32)

/-- The least magnitude that rounds to an infinity: half a unit above the greatest finite value (IEEE 754,
40_numeric_common.md R132). -/
def overflowBound (P : Precision) : Rat := (2 ^ (P.sigBits + 1) - 1) * 2 ^ P.maxStep / 2 ^ (P.unitExp + 1)

/-- `x` is the exact value `r` as IEEE 754 delivers it: rounded to nearest, ties to even, or the infinity of its sign
where its magnitude is past the format (40_numeric_common.md R132). -/
def Delivers (P : Precision) (r : Rat) (x : Flt P) : Prop :=
  (|r| < overflowBound P → IsRounded P (r : ℝ) x) ∧ (overflowBound P ≤ |r| → x = .inf (decide (r < 0)))

end Sys2Proof
end

