-- ==== Sys2Proof/Certificates/Slice0/Obligations.lean ====
section
/-! DEFINITION. Certificates/Slice0/Obligations.lean: the statements about the core, from the spec's numbered rules. -/

open Sys2Proof Sys2Proof.Machine

/-! ## Encoding -/

/-- Decode and encode agree, for every instruction and every sequence of bytes: bytes decode to an instruction and a rest
exactly when they are its four bytes, lowest first, and that rest (30_encoding.md R113, R115; 20_memory.md R73). -/
def Obligations.DecodeEncodeAgree : Prop :=
  ∀ (bs rest : List Byte) (i : Instr), decodeBytes bs = .ok (i, rest) ↔ bs = encodeBytes i ++ rest

/-- The legal words are the 13 × 3 words (RMODE << 8) | OP; every other word is refused, with RESERVED_BITS, ILLEGAL_OP
or ILLEGAL_RMODE in that priority (30_encoding.md R101, R103, R104, R112). -/
def Obligations.LegalCommandWords : Prop :=
  (∀ w : Word, (∃ i, decodeCommand w = .ok i) ↔
    ∃ op m : Nat, 1 ≤ op ∧ op ≤ 13 ∧ m ≤ 2 ∧ w = BitVec.ofNat 32 (256 * m + op)) ∧
  (∀ w : Word, (∃ i, decodeCommand w = .ok i) ↔ wfCommand w = true) ∧
  (∀ (w : Word) (e : CmdError), decodeCommand w = .error e ↔
    e = .reservedBits ∧ (w.extractLsb' 5 3 ≠ 0 ∨ w.extractLsb' 10 22 ≠ 0) ∨
    e = .illegalOp ∧ w.extractLsb' 5 3 = 0 ∧ w.extractLsb' 10 22 = 0 ∧
      ((w.extractLsb' 0 5).toNat = 0 ∨ 0x0E ≤ (w.extractLsb' 0 5).toNat) ∨
    e = .illegalRmode ∧ w.extractLsb' 5 3 = 0 ∧ w.extractLsb' 10 22 = 0 ∧
      1 ≤ (w.extractLsb' 0 5).toNat ∧ (w.extractLsb' 0 5).toNat ≤ 0x0D ∧ (w.extractLsb' 8 2).toNat = 3) ∧
  (Instr.all.map encodeCommand).Nodup ∧ Instr.all.length = 39 ∧ ∀ i : Instr, i ∈ Instr.all

/-- A few command words of 30_encoding.md R115, one of each unit, written out as the bytes of the window. -/
def Obligations.CommandWordsRead : Prop :=
  decodeBytes [0x02, 0x01, 0x00, 0x00] = .ok (.idctRefF64 .halfUp, []) ∧
  decodeBytes [0x08, 0x02, 0x00, 0x00] = .ok (.idctSepFix .halfEven, []) ∧
  decodeBytes [0x09, 0x00, 0x00, 0x00] = .ok (.idctLlm .halfAway, []) ∧
  decodeBytes [0x0A, 0x02, 0x00, 0x00] = .ok (.fdctLlm .halfEven, []) ∧
  decodeBytes [0x0B, 0x01, 0x00, 0x00] = .ok (.idctAanF32 .halfUp, []) ∧
  decodeBytes [0x0D, 0x00, 0x00, 0x00] = .ok (.idctAp922 .halfAway, [])

/-- The records of 30_encoding.md R117 are read and written alike: a word is the record of one transaction, or of none. -/
def Obligations.RecordRoundTrip : Prop :=
  ∀ (r : BitVec 64) (t : Transaction), decodeRecord r = some t ↔ encodeRecord t = some r

/-! ## The step -/

/-- A step runs the decoded command: while a command is in flight and the next event is the engine's (or none is left),
the bytes of CMD decode to an instruction, and the step is `exec` of it on the state without that event. And the step of
a state with a command word placed by `withFetchWord` is `exec` of the command that word decodes to
(60_exceptions.md R300; log 10). -/
def Obligations.StepRunsDecoded : Prop :=
  (∀ (s : State) (i : Instr), Inv s → s.status.busy = true → decodeBytes (cmdBytes s) = .ok (i, []) →
    (s.inputs = [] → step s = exec i s) ∧
    (∀ rest, s.inputs = .engine :: rest → step s = exec i { s with inputs := rest })) ∧
  (∀ (s : State) (nbits w : Nat) (i : Instr), decodeTableWord nbits w = some i →
    step (s.withFetchWord nbits w) = exec i (s.accept (BitVec.ofNat 32 (w % 2 ^ nbits)) i))

/-- What every other event does: a host transaction is performed whole, a reset is the reset event, the engine with
BUSY = 0 does nothing, and a core with no event before it and BUSY = 0 keeps all its state (20_memory.md R74, R80;
60_exceptions.md R319; 70_reset_and_hazards.md R340; log 2, log 3). -/
def Obligations.StepTakesEvents : Prop :=
  (∀ (s : State) (x : Transaction) (rest : List Event), s.inputs = .host x :: rest →
    step s = ({ s with inputs := rest } : State).transact x) ∧
  (∀ (s : State) (rest : List Event), s.inputs = .reset :: rest →
    step s = .next ({ s with inputs := rest } : State).resetEvent) ∧
  (∀ (s : State) (rest : List Event), s.inputs = .engine :: rest → s.status.busy = false →
    step s = .next { s with inputs := rest }) ∧
  (∀ s : State, s.inputs = [] → s.status.busy = false → step s = .next s)

/-! ## What each operation computes -/

/-- IDCT_REF_F32 and IDCT_REF_F64 complete from every state, with REFIDCT at every position (41_reference.md R171 to
R173; 40_numeric_common.md R139). -/
def Obligations.ReferenceResults : Prop :=
  ∀ (m : RMode) (s : State),
    (∃ t, exec (.idctRefF32 m) s = .next t ∧ Completed s t ∧
      ∀ x y : Fin 8, t.outBuf[blockIndex x y] = byteWord (finalizeFlt m (refPixel .binary32 s.inBuf x y))) ∧
    (∃ t, exec (.idctRefF64 m) s = .next t ∧ Completed s t ∧
      ∀ x y : Fin 8, t.outBuf[blockIndex x y] = byteWord (finalizeFlt m (refPixel .binary64 s.inBuf x y)))

/-- FDCT_REF completes from every state, with the direct forward sum in binary32 at every position, whatever RMODE says
(41_reference.md R174; 40_numeric_common.md R140). -/
def Obligations.ForwardReferenceResult : Prop :=
  ∀ (m : RMode) (s : State),
    ∃ t, exec (.fdctRef m) s = .next t ∧ Completed s t ∧
      ∀ u v : Fin 8, t.outBuf[blockIndex u v] = BitVec.ofNat 32 (refCoefficient s.inBuf u v).toBits

/-- IDCT_SEP and its three symmetric variants complete from every state, with SEP2D of their kernel at every position
(42_separable.md R191, R199 to R202). -/
def Obligations.SeparableResults : Prop :=
  ∀ (m : RMode) (s : State),
    (∃ t, exec (.idctSep m) s = .next t ∧ Completed s t ∧
      ∀ x y : Fin 8, t.outBuf[blockIndex x y] = byteWord (finalizeFlt m (sepPixel plainF32 s.inBuf x y))) ∧
    (∃ t, exec (.idctSepSym2 m) s = .next t ∧ Completed s t ∧
      ∀ x y : Fin 8, t.outBuf[blockIndex x y] = byteWord (finalizeFlt m (sepPixel sym2F32 s.inBuf x y))) ∧
    (∃ t, exec (.idctSepSym4 m) s = .next t ∧ Completed s t ∧
      ∀ x y : Fin 8, t.outBuf[blockIndex x y] = byteWord (finalizeFlt m (sepPixel sym4F32 s.inBuf x y))) ∧
    (∃ t, exec (.idctSepSym8 m) s = .next t ∧ Completed s t ∧
      ∀ x y : Fin 8, t.outBuf[blockIndex x y] = byteWord (finalizeFlt m (sepPixel sym8F32 s.inBuf x y)))

/-- The four binary32 kernels form their sums in the order the rules write (42_separable.md R192 to R195), `C`, `B` the
constants of 40_numeric_common.md R134 and R135. -/
def Obligations.SeparableKernelOrder : Prop :=
  ∀ X : Vec8 (Flt .binary32),
    let p := fun k n : Fin 8 => ((Machine.norm .binary32)[k].mul X[k]).mul (Machine.basis .binary32)[k][n]
    let z := Flt.zero .binary32
    let even := fun n => (((z.add (p 0 n)).add (p 2 n)).add (p 4 n)).add (p 6 n)
    let odd := fun n => (((z.add (p 1 n)).add (p 3 n)).add (p 5 n)).add (p 7 n)
    let near := fun n =>
      (((((((z.add (p 0 n)).add (p 1 n)).add (p 2 n)).add (p 3 n)).add (p 4 n)).add (p 5 n)).add (p 6 n)).add (p 7 n)
    let far := fun n =>
      (((((((z.add (p 0 n)).add (p 1 n).negate).add (p 2 n)).add (p 3 n).negate).add (p 4 n)).add
        (p 5 n).negate).add (p 6 n)).add (p 7 n).negate
    let ee := fun n => (z.add (p 0 n)).add (p 4 n)
    let eo := fun n => (z.add (p 2 n)).add (p 6 n)
    (∀ n : Fin 8, (plainF32 X)[n] = near n) ∧
    (∀ n : Fin 8, n.val < 4 → (sym2F32 X)[n] = (even n).add (odd n) ∧
      (sym2F32 X)[n.rev] = (even n).sub (odd n)) ∧
    (∀ n : Fin 8, n.val < 2 →
      (sym4F32 X)[n] = ((ee n).add (eo n)).add (odd n) ∧
      (sym4F32 X)[n.rev] = ((ee n).add (eo n)).sub (odd n) ∧
      (sym4F32 X)[3 - n] = ((ee n).sub (eo n)).add (odd (3 - n)) ∧
      (sym4F32 X)[4 + n] = ((ee n).sub (eo n)).sub (odd (3 - n))) ∧
    (∀ n : Fin 8, n.val < 4 → (sym8F32 X)[n] = near n ∧ (sym8F32 X)[n.rev] = far n)

/-- IDCT_SEP_FIX completes from every state, with the rounded row sums over the scale 4096 and the rounded, clamped
column sums over 4 · 4096, all exact (42_separable.md R203; log 14). -/
def Obligations.FixedPointResult : Prop :=
  ∀ (m : RMode) (s : State),
    ∃ t, exec (.idctSepFix m) s = .next t ∧ Completed s t ∧
      ∀ x y : Fin 8, t.outBuf[blockIndex x y] =
        byteWord (finalize m ((fixColumnSum 4096 m s.inBuf x y : Rat) / (4 * 4096)))

/-- IDCT_LLM completes from every state, with the two passes and the factor 0.125 at every position (43_llm.md R222). -/
def Obligations.LlmResult : Prop :=
  ∀ (m : RMode) (s : State),
    ∃ t, exec (.idctLlm m) s = .next t ∧ Completed s t ∧
      ∀ x y : Fin 8, t.outBuf[blockIndex x y] = byteWord (finalizeFlt m (llmPixel s.inBuf x y))

/-- FDCT_LLM completes from every state, with columns, then rows, then the factor 0.125, whatever RMODE says
(46_fdct_fast.md R282). -/
def Obligations.ForwardLlmResult : Prop :=
  ∀ (m : RMode) (s : State),
    ∃ t, exec (.fdctLlm m) s = .next t ∧ Completed s t ∧
      ∀ u v : Fin 8, t.outBuf[blockIndex u v] = BitVec.ofNat 32 (llmCoefficient s.inBuf u v).toBits

/-- IDCT_AAN_F32 and IDCT_AAN_F64 complete from every state, with the pre-scale and the two passes at every position
(44_aan.md R243, R244). -/
def Obligations.AanResults : Prop :=
  ∀ (m : RMode) (s : State),
    (∃ t, exec (.idctAanF32 m) s = .next t ∧ Completed s t ∧
      ∀ x y : Fin 8, t.outBuf[blockIndex x y] = byteWord (finalizeFlt m (aanPixel .binary32 s.inBuf x y))) ∧
    (∃ t, exec (.idctAanF64 m) s = .next t ∧ Completed s t ∧
      ∀ x y : Fin 8, t.outBuf[blockIndex x y] = byteWord (finalizeFlt m (aanPixel .binary64 s.inBuf x y)))

/-- IDCT_AP922 completes from every state, with the two passes and the factor 0.25 at every position
(45_ap922.md R265). -/
def Obligations.Ap922Result : Prop :=
  ∀ (m : RMode) (s : State),
    ∃ t, exec (.idctAp922 m) s = .next t ∧ Completed s t ∧
      ∀ n k : Fin 8, t.outBuf[blockIndex n k] = byteWord (finalizeFlt m (ap922Pixel s.inBuf n k))

/-- The frame of all thirteen operations: whatever completes has written OUT, BUSY, DONE, PEND and the valid-mark, and
left every other piece of state and every other byte of the window alone (60_exceptions.md R300; 40_numeric_common.md
R143). -/
def Obligations.CompletionFrame : Prop :=
  ∀ (i : Instr) (s t : State), exec i s = .next t → Completed s t

/-- Every output of an inverse operation is a byte: bits 31:8 of every OUT entry are 0. A value whose rounding plus 128
leaves 0..255 is written as exactly 0 or 255 (40_numeric_common.md R150, R138). -/
def Obligations.OutputsAreBytes : Prop :=
  (∀ (i : Instr) (s t : State), i.isForward = false → exec i s = .next t → ∀ k : Fin 64, t.outBuf[k].toNat ≤ 255) ∧
  (∀ (m : RMode) (q : Rat),
    (roundInt m q + 128 < 0 → finalize m q = 0) ∧ (255 < roundInt m q + 128 → finalize m q = 255) ∧
    (0 ≤ roundInt m q + 128 → roundInt m q + 128 ≤ 255 → finalize m q = roundInt m q + 128))

/-- An operation is one pure function of IN and RMODE: two states with the same IN complete with the same OUT. A forward
operation depends on the low byte of each entry only, and not on RMODE (40_numeric_common.md R143; 30_encoding.md R103,
R109). -/
def Obligations.ResultDependsOnInput : Prop :=
  (∀ (i : Instr) (s s' t t' : State), s.inBuf = s'.inBuf → exec i s = .next t → exec i s' = .next t' →
    t.outBuf = t'.outBuf) ∧
  (∀ (i i' : Instr) (s s' t t' : State), i.isForward = true → i.opcode = i'.opcode →
    (∀ k : Fin 64, s.inBuf[k].extractLsb' 0 8 = s'.inBuf[k].extractLsb' 0 8) →
    exec i s = .next t → exec i' s' = .next t' → t.outBuf = t'.outBuf)

/-! ## Host transactions -/

/-- MemRead and MemWrite: an access of another size than 4, misaligned or above 0x3FC gets the response ERROR, read data
0 and no other effect; every other access has its read or write effect and the response OKAY (20_memory.md R74). -/
def Obligations.AccessPrimitives : Prop :=
  ∀ (s : State) (addr n : Nat) (v : Word),
    s.transact (.read addr n) =
      (if n ≠ 4 ∨ addr % 4 ≠ 0 ∨ 0x3FC < addr then .next { s with replies := s.replies ++ [.read .error 0] }
       else s.readEffect addr) ∧
    s.transact (.write addr n v) =
      (if n ≠ 4 ∨ addr % 4 ≠ 0 ∨ 0x3FC < addr then .next { s with replies := s.replies ++ [.write .error] }
       else
         match s.writeEffect addr v with
         | .next s' => .next { s' with replies := s'.replies ++ [.write .okay] }
         | .fault f => .fault f
         | .refused r => .refused r)

/-- ID reads 0x44435438 and every reserved offset 0x00000000, from every state; writes to them are ignored. Reserved bits
of STATUS and CTRL read 0, and what is written to them has no effect (10_state.md R36; 20_memory.md R72). -/
def Obligations.ConstantOffsets : Prop :=
  ∀ (s : State) (v : Word),
    s.transact (.read 0x000 4) = readAnswers s 0x44435438 ∧ s.transact (.write 0x000 4 v) = writeIgnored s ∧
    (∀ k : Fin 60, s.transact (.read (0x010 + 4 * k.val) 4) = readAnswers s 0 ∧
      s.transact (.write (0x010 + 4 * k.val) 4 v) = writeIgnored s) ∧
    (∀ k : Fin 64, s.transact (.read (0x300 + 4 * k.val) 4) = readAnswers s 0 ∧
      s.transact (.write (0x300 + 4 * k.val) 4 v) = writeIgnored s) ∧
    s.status.toWord &&& 0xFFFFF0F0 = 0 ∧ s.ctrl.toWord &&& 0xFFFFFFFE = 0 ∧
    s.transact (.write 0x008 4 v) = s.transact (.write 0x008 4 (v &&& 0x00000006)) ∧
    s.transact (.write 0x00C 4 v) = s.transact (.write 0x00C 4 (v &&& 0x00000001))

/-- Reads have no side effect but the reply, and answer the current value: CMD, STATUS, CTRL and a written IN entry at any
time, OUT with BUSY = 0 after a completion. A free value is drawn for an unwritten IN entry and for OUT while BUSY = 1,
and a read of OUT with BUSY = 0 before any completion is the model fault UNWRITTEN_OUT (20_memory.md R77, R79;
60_exceptions.md R318). -/
def Obligations.ReadsAnswer : Prop :=
  ∀ (s : State) (k : Fin 64),
    s.transact (.read 0x004 4) = readAnswers s s.cmd ∧
    s.transact (.read 0x008 4) = readAnswers s s.status.toWord ∧
    s.transact (.read 0x00C 4) = readAnswers s s.ctrl.toWord ∧
    s.transact (.read (0x100 + 4 * k.val) 4) =
      (if s.inWritten[k] = true then readAnswers s s.inBuf[k] else readDraws s) ∧
    s.transact (.read (0x200 + 4 * k.val) 4) =
      (if s.status.busy = true then readDraws s
       else if s.outValid = true then readAnswers s s.outBuf[k]
       else .fault .unwrittenOut)

/-- STATUS: BUSY, DONE, ERR and MULTI are bits 0 to 3 and ERRCODE bits 11:8. A host write clears DONE where its bit 1 is
set, and ERR, MULTI and ERRCODE where its bit 2 is set; every other bit of STATUS, BUSY among them, and all other state
stay, at any time (10_state.md R37). -/
def Obligations.StatusRegister : Prop :=
  ∀ (s : State) (v : Word),
    s.status.toWord.getLsbD 0 = s.status.busy ∧ s.status.toWord.getLsbD 1 = s.status.done ∧
    s.status.toWord.getLsbD 2 = s.status.err ∧ s.status.toWord.getLsbD 3 = s.status.multi ∧
    s.status.toWord.extractLsb' 8 4 = s.status.errCode ∧
    ∃ f : Status,
      s.transact (.write 0x008 4 v) = .next { s with status := f, replies := s.replies ++ [.write .okay] } ∧
      f.toWord = s.status.toWord &&&
        ~~~((if v.getLsbD 1 then 0x00000002 else 0) ||| (if v.getLsbD 2 then 0x00000F0C else 0))

/-- CTRL: bit 0 is IRQ_EN and bits 31:1 read 0; a host write at any time sets IRQ_EN to its bit 0 and is no error; the
reset value is 0 (10_state.md R38). -/
def Obligations.CtrlRegister : Prop :=
  (∀ (s : State) (v : Word),
    s.transact (.read 0x00C 4) = readAnswers s (if s.ctrl.irqEn then 0x00000001 else 0x00000000) ∧
    ∃ c : Ctrl, s.transact (.write 0x00C 4 v) = .next { s with ctrl := c, replies := s.replies ++ [.write .okay] } ∧
      c.irqEn = v.getLsbD 0 ∧ c.toWord = v &&& 0x00000001) ∧
  State.reset.ctrl.toWord = 0x00000000

/-- A write of IN[k] with BUSY = 0 stores the word and sets the entry's mark, and changes no other entry; with BUSY = 1 it
is refused with code 6 and the entry keeps its value. A write of OUT is ignored (10_state.md R33, R34, R44; 20_memory.md
R77). -/
def Obligations.BufferWrites : Prop :=
  ∀ (s : State) (k : Fin 64) (v : Word),
    (∃ t : State,
      s.transact (.write (0x100 + 4 * k.val) 4 v) = (if s.status.busy = true then rejectedWith s 6 else .next t) ∧
      t = { s with inBuf := t.inBuf, inWritten := t.inWritten, replies := s.replies ++ [.write .okay] } ∧
      ∀ j : Fin 64, t.inBuf[j] = (if j = k then v else s.inBuf[j]) ∧
        t.inWritten[j] = (if j = k then true else s.inWritten[j])) ∧
    s.transact (.write (0x200 + 4 * k.val) 4 v) = writeIgnored s

/-- Submission: the checks in their order, each with its code and no other effect; the model fault UNWRITTEN_IN after
check 4; and acceptance, which stores the word, the operation and the policy, sets BUSY, clears DONE and leaves the rest
(30_encoding.md R105; 60_exceptions.md R301, R303). -/
def Obligations.SubmissionOrder : Prop :=
  ∀ (s : State) (w : Word),
    s.transact (.write 0x004 4 w) =
      (if s.status.busy = true then rejectedWith s 1
       else if w.extractLsb' 5 3 ≠ 0 ∨ w.extractLsb' 10 22 ≠ 0 then rejectedWith s 2
       else if w.extractLsb' 0 5 = 0x00 ∨ 0x0E ≤ (w.extractLsb' 0 5).toNat then rejectedWith s 3
       else if w.extractLsb' 8 2 = 3 then rejectedWith s 4
       else if ∃ k : Fin 64, s.inWritten[k] = false then .fault .unwrittenIn
       else if (w.extractLsb' 0 5 = 0x03 ∨ w.extractLsb' 0 5 = 0x0A) ∧
           ∃ k : Fin 64, s.inBuf[k].extractLsb' 8 24 ≠ 0 then rejectedWith s 5
       else .next { s with
         cmd := w
         pend := (decodeCommand w).toOption
         status := { s.status with busy := true, done := false }
         replies := s.replies ++ [.write .okay] }) ∧
    ∀ i, decodeCommand w = .ok i → i.opcode = w.extractLsb' 0 5 ∧ i.rmode.code = w.extractLsb' 8 2

/-- Recording an error changes ERR, MULTI and ERRCODE only: the first error since ERR was cleared sets ERR and ERRCODE, a
later one sets MULTI and keeps the code. The codes are 1 to 6 (60_exceptions.md R302, R304). -/
def Obligations.ErrorRecording : Prop :=
  (∀ (s : State) (e : CmdError), ∃ f : Status, s.recordError e = { s with status := f } ∧
    f.busy = s.status.busy ∧ f.done = s.status.done ∧ f.err = true ∧
    (s.status.err = false → f.multi = s.status.multi ∧ f.errCode = e.code) ∧
    (s.status.err = true → f.multi = true ∧ f.errCode = s.status.errCode)) ∧
  CmdError.cmdWhileBusy.code = 1 ∧ CmdError.reservedBits.code = 2 ∧ CmdError.illegalOp.code = 3 ∧
  CmdError.illegalRmode.code = 4 ∧ CmdError.sampleRange.code = 5 ∧ CmdError.inWriteWhileBusy.code = 6

/-- ERR, ERRCODE and MULTI stay until a host write of STATUS with bit 2 set, or a reset: no accepted command and no engine
step clears them (60_exceptions.md R304). -/
def Obligations.ErrorSticky : Prop :=
  ∀ s t : State, s.status.err = true → step s = .next t →
    (∀ rest, s.inputs ≠ .reset :: rest) →
    (∀ v rest, s.inputs = .host (.write 0x008 4 v) :: rest → v.getLsbD 2 = false) →
      t.status.err = true ∧ t.status.errCode = s.status.errCode ∧ (s.status.multi = true → t.status.multi = true)

/-- Writes other than submissions, and other than refused writes of IN, are idempotent: done a second time they change
nothing more (20_memory.md R77). -/
def Obligations.IdempotentWrites : Prop :=
  ∀ (s t : State) (off : Nat) (v : Word), off ≠ 0x004 → (s.status.busy = true → ∀ k, regAt off ≠ .inEntry k) →
    s.writeEffect off v = .next t → t.writeEffect off v = .next t

/-- The window is little-endian: byte b of the word at offset 4k is its bits 8b+7..8b, and the four bytes put together are
the word. An OUT entry that holds 1.0 shows the bytes 00 00 80 3F (20_memory.md R73). -/
def Obligations.WindowBytes : Prop :=
  (∀ (s : State) (k : Nat),
    (∀ b : Fin 4, s.peekByte (4 * k + b.val) = (s.peek (4 * k)).extractLsb' (8 * b.val) 8) ∧
    wordOfBytes (s.peekByte (4 * k)) (s.peekByte (4 * k + 1)) (s.peekByte (4 * k + 2)) (s.peekByte (4 * k + 3)) =
      s.peek (4 * k)) ∧
  (∀ (s : State) (k : Fin 64), s.outBuf[k] = 0x3F800000 →
    s.peekByte (0x200 + 4 * k.val) = 0x00 ∧ s.peekByte (0x201 + 4 * k.val) = 0x00 ∧
      s.peekByte (0x202 + 4 * k.val) = 0x80 ∧ s.peekByte (0x203 + 4 * k.val) = 0x3F)

/-- irq is the level IRQ_EN AND (DONE OR ERR), a function of the two register values (10_state.md R43). -/
def Obligations.IrqLine : Prop :=
  ∀ s : State, s.irq = (s.ctrl.toWord.getLsbD 0 && (s.status.toWord.getLsbD 1 || s.status.toWord.getLsbD 2))

/-! ## Reset and the invariant -/

/-- Reset, at start and as an event from every state: CMD, STATUS and CTRL 0, so irq 0, no command in flight, every
written-mark and the valid-mark clear; ID still reads its constant. A command in flight is abandoned: with no host event
left the core then stays as it is (10_state.md R45; 70_reset_and_hazards.md R340, R342, R343). -/
def Obligations.ResetState : Prop :=
  ∀ (s t : State), (t = State.reset ∨ (∃ rest, s.inputs = .reset :: rest ∧ step s = .next t)) →
    t.cmd = 0 ∧ t.status.toWord = 0 ∧ t.ctrl.toWord = 0 ∧ t.irq = false ∧ t.pend = none ∧
    (∀ k : Fin 64, t.inWritten[k] = false) ∧ t.outValid = false ∧ t.peek 0x000 = 0x44435438 ∧
    (t.inputs = [] → step t = .next t)

/-- The reset state meets the invariant. -/
def Obligations.ResetInvariant : Prop := Inv State.reset

/-- Every step keeps the invariant, from every state that meets it: PEND held exactly while BUSY = 1 and equal to the
fields of CMD, DONE and BUSY exclusive, the error fields consistent, CMD 0 or legal, the samples of a forward command in
flight legal (10_state.md R35, R37, R40; 60_exceptions.md R300 to R304). -/
def Obligations.StepKeepsInvariant : Prop := ∀ s t : State, Inv s → step s = .next t → Inv t

/-- A step faults exactly on a command write that passes checks 1 to 4 with an unwritten IN entry, and on a read of OUT
with BUSY = 0 before any completion; it never refuses, and no operation faults or is refused (60_exceptions.md R306,
R318). -/
def Obligations.FaultsExactly : Prop :=
  (∀ (s : State) (f : Fault), Inv s → (step s = .fault f ↔
    (f = .unwrittenIn ∧ s.status.busy = false ∧ (∃ k : Fin 64, s.inWritten[k] = false) ∧
      ∃ w rest i, s.inputs = .host (.write 0x004 4 w) :: rest ∧ decodeCommand w = .ok i) ∨
    (f = .unwrittenOut ∧ s.status.busy = false ∧ s.outValid = false ∧
      ∃ (k : Fin 64) (rest : List Event), s.inputs = .host (.read (0x200 + 4 * k.val) 4) :: rest))) ∧
  (∀ (s : State) (r : Refusal), step s ≠ .refused r) ∧
  (∀ (i : Instr) (s : State), ∃ t, exec i s = .next t)

/-- No single event sets both DONE and ERR: the step that sets DONE leaves the error fields, and the step that sets ERR
leaves DONE and BUSY (60_exceptions.md R310). -/
def Obligations.OneFlagPerEvent : Prop :=
  ∀ s t : State, step s = .next t →
    (s.status.done = false → t.status.done = true →
      s.status.busy = true ∧ t.status.busy = false ∧ t.status.err = s.status.err ∧
        t.status.multi = s.status.multi ∧ t.status.errCode = s.status.errCode) ∧
    (s.status.err = false → t.status.err = true →
      t.status.done = s.status.done ∧ t.status.busy = s.status.busy ∧ t.outBuf = s.outBuf ∧ t.inBuf = s.inBuf ∧
        t.cmd = s.cmd ∧ t.pend = s.pend)

/-- What a command uses is fixed while it is in flight: IN, its marks, CMD and PEND do not change in a step from BUSY = 1
to BUSY = 1, whatever the host sends (70_reset_and_hazards.md R349; 20_memory.md R79, R87). -/
def Obligations.BusyHoldsInputs : Prop :=
  ∀ s t : State, s.status.busy = true → step s = .next t → t.status.busy = true →
    t.inBuf = s.inBuf ∧ t.inWritten = s.inWritten ∧ t.cmd = s.cmd ∧ t.pend = s.pend ∧ t.outBuf = s.outBuf

/-- OUT changes in a completion or a reset only: a step that takes neither keeps every entry of OUT and its mark
(10_state.md R34; 70_reset_and_hazards.md R347). -/
def Obligations.OutHeldBetweenCompletions : Prop :=
  ∀ s t : State, step s = .next t → (∀ rest, s.inputs ≠ .reset :: rest) →
    (s.status.busy = true → t.status.busy = true) → t.outBuf = s.outBuf ∧ t.outValid = s.outValid

/-- BUSY rises by an accepted CMD write and by nothing else, and then DONE = 0, CMD is the written word and PEND is what it
decodes to. So a rejected command never sets BUSY, and DONE = 1 after it belongs to that command (60_exceptions.md R301,
R304; 70_reset_and_hazards.md R348, R350). -/
def Obligations.BusyRisesByAcceptance : Prop :=
  ∀ s t : State, step s = .next t → s.status.busy = false → t.status.busy = true →
    ∃ i rest, s.inputs = .host (.write 0x004 4 (encodeCommand i)) :: rest ∧ t.status.done = false ∧
      t.cmd = encodeCommand i ∧ t.pend = some i ∧ t.inBuf = s.inBuf ∧ t.outBuf = s.outBuf ∧
      (∀ k : Fin 64, s.inWritten[k] = true)

/-- Every command completes: from any state with a command in flight, whatever the host sends short of a reset, the core
reaches BUSY = 0 with DONE = 1 within one step more than the events before it, and OUT is what the operation gives on the
IN of now (70_reset_and_hazards.md R351; 60_exceptions.md R300, R306; 20_memory.md R87). -/
def Obligations.CommandCompletes : Prop :=
  ∀ (s : State) (i : Instr), Inv s → s.pend = some i → (∀ e ∈ s.inputs, e ≠ .reset) →
    ∃ k : Nat, k ≤ s.inputs.length + 1 ∧ ∃ t u : State,
      Sys2Proof.core.run k s = .next t ∧ t.status.busy = false ∧ t.status.done = true ∧ t.pend = none ∧
      exec i s = .next u ∧ t.outBuf = u.outBuf ∧ t.outValid = true ∧ t.inBuf = s.inBuf ∧ t.cmd = s.cmd

/-! ## Rounding and the floating-point operations -/

/-- RoundInt_m: never further than 1/2 from the value, and at a tie f + 1/2 away from zero, up, or to even. HALF_UP with
the shift and the clamp is the policy 'add 128.5, then truncate' in exact arithmetic (40_numeric_common.md R137). -/
def Obligations.RoundIntPolicy : Prop :=
  (∀ (m : RMode) (q : Rat), |(roundInt m q : Rat) - q| ≤ 1 / 2) ∧
  (∀ f : Int,
    roundInt .halfAway ((f : Rat) + 1 / 2) = (if 0 ≤ f then f + 1 else f) ∧
    roundInt .halfUp ((f : Rat) + 1 / 2) = f + 1 ∧
    roundInt .halfEven ((f : Rat) + 1 / 2) = (if f % 2 = 0 then f else f + 1)) ∧
  (∀ v : Rat, clamp 0 255 (roundInt .halfUp v + 128) =
    clamp 0 255 (if 0 ≤ v + 257 / 2 then (v + 257 / 2).floor else (v + 257 / 2).ceil))

/-- Finalize: round, then add 128, then saturate to 0..255; a finite float by its exact value, NaN to 0, +∞ to 255 and -∞
to 0, in both formats (40_numeric_common.md R138). -/
def Obligations.FinalizeSaturates : Prop :=
  (∀ (m : RMode) (q : Rat), finalize m q = max 0 (min 255 (roundInt m q + 128))) ∧
  (∀ (P : Precision) (m : RMode),
    (∀ x : Flt P, x.isFinite = true → finalizeFlt m x = max 0 (min 255 (roundInt m x.val + 128))) ∧
    finalizeFlt m (.nan : Flt P) = 0 ∧ finalizeFlt m (.inf false : Flt P) = 255 ∧
    finalizeFlt m (.inf true : Flt P) = 0)

/-- Addition, subtraction and multiplication of finite data give the exact result as IEEE 754 delivers it, in both
formats: rounded to nearest, ties to even, with gradual underflow, and an infinity past the format. Negation is exact. An
exact zero sum is +0, but (-0) + (-0) = -0; the sign of a product is the product of the signs (40_numeric_common.md
R132). -/
def Obligations.FloatOperationsRounded : Prop :=
  ∀ (P : Precision) (a b : Flt P), a.Canonical = true → b.Canonical = true → a.isFinite = true → b.isFinite = true →
    Delivers P (a.val + b.val) (a.add b) ∧ Delivers P (a.val - b.val) (a.sub b) ∧
    Delivers P (a.val * b.val) (a.mul b) ∧ a.negate.val = -a.val ∧ a.negate.Canonical = true ∧
    (a.val + b.val = 0 → a.add b = .fin (a.signBit && b.signBit) 0 0) ∧
    (a.mul b).signBit = (a.signBit != b.signBit)

/-- The interchange encodings: every datum but NaN is read back from its bits, and every bit pattern but a NaN's is
written back from its datum, in both formats. F32 output words are these bits (40_numeric_common.md R131; 30_encoding.md
R111). -/
def Obligations.FloatEncoding : Prop :=
  ∀ P : Precision,
    (∀ x : Flt P, x.Canonical = true → x ≠ .nan →
      x.toBits < 2 ^ (P.sigBits + P.expBits) ∧ Flt.ofBits P x.toBits = x) ∧
    (∀ b : Nat, b < 2 ^ (P.sigBits + P.expBits) →
      (Flt.ofBits P b).Canonical = true ∧ (Flt.ofBits P b ≠ .nan → (Flt.ofBits P b).toBits = b))

/-- Input conversion: exact in binary64 for every coefficient, exact in binary32 up to 2^24 and rounded to nearest even
beyond, exact for every shifted sample (40_numeric_common.md R136). -/
def Obligations.InputConversion : Prop :=
  ∀ w : Word,
    (Flt.ofInt .binary64 (coeff w)).val = coeff w ∧
    (|coeff w| ≤ 2 ^ 24 → (Flt.ofInt .binary32 (coeff w)).val = coeff w) ∧
    IsRounded .binary32 (coeff w : ℝ) (Flt.ofInt .binary32 (coeff w)) ∧
    (-128 ≤ sample w - 128 ∧ sample w - 128 ≤ 127) ∧
    (Flt.ofInt .binary32 (sample w - 128)).val = sample w - 128

/-- No NaN and no infinity is ever computed, for any IN contents: every value of every default evaluation is finite
(40_numeric_common.md R148). -/
def Obligations.NoExceptionalValues : Prop :=
  ∀ (inBuf : Block Word) (k : Fin 64),
    let F := coeffBlock inBuf
    let d := sampleBlock inBuf
    (∀ P : Precision, (evalIdctRef P F)[k].isFinite = true ∧ (evalIdctAan P F)[k].isFinite = true) ∧
    (evalSep plainF32 F)[k].isFinite = true ∧ (evalSep sym2F32 F)[k].isFinite = true ∧
    (evalSep sym4F32 F)[k].isFinite = true ∧ (evalSep sym8F32 F)[k].isFinite = true ∧
    (evalIdctLlm F)[k].isFinite = true ∧ (evalIdctAp922 F)[k].isFinite = true ∧
    (evalFdctRef d)[k].isFinite = true ∧ (evalFdctLlm d)[k].isFinite = true

/-! ## Constants -/

/-- The Basis Matrix in both formats is the correctly rounded cos((2n+1)kπ/16), with the stated bits for its seven
magnitudes, and B[k][7-n] = (-1)^k B[k][n] exactly; the normalisation constants are the correctly rounded C(k)
(40_numeric_common.md R134, R135). -/
def Obligations.BasisConstants : Prop :=
  ∀ (P : Precision) (k n : Fin 8),
    IsRounded P (basisReal k n) (Machine.basis P)[k][n] ∧ IsRounded P (normReal k) (Machine.norm P)[k] ∧
    (Machine.basis P)[k][n.rev] =
      (if k.val % 2 = 0 then (Machine.basis P)[k][n] else (Machine.basis P)[k][n].negate) ∧
    (Machine.norm .binary32)[0].toBits = 0x3F3504F3 ∧ (Machine.norm .binary64)[0].toBits = 0x3FE6A09E667F3BCD ∧
    ((Machine.basis .binary32).toList.map fun row => row[0].toBits) =
      [0x3F800000, 0x3F7B14BE, 0x3F6C835E, 0x3F54DB31, 0x3F3504F3, 0x3F0E39DA, 0x3EC3EF15, 0x3E47C5C2] ∧
    ((Machine.basis .binary64).toList.map fun row => row[0].toBits) =
      [0x3FF0000000000000, 0x3FEF6297CFF75CB0, 0x3FED906BCF328D46, 0x3FEA9B66290EA1A3, 0x3FE6A09E667F3BCD,
       0x3FE1C73B39AE68C8, 0x3FD87DE2A6AEA963, 0x3FC8F8B83C69A60B]

/-- The seven LLM constants in binary32 are the correctly rounded closed forms (43_llm.md R220; 46_fdct_fast.md R280). -/
def Obligations.LlmConstants : Prop :=
  IsRounded .binary32 llmReal.r2 llmConsts.r2 ∧ IsRounded .binary32 llmReal.r2c2 llmConsts.r2c2 ∧
  IsRounded .binary32 llmReal.r2c6 llmConsts.r2c6 ∧ IsRounded .binary32 llmReal.c1 llmConsts.c1 ∧
  IsRounded .binary32 llmReal.s1 llmConsts.s1 ∧ IsRounded .binary32 llmReal.c3 llmConsts.c3 ∧
  IsRounded .binary32 llmReal.s3 llmConsts.s3

/-- The AAN constants and the 64 pre-scale entries, in both formats, are the correctly rounded closed forms (44_aan.md
R240, R241). -/
def Obligations.AanConstants : Prop :=
  ∀ P : Precision,
    IsRounded P aanReal.r2 (aanConsts P).r2 ∧ IsRounded P aanReal.a (aanConsts P).a ∧
    IsRounded P aanReal.b (aanConsts P).b ∧ IsRounded P aanReal.aMinusB (aanConsts P).aMinusB ∧
    IsRounded P aanReal.aPlusB (aanConsts P).aPlusB ∧
    ∀ u v : Fin 8, IsRounded P (prescaleReal u v) (prescale P)[u][v]

/-- The AP-922 constants and the 128 entries of the W tables, in binary32, are the correctly rounded closed forms
(45_ap922.md R260 to R262). -/
def Obligations.Ap922Constants : Prop :=
  IsRounded .binary32 ap922Real.t1 ap922Consts.t1 ∧ IsRounded .binary32 ap922Real.t2 ap922Consts.t2 ∧
  IsRounded .binary32 ap922Real.t3 ap922Consts.t3 ∧ IsRounded .binary32 ap922Real.g4 ap922Consts.g4 ∧
  ∀ (idx n : Fin 4) (k : Fin 8), IsRounded .binary32 (wReal idx n k) wTables[idx][n][k]

/-- For every scale of 2 or more, K[k][n] is the integer nearest to S·C(k)·cos((2n+1)kπ/16), and no product ties; it has
the symmetry of the basis (42_separable.md R198; the square-root method is the model's, log 22). -/
def Obligations.FixedPointTable : Prop :=
  ∀ S : Nat, 2 ≤ S → ∀ k n : Fin 8,
    |((fixTable S)[k][n] : ℝ) - fixReal S k n| < 1 / 2 ∧
    (fixTable S)[k][n.rev] = (if k.val % 2 = 0 then (fixTable S)[k][n] else -(fixTable S)[k][n])

/-- The intermediates of IDCT_SEP_FIX stay within the stated bounds for every scale of 2 or more and every IN, and at 4096
each fits a signed 50-bit integer (42_separable.md R203). -/
def Obligations.FixedPointBounds : Prop :=
  (∀ (S : Nat) (m : RMode) (inBuf : Block Word) (i j : Fin 8), 2 ≤ S →
    |∑ v : Fin 8, (fixTable S)[v][j] * (inBuf.at i v).toInt| ≤ 8 * S * 2 ^ 31 ∧
    |fixRowValue S m inBuf i j| ≤ 2 ^ 34 + 1 ∧ |fixColumnSum S m inBuf i j| ≤ 8 * S * (2 ^ 34 + 1)) ∧
  (∀ (m : RMode) (inBuf : Block Word) (i j : Fin 8),
    |∑ v : Fin 8, (fixTable 4096)[v][j] * (inBuf.at i v).toInt| < 2 ^ 49 ∧
    |fixRowValue 4096 m inBuf i j| < 2 ^ 49 ∧ |fixColumnSum 4096 m inBuf i j| < 2 ^ 49)

/-! ## The networks in exact arithmetic -/

/-- In exact arithmetic the LLM networks are the 1D transforms scaled by √2 (43_llm.md R221; 46_fdct_fast.md R281). -/
def Obligations.LlmNetworksExact : Prop :=
  (∀ (Y : Vec8 ℝ) (n : Fin 8), (llm1d llmReal Y)[n] = √2 * idct1d Y n) ∧
  (∀ (x : Vec8 ℝ) (k : Fin 8), (llmF1d llmReal x)[k] = √2 * normReal k * ∑ n : Fin 8, x[n] * basisReal k n)

/-- In exact arithmetic the AAN network, on inputs pre-scaled by aan[k], is the 1D inverse transform scaled by √2
(44_aan.md R242). -/
def Obligations.AanNetworkExact : Prop :=
  ∀ (Y : Vec8 ℝ) (n : Fin 8),
    (aan1d aanReal (Vector.ofFn fun k => aanScale k * Y[k]))[n] = √2 * idct1d Y n

/-- In exact arithmetic the AP-922 row kernel of row r is the 1D inverse transform scaled by the row's scale, and the
column kernel undoes these scales (45_ap922.md R261, R263, R264). -/
def Obligations.Ap922KernelsExact : Prop :=
  (∀ (r : Fin 8) (X : Vec8 ℝ) (n : Fin 8),
    (ap922Row wRealVec[row2idx[r]] X)[n] = rowScale row2idx[r] * idct1d X n) ∧
  (∀ (Z : Vec8 ℝ) (n : Fin 8),
    (ap922Col ap922Real (Vector.ofFn fun r => rowScale row2idx[r] * Z[r]))[n] = idct1d Z n)

/-- In exact arithmetic the four separable kernels are the 1D inverse transform (42_separable.md R190, R192 to R195). -/
def Obligations.SeparableKernelsExact : Prop :=
  ∀ (X : Vec8 ℝ) (n : Fin 8),
    (plain normRealVec basisRealVec X)[n] = idct1d X n ∧ (sym2 normRealVec basisRealVec X)[n] = idct1d X n ∧
    (sym4 normRealVec basisRealVec X)[n] = idct1d X n ∧ (sym8 normRealVec basisRealVec X)[n] = idct1d X n

/-- In exact arithmetic every operation is the exact transform: the wiring that the machine runs in IEEE arithmetic, read
over the reals with the closed-form constants, gives IDCT_exact or FDCT_exact at every position of every block
(40_numeric_common.md R141, R142; 41_reference.md R171, R174; 42_separable.md R190; 43_llm.md R221; 44_aan.md R242;
45_ap922.md R263, R264; 46_fdct_fast.md R283). -/
def Obligations.TransformsExact : Prop :=
  ∀ (F : Block ℝ) (i j : Fin 8),
    (refIdct normRealVec basisRealVec (1 / 4) F).at i j = idctExact F i j ∧
    (refFdct normRealVec basisRealVec (1 / 4) F).at i j = fdctExact F i j ∧
    (sep2d (plain normRealVec basisRealVec) (1 / 4) F).at i j = idctExact F i j ∧
    (sep2d (sym2 normRealVec basisRealVec) (1 / 4) F).at i j = idctExact F i j ∧
    (sep2d (sym4 normRealVec basisRealVec) (1 / 4) F).at i j = idctExact F i j ∧
    (sep2d (sym8 normRealVec basisRealVec) (1 / 4) F).at i j = idctExact F i j ∧
    (llm2d llmReal (1 / 8) F).at i j = idctExact F i j ∧
    (llmF2d llmReal (1 / 8) F).at i j = fdctExact F i j ∧
    (aan2d aanReal prescaleRealVec F).at i j = idctExact F i j ∧
    (ap922Twice wRealVec ap922Real (1 / 4) F).at i j = idctExact F i j

/-- The exact transforms are inverses of each other on shifted samples (40_numeric_common.md R142). -/
def Obligations.ExactTransformsInverse : Prop :=
  ∀ (d : Block ℝ) (x y : Fin 8), idctExact (Block.build (fdctExact d)) x y = d.at x y

/-! ## Equivalence and tolerance -/

/-- SYM8 is bit-identical to PLAIN for every input, so IDCT_SEP_SYM8 completes with the state of IDCT_SEP under every
RMODE (42_separable.md R195). -/
def Obligations.Sym8IsPlain : Prop :=
  (∀ X : Vec8 (Flt .binary32), sym8F32 X = plainF32 X) ∧
  (∀ (m : RMode) (s : State), exec (.idctSepSym8 m) s = exec (.idctSep m) s)

/-- DC only: a block with F[0] = 8c and zeros makes every inverse operation write Clamp(0, 255, c + 128) at every position,
under every RMODE, for c in -300..300 (40_numeric_common.md R147). -/
def Obligations.DcOnlyLaw : Prop :=
  ∀ (i : Instr) (c : Int), i.isForward = false → -300 ≤ c → c ≤ 300 →
    ∃ out, outputOf i (dcBlock (8 * c)) = some out ∧
      ∀ k : Fin 64, (out[k].toNat : Int) = max 0 (min 255 (c + 128))

/-- Every inverse operation other than IDCT_SEP_FIX stays within 1 of IDCT_REF_F32 on the law's domain, under every RMODE
(40_numeric_common.md R145; there from a first-order estimate). -/
def Obligations.CrossAlgorithm : Prop :=
  ∀ i : Instr, i.isForward = false → i.opcode ≠ 0x08 → CrossAlgorithmLaw i
end

