-- ==== Sys2Proof/Laws/State.lean ====
section
/-! SUPPORT. Laws/State.lean: what each update of the state and of the flags leaves in each field, one lemma per field,
so that no later proof unfolds a record update. -/

namespace Sys2Proof.Machine

section updates

variable (s : State)

@[simp] theorem State.recordError_inBuf (e : CmdError) : (s.recordError e).inBuf = s.inBuf := rfl
@[simp] theorem State.recordError_outBuf (e : CmdError) : (s.recordError e).outBuf = s.outBuf := rfl
@[simp] theorem State.recordError_cmd (e : CmdError) : (s.recordError e).cmd = s.cmd := rfl
@[simp] theorem State.recordError_status (e : CmdError) : (s.recordError e).status = s.status.record e := rfl
@[simp] theorem State.recordError_ctrl (e : CmdError) : (s.recordError e).ctrl = s.ctrl := rfl
@[simp] theorem State.recordError_pend (e : CmdError) : (s.recordError e).pend = s.pend := rfl
@[simp] theorem State.recordError_inWritten (e : CmdError) : (s.recordError e).inWritten = s.inWritten := rfl
@[simp] theorem State.recordError_outValid (e : CmdError) : (s.recordError e).outValid = s.outValid := rfl
@[simp] theorem State.recordError_draws (e : CmdError) : (s.recordError e).draws = s.draws := rfl
@[simp] theorem State.recordError_inputs (e : CmdError) : (s.recordError e).inputs = s.inputs := rfl
@[simp] theorem State.recordError_replies (e : CmdError) : (s.recordError e).replies = s.replies := rfl

@[simp] theorem State.accept_inBuf (w : Word) (i : Instr) : (s.accept w i).inBuf = s.inBuf := rfl
@[simp] theorem State.accept_outBuf (w : Word) (i : Instr) : (s.accept w i).outBuf = s.outBuf := rfl
@[simp] theorem State.accept_cmd (w : Word) (i : Instr) : (s.accept w i).cmd = w := rfl
@[simp] theorem State.accept_status (w : Word) (i : Instr) : (s.accept w i).status = s.status.accepted := rfl
@[simp] theorem State.accept_ctrl (w : Word) (i : Instr) : (s.accept w i).ctrl = s.ctrl := rfl
@[simp] theorem State.accept_pend (w : Word) (i : Instr) : (s.accept w i).pend = some i := rfl
@[simp] theorem State.accept_inWritten (w : Word) (i : Instr) : (s.accept w i).inWritten = s.inWritten := rfl
@[simp] theorem State.accept_outValid (w : Word) (i : Instr) : (s.accept w i).outValid = s.outValid := rfl
@[simp] theorem State.accept_draws (w : Word) (i : Instr) : (s.accept w i).draws = s.draws := rfl
@[simp] theorem State.accept_inputs (w : Word) (i : Instr) : (s.accept w i).inputs = s.inputs := rfl
@[simp] theorem State.accept_replies (w : Word) (i : Instr) : (s.accept w i).replies = s.replies := rfl

@[simp] theorem State.complete_inBuf (out : Block Word) : (s.complete out).inBuf = s.inBuf := rfl
@[simp] theorem State.complete_outBuf (out : Block Word) : (s.complete out).outBuf = out := rfl
@[simp] theorem State.complete_cmd (out : Block Word) : (s.complete out).cmd = s.cmd := rfl
@[simp] theorem State.complete_status (out : Block Word) : (s.complete out).status = s.status.completed := rfl
@[simp] theorem State.complete_ctrl (out : Block Word) : (s.complete out).ctrl = s.ctrl := rfl
@[simp] theorem State.complete_pend (out : Block Word) : (s.complete out).pend = none := rfl
@[simp] theorem State.complete_inWritten (out : Block Word) : (s.complete out).inWritten = s.inWritten := rfl
@[simp] theorem State.complete_outValid (out : Block Word) : (s.complete out).outValid = true := rfl
@[simp] theorem State.complete_draws (out : Block Word) : (s.complete out).draws = s.draws := rfl
@[simp] theorem State.complete_inputs (out : Block Word) : (s.complete out).inputs = s.inputs := rfl
@[simp] theorem State.complete_replies (out : Block Word) : (s.complete out).replies = s.replies := rfl

@[simp] theorem State.writeIn_inBuf (i : Fin 64) (v : Word) : (s.writeIn i v).inBuf = s.inBuf.set i v := rfl
@[simp] theorem State.writeIn_outBuf (i : Fin 64) (v : Word) : (s.writeIn i v).outBuf = s.outBuf := rfl
@[simp] theorem State.writeIn_cmd (i : Fin 64) (v : Word) : (s.writeIn i v).cmd = s.cmd := rfl
@[simp] theorem State.writeIn_status (i : Fin 64) (v : Word) : (s.writeIn i v).status = s.status := rfl
@[simp] theorem State.writeIn_ctrl (i : Fin 64) (v : Word) : (s.writeIn i v).ctrl = s.ctrl := rfl
@[simp] theorem State.writeIn_pend (i : Fin 64) (v : Word) : (s.writeIn i v).pend = s.pend := rfl
@[simp] theorem State.writeIn_inWritten (i : Fin 64) (v : Word) : (s.writeIn i v).inWritten = s.inWritten.set i true := rfl
@[simp] theorem State.writeIn_outValid (i : Fin 64) (v : Word) : (s.writeIn i v).outValid = s.outValid := rfl
@[simp] theorem State.writeIn_draws (i : Fin 64) (v : Word) : (s.writeIn i v).draws = s.draws := rfl
@[simp] theorem State.writeIn_inputs (i : Fin 64) (v : Word) : (s.writeIn i v).inputs = s.inputs := rfl
@[simp] theorem State.writeIn_replies (i : Fin 64) (v : Word) : (s.writeIn i v).replies = s.replies := rfl

@[simp] theorem State.reply_inBuf (r : Reply) : (s.reply r).inBuf = s.inBuf := rfl
@[simp] theorem State.reply_outBuf (r : Reply) : (s.reply r).outBuf = s.outBuf := rfl
@[simp] theorem State.reply_cmd (r : Reply) : (s.reply r).cmd = s.cmd := rfl
@[simp] theorem State.reply_status (r : Reply) : (s.reply r).status = s.status := rfl
@[simp] theorem State.reply_ctrl (r : Reply) : (s.reply r).ctrl = s.ctrl := rfl
@[simp] theorem State.reply_pend (r : Reply) : (s.reply r).pend = s.pend := rfl
@[simp] theorem State.reply_inWritten (r : Reply) : (s.reply r).inWritten = s.inWritten := rfl
@[simp] theorem State.reply_outValid (r : Reply) : (s.reply r).outValid = s.outValid := rfl
@[simp] theorem State.reply_draws (r : Reply) : (s.reply r).draws = s.draws := rfl
@[simp] theorem State.reply_inputs (r : Reply) : (s.reply r).inputs = s.inputs := rfl
@[simp] theorem State.reply_replies (r : Reply) : (s.reply r).replies = s.replies ++ [r] := rfl

@[simp] theorem State.draw_snd_inBuf : s.draw.2.inBuf = s.inBuf := rfl
@[simp] theorem State.draw_snd_outBuf : s.draw.2.outBuf = s.outBuf := rfl
@[simp] theorem State.draw_snd_cmd : s.draw.2.cmd = s.cmd := rfl
@[simp] theorem State.draw_snd_status : s.draw.2.status = s.status := rfl
@[simp] theorem State.draw_snd_ctrl : s.draw.2.ctrl = s.ctrl := rfl
@[simp] theorem State.draw_snd_pend : s.draw.2.pend = s.pend := rfl
@[simp] theorem State.draw_snd_inWritten : s.draw.2.inWritten = s.inWritten := rfl
@[simp] theorem State.draw_snd_outValid : s.draw.2.outValid = s.outValid := rfl
@[simp] theorem State.draw_snd_draws : s.draw.2.draws = s.draws + 1 := rfl
@[simp] theorem State.draw_snd_inputs : s.draw.2.inputs = s.inputs := rfl
@[simp] theorem State.draw_snd_replies : s.draw.2.replies = s.replies := rfl
@[simp] theorem State.draw_fst : s.draw.1 = Config.freeWord s.draws := rfl

@[simp] theorem State.resetEvent_inBuf : s.resetEvent.inBuf = State.reset.inBuf := rfl
@[simp] theorem State.resetEvent_outBuf : s.resetEvent.outBuf = State.reset.outBuf := rfl
@[simp] theorem State.resetEvent_cmd : s.resetEvent.cmd = State.reset.cmd := rfl
@[simp] theorem State.resetEvent_status : s.resetEvent.status = State.reset.status := rfl
@[simp] theorem State.resetEvent_ctrl : s.resetEvent.ctrl = State.reset.ctrl := rfl
@[simp] theorem State.resetEvent_pend : s.resetEvent.pend = State.reset.pend := rfl
@[simp] theorem State.resetEvent_inWritten : s.resetEvent.inWritten = State.reset.inWritten := rfl
@[simp] theorem State.resetEvent_outValid : s.resetEvent.outValid = State.reset.outValid := rfl
@[simp] theorem State.resetEvent_draws : s.resetEvent.draws = s.draws := rfl
@[simp] theorem State.resetEvent_inputs : s.resetEvent.inputs = s.inputs := rfl
@[simp] theorem State.resetEvent_replies : s.resetEvent.replies = s.replies := rfl

end updates

section flags

variable (f : Status)

@[simp] theorem Status.accepted_busy : f.accepted.busy = true := rfl
@[simp] theorem Status.accepted_done : f.accepted.done = false := rfl
@[simp] theorem Status.accepted_err : f.accepted.err = f.err := rfl
@[simp] theorem Status.accepted_multi : f.accepted.multi = f.multi := rfl
@[simp] theorem Status.accepted_errCode : f.accepted.errCode = f.errCode := rfl
@[simp] theorem Status.completed_busy : f.completed.busy = false := rfl
@[simp] theorem Status.completed_done : f.completed.done = true := rfl
@[simp] theorem Status.completed_err : f.completed.err = f.err := rfl
@[simp] theorem Status.completed_multi : f.completed.multi = f.multi := rfl
@[simp] theorem Status.completed_errCode : f.completed.errCode = f.errCode := rfl
@[simp] theorem Status.record_busy (e : CmdError) : (f.record e).busy = f.busy := by
  unfold Status.record; split <;> rfl
@[simp] theorem Status.record_done (e : CmdError) : (f.record e).done = f.done := by
  unfold Status.record; split <;> rfl
@[simp] theorem Status.record_err (e : CmdError) : (f.record e).err = true := by
  unfold Status.record; split <;> simp [*]
@[simp] theorem Status.record_multi (e : CmdError) : (f.record e).multi = (f.err || f.multi) := by
  unfold Status.record; split <;> simp [*]
@[simp] theorem Status.record_errCode (e : CmdError) :
    (f.record e).errCode = if f.err then f.errCode else e.code := by
  unfold Status.record; split <;> rfl
@[simp] theorem Status.writeClear_busy (w : Word) : (f.writeClear w).busy = f.busy := rfl
@[simp] theorem Status.writeClear_done (w : Word) : (f.writeClear w).done = (f.done && !w.getLsbD 1) := rfl
@[simp] theorem Status.writeClear_err (w : Word) : (f.writeClear w).err = (f.err && !w.getLsbD 2) := rfl
@[simp] theorem Status.writeClear_multi (w : Word) : (f.writeClear w).multi = (f.multi && !w.getLsbD 2) := rfl
@[simp] theorem Status.writeClear_errCode (w : Word) :
    (f.writeClear w).errCode = if w.getLsbD 2 then 0 else f.errCode := rfl

end flags

end Sys2Proof.Machine
end

