-- ==== Sys2Proof/Laws/Ops.lean ====
section
/-! SUPPORT. Laws/Ops.lean: for each shared operation, one lemma that says everything it can do; proofs cite these
instead of unfolding the operation. -/

namespace Sys2Proof.Machine

/-! ## The address map -/

@[simp] theorem regAt_id : regAt 0x000 = .id := rfl
@[simp] theorem regAt_cmd : regAt 0x004 = .cmd := rfl
@[simp] theorem regAt_status : regAt 0x008 = .status := rfl
@[simp] theorem regAt_ctrl : regAt 0x00C = .ctrl := rfl

@[simp] theorem regAt_inOffset (i : Fin 64) : regAt (inOffset i) = .inEntry i := by
  have := i.isLt
  unfold regAt inOffset
  rw [if_neg (by omega), if_neg (by omega), if_neg (by omega), if_neg (by omega), if_pos (by omega)]
  exact congrArg Reg.inEntry (Fin.ext (show (0x100 + 4 * i.val - 0x100) / 4 % 64 = i.val by omega))

@[simp] theorem regAt_outOffset (i : Fin 64) : regAt (outOffset i) = .outEntry i := by
  have := i.isLt
  unfold regAt outOffset
  rw [if_neg (by omega), if_neg (by omega), if_neg (by omega), if_neg (by omega), if_neg (by omega),
    if_pos (by omega)]
  exact congrArg Reg.outEntry (Fin.ext (show (0x200 + 4 * i.val - 0x200) / 4 % 64 = i.val by omega))

@[simp] theorem accessLegal_inOffset (i : Fin 64) : accessLegal (inOffset i) 4 = true := by
  have := i.isLt
  have h1 : inOffset i % 4 = 0 := by unfold inOffset; omega
  have h2 : ¬ 0x3FC < inOffset i := by unfold inOffset; omega
  simp [accessLegal, h1, h2]

@[simp] theorem accessLegal_outOffset (i : Fin 64) : accessLegal (outOffset i) 4 = true := by
  have := i.isLt
  have h1 : outOffset i % 4 = 0 := by unfold outOffset; omega
  have h2 : ¬ 0x3FC < outOffset i := by unfold outOffset; omega
  simp [accessLegal, h1, h2]

/-! ## Blocks -/

@[simp] theorem rowOf_blockIndex (r c : Fin 8) : rowOf (blockIndex r c) = r := by
  have := c.isLt
  exact Fin.ext (show (8 * r.val + c.val) / 8 = r.val by omega)

@[simp] theorem colOf_blockIndex (r c : Fin 8) : colOf (blockIndex r c) = c := by
  have := c.isLt
  exact Fin.ext (show (8 * r.val + c.val) % 8 = c.val by omega)

@[simp] theorem blockIndex_rowOf_colOf (i : Fin 64) : blockIndex (rowOf i) (colOf i) = i :=
  Fin.ext (show 8 * (i.val / 8) + i.val % 8 = i.val by omega)

@[simp] theorem Block.at_build {α : Type} (f : Fin 8 → Fin 8 → α) (r c : Fin 8) : (Block.build f).at r c = f r c := by
  simp [Block.at, Block.build]

/-! ## The engine -/

/-- The engine step of every operation completes, and changes the state by `complete` alone. -/
theorem exec_completes (i : Instr) (s : State) : ∃ out, exec i s = .next (s.complete out) := by
  cases i <;> exact ⟨_, rfl⟩

theorem exec_cases {i : Instr} {s t : State} (h : exec i s = .next t) : ∃ out, t = s.complete out := by
  obtain ⟨out, ho⟩ := exec_completes i s
  rw [ho] at h
  injection h with h
  exact ⟨out, h.symm⟩

/-! ## Submission and the bus -/

/-- A submission that goes on either records one error or accepts the word, under the checks it has passed. -/
theorem submit_cases {s t : State} {w : Word} (h : s.submit w = .next t) :
    (∃ e, t = s.recordError e) ∨
    (∃ i, decodeCommand w = .ok i ∧ s.status.busy = false ∧ s.allWritten = true ∧
      (i.isForward = true → s.samplesLegal = true) ∧ t = s.accept w i) := by
  unfold State.submit at h
  split at h
  · injection h with h; exact .inl ⟨_, h.symm⟩
  · rename_i hb
    split at h
    · injection h with h; exact .inl ⟨_, h.symm⟩
    · rename_i i hi
      split at h
      · exact absurd h (by simp)
      · rename_i hw
        split at h
        · injection h with h; exact .inl ⟨_, h.symm⟩
        · rename_i hs
          injection h with h
          refine .inr ⟨i, hi, by simpa using hb, by simpa using hw, fun hf => ?_, h.symm⟩
          simpa [hf] using hs

/-- The one fault of a submission, and when it comes. -/
theorem submit_fault {s : State} {w : Word} {f : Fault} (h : s.submit w = .fault f) :
    f = .unwrittenIn ∧ s.status.busy = false ∧ s.allWritten = false ∧ ∃ i, decodeCommand w = .ok i := by
  unfold State.submit at h
  split at h
  · exact absurd h (by simp)
  · rename_i hb
    split at h
    · exact absurd h (by simp)
    · rename_i i hi
      split at h
      · rename_i hw
        injection h with h
        exact ⟨h.symm, by simpa using hb, by simpa using hw, i, hi⟩
      · split at h <;> exact absurd h (by simp)

theorem submit_not_refused (s : State) (w : Word) (r : Refusal) : s.submit w ≠ .refused r := by
  unfold State.submit
  split
  · simp
  · split
    · simp
    · split
      · simp
      · split <;> simp

/-- What a legal write can do: record one error, accept a command, write STATUS or CTRL, write an IN entry, or
nothing. -/
theorem writeEffect_cases {s t : State} {off : Nat} {v : Word} (h : s.writeEffect off v = .next t) :
    (∃ e, t = s.recordError e) ∨
    (∃ i, decodeCommand v = .ok i ∧ s.status.busy = false ∧ s.allWritten = true ∧
      (i.isForward = true → s.samplesLegal = true) ∧ t = s.accept v i) ∨
    (regAt off = .status ∧ t = { s with status := s.status.writeClear v }) ∨
    (regAt off = .ctrl ∧ t = { s with ctrl := { irqEn := v.getLsbD 0 } }) ∨
    (∃ i, regAt off = .inEntry i ∧ s.status.busy = false ∧ t = s.writeIn i v) ∨
    t = s := by
  unfold State.writeEffect at h
  split at h
  · rcases submit_cases h with h | h
    · exact .inl h
    · exact .inr (.inl h)
  · rename_i hr; injection h with h; exact .inr (.inr (.inl ⟨hr, h.symm⟩))
  · rename_i hr; injection h with h; exact .inr (.inr (.inr (.inl ⟨hr, h.symm⟩)))
  · rename_i i hr
    split at h
    · injection h with h; exact .inl ⟨_, h.symm⟩
    · rename_i hb
      injection h with h
      exact .inr (.inr (.inr (.inr (.inl ⟨i, hr, by simpa using hb, h.symm⟩))))
  all_goals (injection h with h; exact .inr (.inr (.inr (.inr (.inr h.symm)))))

theorem writeEffect_fault {s : State} {off : Nat} {v : Word} {f : Fault} (h : s.writeEffect off v = .fault f) :
    f = .unwrittenIn ∧ s.status.busy = false ∧ s.allWritten = false ∧ regAt off = .cmd ∧
      ∃ i, decodeCommand v = .ok i := by
  unfold State.writeEffect at h
  split at h
  · rename_i hr
    obtain ⟨h1, h2, h3, h4⟩ := submit_fault h
    exact ⟨h1, h2, h3, hr, h4⟩
  · exact absurd h (by simp)
  · exact absurd h (by simp)
  · split at h <;> exact absurd h (by simp)
  all_goals exact absurd h (by simp)

theorem writeEffect_not_refused (s : State) (off : Nat) (v : Word) (r : Refusal) :
    s.writeEffect off v ≠ .refused r := by
  unfold State.writeEffect
  split
  · exact submit_not_refused s v r
  · simp
  · simp
  · split <;> simp
  all_goals simp

/-- A read that goes on answers one value, stored or drawn, and changes nothing else. -/
theorem readEffect_cases {s t : State} {off : Nat} (h : s.readEffect off = .next t) :
    (∃ v, t = s.reply (.read .okay v)) ∨
    t = s.draw.2.reply (.read .okay (Config.freeWord s.draws)) := by
  unfold State.readEffect at h
  split at h
  all_goals try (injection h with h; exact .inl ⟨_, h.symm⟩)
  · split at h
    · injection h with h; exact .inl ⟨_, h.symm⟩
    · injection h with h; exact .inr h.symm
  · split at h
    · injection h with h; exact .inr h.symm
    · split at h
      · injection h with h; exact .inl ⟨_, h.symm⟩
      · exact absurd h (by simp)

theorem readEffect_fault {s : State} {off : Nat} {f : Fault} (h : s.readEffect off = .fault f) :
    f = .unwrittenOut ∧ s.status.busy = false ∧ s.outValid = false ∧ ∃ i, regAt off = .outEntry i := by
  unfold State.readEffect at h
  split at h
  case h_6 i hr =>
    split at h
    · exact absurd h (by simp [State.answer, State.answerFree])
    · rename_i hb
      split at h
      · exact absurd h (by simp [State.answer])
      · rename_i hv
        injection h with h
        exact ⟨h.symm, by simpa using hb, by simpa using hv, i, hr⟩
  case h_5 => split at h <;> exact absurd h (by simp [State.answer, State.answerFree])
  all_goals exact absurd h (by simp [State.answer])

theorem readEffect_not_refused (s : State) (off : Nat) (r : Refusal) : s.readEffect off ≠ .refused r := by
  unfold State.readEffect
  split
  all_goals try simp [State.answer]
  · split <;> simp [State.answer, State.answerFree]
  · split
    · simp [State.answer, State.answerFree]
    · split <;> simp

/-- A transaction that goes on is a read of one value or a write with its effect, and appends one reply. -/
theorem transact_cases {s t : State} {x : Transaction} (h : s.transact x = .next t) :
    (∃ off size, x = .read off size ∧ accessLegal off size = true ∧ s.readEffect off = .next t) ∨
    (∃ off size v s', x = .write off size v ∧ accessLegal off size = true ∧ s.writeEffect off v = .next s' ∧
      t = s'.reply (.write .okay)) ∨
    (∃ r, t = s.reply r) := by
  unfold State.transact at h
  split at h
  · split at h
    · rename_i off size hl; exact .inl ⟨off, size, rfl, hl, h⟩
    · injection h with h; exact .inr (.inr ⟨_, h.symm⟩)
  · split at h
    · rename_i off size v hl
      split at h
      · rename_i s' hs
        injection h with h
        exact .inr (.inl ⟨off, size, v, s', rfl, hl, hs, h.symm⟩)
      · exact absurd h (by simp)
      · exact absurd h (by simp)
    · injection h with h; exact .inr (.inr ⟨_, h.symm⟩)

theorem transact_fault {s : State} {x : Transaction} {f : Fault} (h : s.transact x = .fault f) :
    (f = .unwrittenOut ∧ s.status.busy = false ∧ s.outValid = false ∧
      ∃ off size i, x = .read off size ∧ regAt off = .outEntry i) ∨
    (f = .unwrittenIn ∧ s.status.busy = false ∧ s.allWritten = false ∧
      ∃ off size v i, x = .write off size v ∧ regAt off = .cmd ∧ decodeCommand v = .ok i) := by
  unfold State.transact at h
  split at h
  · split at h
    · rename_i off size hl
      obtain ⟨h1, h2, h3, i, h4⟩ := readEffect_fault h
      exact .inl ⟨h1, h2, h3, off, size, i, rfl, h4⟩
    · exact absurd h (by simp)
  · split at h
    · rename_i off size v hl
      split at h
      · exact absurd h (by simp)
      · rename_i g hg
        injection h with h
        subst h
        obtain ⟨h1, h2, h3, h4, i, h5⟩ := writeEffect_fault hg
        exact .inr ⟨h1, h2, h3, off, size, v, i, rfl, h4, h5⟩
      · exact absurd h (by simp)
    · exact absurd h (by simp)

theorem transact_not_refused (s : State) (x : Transaction) (r : Refusal) : s.transact x ≠ .refused r := by
  unfold State.transact
  split
  · split
    · exact readEffect_not_refused s _ r
    · simp
  · split
    · split
      · simp
      · simp
      · rename_i r' hr; exact absurd hr (writeEffect_not_refused s _ _ r')
    · simp

/-! ## The step -/

/-- The state in which the next event is taken. -/
theorem nextEvent_cases (s : State) :
    (s.inputs = [] ∧ s.status.busy = true ∧ s.nextEvent = (some .engine, s)) ∨
    (s.inputs = [] ∧ s.status.busy = false ∧ s.nextEvent = (none, s)) ∨
    (∃ e rest, s.inputs = e :: rest ∧ s.nextEvent = (some e, { s with inputs := rest })) := by
  unfold State.nextEvent
  split
  · rename_i h
    cases hb : s.status.busy <;> simp [h]
  · rename_i e rest h
    exact .inr (.inr ⟨e, rest, h, rfl⟩)

/-- Everything a step that goes on can do, in the state `u` that has the event no longer before it: nothing, one
transaction, the reset event, or the completion of the command in flight. -/
theorem step_cases {s t : State} (h : step s = .next t) :
    ∃ u : State, (∃ rest, u = { s with inputs := rest }) ∧
      (t = u ∨ (∃ x, u.transact x = .next t) ∨ t = u.resetEvent ∨
        (∃ i, s.status.busy = true ∧ s.pend = some i ∧ exec i u = .next t)) := by
  have engine : ∀ u : State, (∃ rest, u = { s with inputs := rest }) →
      (match u.engineTurn with
        | .idle => (.next u : Result)
        | .run i => exec i u
        | .stuck => .fault .engineStuck) = .next t →
      t = u ∨ (∃ i, s.status.busy = true ∧ s.pend = some i ∧ exec i u = .next t) := by
    rintro u ⟨rest, rfl⟩ h
    split at h
    · injection h with h; exact .inl h.symm
    · rename_i i hi
      unfold State.engineTurn at hi
      split at hi
      · rename_i hb
        split at hi
        · rename_i j hj
          injection hi with hi
          subst hi
          exact .inr ⟨j, hb, hj, h⟩
        · exact absurd hi (by simp)
      · exact absurd hi (by simp)
    · exact absurd h (by simp)
  unfold step at h
  rcases nextEvent_cases s with ⟨h1, _, h3⟩ | ⟨h1, _, h3⟩ | ⟨e, rest, _, h2⟩
  · rw [h3] at h
    have hu : ∃ rest, s = { s with inputs := rest } := ⟨s.inputs, rfl⟩
    refine ⟨s, hu, ?_⟩
    rcases engine s hu h with h | h
    · exact .inl h
    · exact .inr (.inr (.inr h))
  · rw [h3] at h
    injection h with h
    exact ⟨s, ⟨s.inputs, rfl⟩, .inl h.symm⟩
  · rw [h2] at h
    refine ⟨{ s with inputs := rest }, ⟨rest, rfl⟩, ?_⟩
    cases e with
    | host x => exact .inr (.inl ⟨x, h⟩)
    | engine =>
      rcases engine _ ⟨rest, rfl⟩ h with h | h
      · exact .inl h
      · exact .inr (.inr (.inr h))
    | reset => injection h with h; exact .inr (.inr (.inl h.symm))

end Sys2Proof.Machine
end

