-- ==== Sys2Proof/Laws/HostProgram.lean ====
section
/-! SUPPORT. Laws/HostProgram.lean: what an event and a turn of a host program's run can do, that WAIT ends with
BUSY = 0 and only then, what the observation of a run holds, and that a program's run is a run of the machine. -/

namespace Sys2Proof.Machine

variable {α β : Type}

/-! ## Sequencing -/

@[simp] theorem HostProgram.done_andThen (a : α) (q : α → HostProgram β) : (HostProgram.done a).andThen q = q a := rfl

@[simp] theorem HostProgram.andThen_done (p : HostProgram α) : p.andThen .done = p := by
  induction p with
  | done a => rfl
  | wr off v rest ih => simp [andThen, ih]
  | rd off rest ih => simp [andThen, ih]
  | poll off mask val rest ih => simp [andThen, ih]

theorem HostProgram.andThen_assoc {γ : Type} (p : HostProgram α) (q : α → HostProgram β) (r : β → HostProgram γ) :
    (p.andThen q).andThen r = p.andThen fun a => (q a).andThen r := by
  induction p with
  | done a => rfl
  | wr off v rest ih => simp [andThen, ih]
  | rd off rest ih => simp [andThen, ih]
  | poll off mask val rest ih => simp [andThen, ih]

/-- RUN by its transactions: the CMD write, then the POLL of STATUS. -/
theorem runCommand_eq (i : Instr) :
    runCommand i = .wr 0x004 (encodeCommand i) (.poll 0x008 0x00000001 0x00000000 (.done ())) := rfl

/-! ## One event -/

theorem happen_host (s : State) (x : Transaction) : s.happen (.host x) = ({ s with inputs := [] } : State).transact x :=
  rfl

theorem happen_reset (s : State) : s.happen .reset = .next ({ s with inputs := [] } : State).resetEvent := rfl

theorem happen_engine_idle {s : State} (hb : s.status.busy = false) :
    s.happen .engine = .next { s with inputs := [] } := by
  simp [State.happen, step, State.nextEvent, State.engineTurn, hb]

theorem happen_engine_run {s : State} {i : Instr} (hb : s.status.busy = true) (hp : s.pend = some i) :
    s.happen .engine = exec i { s with inputs := [] } := by
  simp [State.happen, step, State.nextEvent, State.engineTurn, hb, hp]

/-- A read of STATUS answers it and leaves the core as it was. -/
theorem happen_readStatus (s : State) :
    s.happen (.host (.read 0x008 4)) = .next (({ s with inputs := [] } : State).reply (.read .okay s.status.toWord)) :=
  rfl

theorem lastData_of_replies {s : State} {rs : List Reply} {r : Reply} (h : s.replies = rs ++ [r]) :
    s.lastData = r.data := by
  simp [State.lastData, h]

@[simp] theorem lastData_reply (s : State) (r : Reply) : (s.reply r).lastData = r.data := lastData_of_replies rfl

@[simp] theorem status_busy_bit (f : Status) : (f.toWord &&& 0x00000001 == 0x00000000) = !f.busy := by
  obtain ⟨b, d, e, m, c⟩ := f
  cases b <;> cases d <;> cases e <;> cases m <;> revert c <;> decide

/-- The test of WAIT on a STATUS word is BUSY = 0. -/
theorem pollEnds_status (f : Status) : pollEnds 0x00000001 0x00000000 f.toWord = !f.busy := status_busy_bit f

/-! ## WAIT -/

/-- The host's turn at a WAIT: one read of STATUS, which leaves the core as it was, and the program goes on exactly if
BUSY = 0. -/
theorem wait_turn (rest : HostProgram α) (s : State) (es : List Event) :
    HostRun.turn ⟨.poll 0x008 0x00000001 0x00000000 rest, s, es⟩ .host =
      .next {
        program := if s.status.busy then .poll 0x008 0x00000001 0x00000000 rest else rest
        core := ({ s with inputs := [] } : State).reply (.read .okay s.status.toWord)
        events := es ++ [.host (.read 0x008 4)] } := by
  simp only [HostRun.turn, HostProgram.transaction, HostRun.after, happen_readStatus, HostProgram.resume,
    lastData_reply, Reply.data, pollEnds_status]
  cases s.status.busy <;> rfl

/-- The engine's turn leaves BUSY = 0, if whatever is in flight is in PEND. -/
theorem engine_turn (p : HostProgram α) {s : State} (hp : s.status.busy = true → s.pend.isSome = true)
    (es : List Event) :
    ∃ t, HostRun.turn ⟨p, s, es⟩ .engine = .next ⟨p, t, es ++ [.engine]⟩ ∧ t.status.busy = false := by
  cases hb : s.status.busy with
  | false => exact ⟨{ s with inputs := [] }, by simp only [HostRun.turn, HostRun.after, happen_engine_idle hb], hb⟩
  | true =>
    obtain ⟨i, hi⟩ := Option.isSome_iff_exists.mp (hp hb)
    obtain ⟨out, ho⟩ := exec_completes i { s with inputs := [] }
    exact ⟨({ s with inputs := [] } : State).complete out,
      by simp only [HostRun.turn, HostRun.after, happen_engine_run hb hi, ho], rfl⟩

/-- With the host done and the engine idle, BUSY stays 0. -/
theorem done_stays_idle (sched : List Agent) (hr : Agent.reset ∉ sched) (s : State) (hb : s.status.busy = false)
    (a : α) (es : List Event) :
    ∃ r, HostRun.run ⟨.done a, s, es⟩ sched = .next r ∧ r.program = .done a ∧ r.core.status.busy = false := by
  induction sched generalizing s es with
  | nil => exact ⟨_, rfl, rfl, hb⟩
  | cons b rest ih =>
    have hrest : Agent.reset ∉ rest := fun h => hr (List.mem_cons_of_mem _ h)
    cases b with
    | host => exact ih hrest s hb es
    | engine =>
      obtain ⟨t, ht, htb⟩ := engine_turn (.done a) (s := s) (by simp [hb]) es
      simp only [HostRun.run, ht]
      exact ih hrest t htb _
    | reset => exact absurd List.mem_cons_self hr

/-- A WAIT with the engine idle ends at its first read, whatever turns come besides; BUSY stays 0. So WAIT returns at
once after a rejected command (30_encoding.md R119). -/
theorem wait_ends_idle (sched : List Agent) (hr : Agent.reset ∉ sched) (hh : Agent.host ∈ sched) (s : State)
    (hb : s.status.busy = false) (es : List Event) :
    ∃ r, HostRun.run ⟨wait, s, es⟩ sched = .next r ∧ r.program = .done () ∧ r.core.status.busy = false := by
  induction sched generalizing s es with
  | nil => cases hh
  | cons a rest ih =>
    have hrest : Agent.reset ∉ rest := fun h => hr (List.mem_cons_of_mem _ h)
    cases a with
    | host =>
      simp only [HostRun.run, wait, wait_turn, hb]
      exact done_stays_idle rest hrest (({ s with inputs := [] } : State).reply (.read .okay s.status.toWord)) hb () _
    | engine =>
      obtain ⟨t, ht, htb⟩ := engine_turn wait (s := s) (by simp [hb]) es
      simp only [HostRun.run, ht]
      exact ih hrest (by simpa using hh) t htb _
    | reset => exact absurd List.mem_cons_self hr

/-- WAIT ends, and with BUSY = 0, once the engine has had its turn and the host another: the fairness of
70_reset_and_hazards.md R351 is that a schedule holds these two turns. -/
theorem wait_ends (sched : List Agent) (hr : Agent.reset ∉ sched) (hf : [Agent.engine, Agent.host].Sublist sched)
    (s : State) (hp : s.status.busy = true → s.pend.isSome = true) (es : List Event) :
    ∃ r, HostRun.run ⟨wait, s, es⟩ sched = .next r ∧ r.program = .done () ∧ r.core.status.busy = false := by
  induction sched generalizing s es with
  | nil => cases hf
  | cons a rest ih =>
    have hrest : Agent.reset ∉ rest := fun h => hr (List.mem_cons_of_mem _ h)
    cases a with
    | host =>
      have hf' : [Agent.engine, Agent.host].Sublist rest := by cases hf with | cons _ h => exact h
      cases hb : s.status.busy with
      | false => exact wait_ends_idle _ hr (by simp) s hb es
      | true =>
        simp only [HostRun.run, wait, wait_turn, hb, if_true]
        exact ih hrest hf' (({ s with inputs := [] } : State).reply (.read .okay s.status.toWord)) (fun _ => hp hb) _
    | engine =>
      obtain ⟨t, ht, htb⟩ := engine_turn wait hp es
      have hh : Agent.host ∈ rest := by
        cases hf with
        | cons _ h => exact h.subset (by simp)
        | cons_cons _ h => exact h.subset (by simp)
      simp only [HostRun.run, ht]
      exact wait_ends_idle rest hrest hh t htb _
    | reset => exact absurd List.mem_cons_self hr

/-- A transaction keeps whatever is in flight in PEND. -/
theorem transact_keeps_pend {s t : State} {x : Transaction} (hp : s.status.busy = true → s.pend.isSome = true)
    (h : s.transact x = .next t) : t.status.busy = true → t.pend.isSome = true := by
  rcases transact_cases h with ⟨off, size, rfl, -, h⟩ | ⟨off, size, v, s', rfl, -, hs, rfl⟩ | ⟨r, rfl⟩
  · rcases readEffect_cases h with ⟨v, rfl⟩ | rfl <;> exact hp
  · rcases writeEffect_cases hs with ⟨e, rfl⟩ | ⟨i, -, -, -, -, rfl⟩ | ⟨-, rfl⟩ | ⟨-, rfl⟩ | ⟨i, -, -, rfl⟩ | rfl
    · simpa using hp
    · exact fun _ => rfl
    all_goals exact hp
  · exact hp

/-- RUN ends, and with the engine idle, whether its command is accepted or rejected (30_encoding.md R119;
70_reset_and_hazards.md R348, R351). -/
theorem runCommand_ends (i : Instr) (sched : List Agent) (hr : Agent.reset ∉ sched)
    (hf : [Agent.engine, Agent.host].Sublist sched) {s t : State} (hp : s.status.busy = true → s.pend.isSome = true)
    (h : s.happen (.host (.write 0x004 4 (encodeCommand i))) = .next t) (es : List Event) :
    ∃ r, HostRun.run ⟨runCommand i, s, es⟩ (.host :: sched) = .next r ∧ r.program = .done () ∧
      r.core.status.busy = false := by
  simp only [HostRun.run, HostRun.turn, runCommand_eq, HostProgram.transaction, HostRun.after, h, HostProgram.resume]
  exact wait_ends sched hr hf t (transact_keeps_pend (s := { s with inputs := [] }) (x := .write 0x004 4 (encodeCommand i)) hp h) _

/-! ## POLL -/

/-- Every event but a transaction leaves the replies as they were. -/
theorem happen_replies {s t : State} {e : Event} (he : e.transaction = none) (h : s.happen e = .next t) :
    t.replies = s.replies := by
  cases e with
  | host x => cases he
  | reset => injection h with h; subst h; rfl
  | engine =>
    cases hb : s.status.busy with
    | false => rw [happen_engine_idle hb] at h; injection h with h; subst h; rfl
    | true =>
      cases hp : s.pend with
      | none => simp [State.happen, step, State.nextEvent, State.engineTurn, hb, hp] at h
      | some i =>
        rw [happen_engine_run hb hp] at h
        obtain ⟨out, rfl⟩ := exec_cases h
        rfl

/-- Is a transaction a read? -/
def isRead : Transaction → Bool
  | .read _ _ => true
  | .write _ _ _ => false

/-- The effect of a write leaves the replies as they were. -/
theorem writeEffect_replies {s t : State} {off : Nat} {v : Word} (h : s.writeEffect off v = .next t) :
    t.replies = s.replies := by
  rcases writeEffect_cases h with ⟨e, rfl⟩ | ⟨i, -, -, -, -, rfl⟩ | ⟨-, rfl⟩ | ⟨-, rfl⟩ | ⟨i, -, -, rfl⟩ | rfl <;> rfl

/-- A transaction appends one reply, which returns a value exactly if it is a read. -/
theorem transact_replies {s t : State} {x : Transaction} (h : s.transact x = .next t) :
    ∃ y, t.replies = s.replies ++ [y] ∧ y.readValue.isSome = isRead x := by
  cases x with
  | read off size =>
    simp only [State.transact] at h
    split at h
    · rcases readEffect_cases h with ⟨v, rfl⟩ | rfl <;> exact ⟨_, rfl, rfl⟩
    · injection h with h; subst h; exact ⟨_, rfl, rfl⟩
  | write off size v =>
    simp only [State.transact] at h
    split at h
    · split at h
      · rename_i s' hs
        injection h with h
        subst h
        exact ⟨.write .okay, by simp [writeEffect_replies hs], rfl⟩
      · exact absurd h (by simp)
      · exact absurd h (by simp)
    · injection h with h; subst h; exact ⟨_, rfl, rfl⟩

/-- Everything a turn that goes on can do: nothing, if the host is done; the next transaction, whose reply the program
takes; or an event that is not the host's, which leaves the program and the replies. -/
theorem turn_cases {r r' : HostRun α} {a : Agent} (h : r.turn a = .next r') :
    (a = .host ∧ r.program.transaction = none ∧ r' = r) ∨
    (∃ x y t, a = .host ∧ r.program.transaction = some x ∧ r.core.happen (.host x) = .next t ∧
      t.replies = r.core.replies ++ [y] ∧ y.readValue.isSome = isRead x ∧
      r' = ⟨r.program.resume y.data, t, r.events ++ [.host x]⟩) ∨
    (∃ e t, a ≠ .host ∧ e.transaction = none ∧ r.core.happen e = .next t ∧ t.replies = r.core.replies ∧
      r' = ⟨r.program, t, r.events ++ [e]⟩) := by
  have other : ∀ e : Event, e.transaction = none → a ≠ .host → (r.after e fun _ => r.program) = .next r' →
      ∃ e t, a ≠ .host ∧ e.transaction = none ∧ r.core.happen e = .next t ∧ t.replies = r.core.replies ∧
        r' = ⟨r.program, t, r.events ++ [e]⟩ := by
    intro e he ha h
    unfold HostRun.after at h
    split at h
    · rename_i t ht
      injection h with h
      exact ⟨e, t, ha, he, ht, happen_replies he ht, h.symm⟩
    · exact absurd h (by simp)
    · exact absurd h (by simp)
  cases a with
  | host =>
    cases hx : r.program.transaction with
    | none => simp only [HostRun.turn, hx] at h; injection h with h; exact .inl ⟨rfl, rfl, h.symm⟩
    | some x =>
      simp only [HostRun.turn, hx, HostRun.after] at h
      split at h
      · rename_i t ht
        injection h with h
        obtain ⟨y, hy, hv⟩ := transact_replies (s := { r.core with inputs := [] }) ht
        exact .inr (.inl ⟨x, y, t, rfl, rfl, ht, hy, hv, by rw [← h, lastData_of_replies hy]⟩)
      · exact absurd h (by simp)
      · exact absurd h (by simp)
  | engine => exact .inr (.inr (other .engine rfl (by simp) h))
  | reset => exact .inr (.inr (other .reset rfl (by simp) h))

/-- A run that goes on from a schedule's first turn. -/
theorem run_cons {r r' : HostRun α} {a : Agent} {rest : List Agent} (h : r.run (a :: rest) = .next r') :
    ∃ u, r.turn a = .next u ∧ u.run rest = .next r' := by
  unfold HostRun.run at h
  split at h
  · rename_i u hu; exact ⟨u, hu, h⟩
  · exact absurd h (by simp)
  · exact absurd h (by simp)

/-- A host that is done stays done and gets no more replies. -/
theorem done_run (sched : List Agent) {a : α} {r r' : HostRun α} (hd : r.program = .done a)
    (h : r.run sched = .next r') : r'.program = .done a ∧ r'.core.replies = r.core.replies := by
  induction sched generalizing r with
  | nil => injection h with h; subst h; exact ⟨hd, rfl⟩
  | cons b rest ih =>
    obtain ⟨u, hu, hrun⟩ := run_cons h
    rcases turn_cases hu with ⟨-, -, rfl⟩ | ⟨x, y, t, -, hx, -⟩ | ⟨e, t, -, -, -, ht, rfl⟩
    · exact ih hd hrun
    · rw [hd] at hx; cases hx
    · obtain ⟨h1, h2⟩ := ih (r := ⟨r.program, t, r.events ++ [e]⟩) hd hrun; exact ⟨h1, h2.trans ht⟩

/-- POLL repeats its read until the test holds: while it has not ended every read failed the test, and its reads are a
finished trace exactly when it has (30_encoding.md R116, R117). -/
theorem poll_run (off : Nat) (mask val : Word) (sched : List Agent) {r r' : HostRun Unit}
    (hp : r.program = .poll off mask val (.done ())) (h : r.run sched = .next r') :
    ∃ ys : List Reply, r'.core.replies = r.core.replies ++ ys ∧
      ((r'.program = .poll off mask val (.done ()) ∧ ∀ y ∈ ys, pollEnds mask val y.data = false) ∨
       (r'.program = .done () ∧ pollTrace mask val (ys.map Reply.data) = true)) := by
  induction sched generalizing r with
  | nil => injection h with h; subst h; exact ⟨[], by simp, .inl ⟨hp, by simp⟩⟩
  | cons b rest ih =>
    obtain ⟨u, hu, h⟩ := run_cons h
    rcases turn_cases hu with ⟨-, hx, -⟩ | ⟨x, y, t, -, -, -, ht, -, rfl⟩ | ⟨e, t, -, -, -, ht, rfl⟩
    · rw [hp] at hx; cases hx
    · cases hy : pollEnds mask val y.data with
      | true =>
        have hd : r.program.resume y.data = .done () := by rw [hp]; simp [HostProgram.resume, hy]
        obtain ⟨h1, h2⟩ := done_run rest hd h
        exact ⟨[y], h2.trans ht, .inr ⟨h1, hy⟩⟩
      | false =>
        have hd : r.program.resume y.data = .poll off mask val (.done ()) := by
          rw [hp]; simp [HostProgram.resume, hy]
        obtain ⟨ys, h1, h2⟩ := ih hd h
        refine ⟨y :: ys, by rw [h1, ht]; simp, ?_⟩
        rcases h2 with ⟨h2, h3⟩ | ⟨h2, h3⟩
        · exact .inl ⟨h2, by simpa [hy] using h3⟩
        · refine .inr ⟨h2, ?_⟩
          cases ys with
          | nil => simp [pollTrace] at h3
          | cons z zs => simp only [List.map_cons, pollTrace, hy]; simpa using h3
    · obtain ⟨ys, h1, h2⟩ := ih (r := ⟨r.program, t, r.events ++ [e]⟩) hp h
      exact ⟨ys, by rw [h1, ht], h2⟩

/-! ## The observation of a run -/

@[simp] theorem readsAfter_of_replies {s : State} {xs ys : List Reply} (h : s.replies = xs ++ ys) :
    s.readsAfter xs.length = ys.filterMap Reply.readValue := by
  simp [State.readsAfter, h]

/-- What hosts got back before a launch is no part of the run. -/
theorem launch_forgets_replies (p : HostProgram α) (s : State) (xs : List Reply) :
    p.launch { s with replies := xs } = p.launch s := rfl

/-- Each transaction of a run gets one reply, in order, which returns a value exactly if it is a read. -/
theorem run_replies (sched : List Agent) {r r' : HostRun α} (h : r.run sched = .next r') :
    ∃ (es : List Event) (ys : List Reply), r'.events = r.events ++ es ∧ r'.core.replies = r.core.replies ++ ys ∧
      List.Forall₂ (fun x y => y.readValue.isSome = isRead x) (es.filterMap Event.transaction) ys := by
  induction sched generalizing r with
  | nil => injection h with h; subst h; exact ⟨[], [], by simp, by simp, .nil⟩
  | cons b rest ih =>
    obtain ⟨u, hu, hrun⟩ := run_cons h
    rcases turn_cases hu with ⟨-, -, rfl⟩ | ⟨x, y, t, -, -, -, ht, hv, rfl⟩ | ⟨e, t, -, he, -, ht, rfl⟩
    · exact ih hrun
    · obtain ⟨es, ys, h1, h2, h3⟩ := ih hrun
      exact ⟨.host x :: es, y :: ys, by simp [h1], by simp [h2, ht], .cons hv h3⟩
    · obtain ⟨es, ys, h1, h2, h3⟩ := ih hrun
      exact ⟨e :: es, ys, by simp [h1], by rw [h2, ht], by simpa [he] using h3⟩

/-- As many values are returned as transactions are reads. -/
theorem length_readValues {xs : List Transaction} {ys : List Reply}
    (h : List.Forall₂ (fun x y => y.readValue.isSome = isRead x) xs ys) :
    (ys.filterMap Reply.readValue).length = xs.countP isRead := by
  induction h with
  | nil => rfl
  | @cons x y xs ys hv _ ih => cases hy : y.readValue <;> simp_all

/-- The observation of a program's run: the final registers and buffers, and one value for each of its own reads
(70_reset_and_hazards.md R355). -/
theorem observeRun_spec {p : HostProgram α} {s : State} {sched : List Agent} {r : HostRun α}
    (h : (p.launch s).run sched = .next r) {o : Observation} (ho : observeRun p s r = some o) :
    r.program.value.isSome = true ∧ r.core.status.busy = false ∧
      o = ⟨r.core.inBuf, r.core.outBuf, r.core.cmd, r.core.status.toWord, r.core.ctrl.toWord,
        r.core.replies.filterMap Reply.readValue⟩ ∧
      o.reads.length = r.trace.countP isRead := by
  unfold observeRun at ho
  split at ho
  · rename_i hover
    injection ho with ho
    subst ho
    simp only [HostRun.over, Bool.and_eq_true, Bool.not_eq_true'] at hover
    obtain ⟨es, ys, h1, h2, h3⟩ := run_replies sched h
    refine ⟨hover.1, hover.2, rfl, ?_⟩
    rw [show r.trace = es.filterMap Event.transaction by rw [HostRun.trace, h1]; rfl, ← length_readValues h3]
    exact congrArg List.length (readsAfter_of_replies h2)
  · exact absurd ho (by simp)

/-! ## A program's run is a run of the machine -/

/-- The outcome with other events to come. -/
def withInputs (es : List Event) : Result → Result
  | .next t => .next { t with inputs := es }
  | .fault f => .fault f
  | .refused f => .refused f

@[simp] theorem allWritten_inputs (s : State) (es : List Event) :
    ({ s with inputs := es } : State).allWritten = s.allWritten := rfl

@[simp] theorem samplesLegal_inputs (s : State) (es : List Event) :
    ({ s with inputs := es } : State).samplesLegal = s.samplesLegal := rfl

theorem submit_inputs (s : State) (es : List Event) (w : Word) :
    ({ s with inputs := es } : State).submit w = withInputs es (s.submit w) := by
  cases hb : s.status.busy with
  | true => simp only [State.submit, hb, if_true]; rfl
  | false =>
    cases hd : decodeCommand w with
    | error e => simp only [State.submit, hb, hd]; rfl
    | ok i =>
      cases hw : s.allWritten <;> cases hf : i.isForward && !s.samplesLegal <;>
        simp [State.submit, withInputs, hb, hd, hw, hf] <;> rfl

theorem writeEffect_inputs (s : State) (es : List Event) (off : Nat) (v : Word) :
    ({ s with inputs := es } : State).writeEffect off v = withInputs es (s.writeEffect off v) := by
  simp only [State.writeEffect, submit_inputs]
  split
  case h_4 => split <;> rfl
  all_goals rfl

theorem readEffect_inputs (s : State) (es : List Event) (off : Nat) :
    ({ s with inputs := es } : State).readEffect off = withInputs es (s.readEffect off) := by
  simp only [State.readEffect]
  split
  case h_5 => split <;> rfl
  case h_6 =>
    split
    · rfl
    · split <;> rfl
  all_goals rfl

/-- No transaction looks at the events to come. -/
theorem transact_inputs (s : State) (es : List Event) (x : Transaction) :
    ({ s with inputs := es } : State).transact x = withInputs es (s.transact x) := by
  cases x with
  | read off size =>
    simp only [State.transact, readEffect_inputs]
    split <;> rfl
  | write off size v =>
    simp only [State.transact, writeEffect_inputs]
    split
    · cases s.writeEffect off v <;> rfl
    · rfl

/-- No operation looks at the events to come. -/
theorem exec_inputs (i : Instr) (s : State) (es : List Event) :
    exec i { s with inputs := es } = withInputs es (exec i s) := by
  cases i <;> rfl

/-- A step with events to come takes the first as it would happen alone. -/
theorem step_happen (s : State) (e : Event) (es : List Event) :
    step { s with inputs := e :: es } = withInputs es (s.happen e) := by
  cases e with
  | host x => exact (transact_inputs { s with inputs := [] } es x)
  | reset => rfl
  | engine =>
    cases hb : s.status.busy with
    | false =>
      rw [happen_engine_idle hb]
      simp [step, State.nextEvent, State.engineTurn, hb, withInputs]
    | true =>
      cases hp : s.pend with
      | none => simp [State.happen, step, State.nextEvent, State.engineTurn, hb, hp, withInputs]
      | some i =>
        rw [happen_engine_run hb hp, ← exec_inputs]
        simp [step, State.nextEvent, State.engineTurn, hb, hp]

/-- A program's run is a run of the machine on the events that happened in it, the recorded trace among them: as many
steps, from the same core, to the same core (30_encoding.md R117; 20_memory.md R80). -/
theorem run_replays (sched : List Agent) {r r' : HostRun α} (h : r.run sched = .next r') :
    ∃ es : List Event, r'.events = r.events ++ es ∧
      ∀ rest : List Event, Sys2Proof.core.run es.length ({ r.core with inputs := es ++ rest } : State) =
        .next ({ r'.core with inputs := rest } : State) := by
  induction sched generalizing r with
  | nil => injection h with h; subst h; exact ⟨[], by simp, fun _ => rfl⟩
  | cons b sched ih =>
    obtain ⟨u, hu, hrun⟩ := run_cons h
    have event : ∀ (e : Event) (t : State) (p : HostProgram α), r.core.happen e = .next t →
        u = ⟨p, t, r.events ++ [e]⟩ →
        ∃ es : List Event, r'.events = r.events ++ es ∧
          ∀ rest : List Event, Sys2Proof.core.run es.length ({ r.core with inputs := es ++ rest } : State) =
            .next ({ r'.core with inputs := rest } : State) := by
      rintro e t p ht rfl
      obtain ⟨es, h1, h2⟩ := ih hrun
      refine ⟨e :: es, by simp [h1], fun rest => ?_⟩
      have hs : Sys2Proof.core.step ({ r.core with inputs := e :: (es ++ rest) } : State) =
          .next ({ t with inputs := es ++ rest } : State) := by
        have := step_happen r.core e (es ++ rest)
        rw [ht] at this
        exact this
      simp only [List.length_cons, List.cons_append, Host.Core.run, hs]
      exact h2 rest
    rcases turn_cases hu with ⟨-, -, rfl⟩ | ⟨x, y, t, -, -, ht, -, -, hr⟩ | ⟨e, t, -, -, ht, -, hr⟩
    · exact ih hrun
    · exact event _ t _ ht hr
    · exact event _ t _ ht hr

end Sys2Proof.Machine
end

