-- ==== Sys2Proof/Laws/PerInstr.lean ====
section
/-! SUPPORT. Laws/PerInstr.lean: the statements made of every instruction as syntax, one lemma per constructor. -/

namespace Sys2Proof.Laws.Encoded

/-- The encoding of an instruction has its operation code in bits 4:0, its RMODE in bits 9:8, and zeros in the two
reserved fields (30_encoding.md R100, R104). -/
def Statement (i : Instr) : Prop :=
  (encodeCommand i).extractLsb' 0 5 = i.opcode ∧ (encodeCommand i).extractLsb' 8 2 = i.rmode.code ∧
    (encodeCommand i).extractLsb' 5 3 = 0 ∧ (encodeCommand i).extractLsb' 10 22 = 0

theorem idctRefF32 (m : RMode) : Statement (.idctRefF32 m) := by cases m <;> exact ⟨rfl, rfl, rfl, rfl⟩
theorem idctRefF64 (m : RMode) : Statement (.idctRefF64 m) := by cases m <;> exact ⟨rfl, rfl, rfl, rfl⟩
theorem fdctRef (m : RMode) : Statement (.fdctRef m) := by cases m <;> exact ⟨rfl, rfl, rfl, rfl⟩
theorem idctSep (m : RMode) : Statement (.idctSep m) := by cases m <;> exact ⟨rfl, rfl, rfl, rfl⟩
theorem idctSepSym2 (m : RMode) : Statement (.idctSepSym2 m) := by cases m <;> exact ⟨rfl, rfl, rfl, rfl⟩
theorem idctSepSym4 (m : RMode) : Statement (.idctSepSym4 m) := by cases m <;> exact ⟨rfl, rfl, rfl, rfl⟩
theorem idctSepSym8 (m : RMode) : Statement (.idctSepSym8 m) := by cases m <;> exact ⟨rfl, rfl, rfl, rfl⟩
theorem idctSepFix (m : RMode) : Statement (.idctSepFix m) := by cases m <;> exact ⟨rfl, rfl, rfl, rfl⟩
theorem idctLlm (m : RMode) : Statement (.idctLlm m) := by cases m <;> exact ⟨rfl, rfl, rfl, rfl⟩
theorem fdctLlm (m : RMode) : Statement (.fdctLlm m) := by cases m <;> exact ⟨rfl, rfl, rfl, rfl⟩
theorem idctAanF32 (m : RMode) : Statement (.idctAanF32 m) := by cases m <;> exact ⟨rfl, rfl, rfl, rfl⟩
theorem idctAanF64 (m : RMode) : Statement (.idctAanF64 m) := by cases m <;> exact ⟨rfl, rfl, rfl, rfl⟩
theorem idctAp922 (m : RMode) : Statement (.idctAp922 m) := by cases m <;> exact ⟨rfl, rfl, rfl, rfl⟩

end Sys2Proof.Laws.Encoded
end

