-- ==== Sys2Proof/Tests/Slice0.lean ====
section
/-! SUPPORT. Tests/Slice0.lean: what the checks refuse, words decoded by hand from 30_encoding.md, vectors of
95_test_vectors.md, each about one step or one value, and a witness for the hypotheses of every obligation. -/

namespace Sys2Proof.Tests

open Sys2Proof.Machine

set_option Elab.async false

/-! ## Ill-formed words and accesses (30_encoding.md R101, R103, R104; 20_memory.md R75) -/

theorem test_wf_reserved : wfReserved 0x00000020 = false ∧ wfReserved 0x00000080 = false ∧
    wfReserved 0x00000400 = false ∧ wfReserved 0x80000001 = false ∧ wfReserved 0x0000031F = true := by decide
theorem test_wf_op : wfOp 0x00000000 = false ∧ wfOp 0x0000000E = false ∧ wfOp 0x0000001F = false ∧
    wfOp 0x00000001 = true ∧ wfOp 0x0000000D = true := by decide
theorem test_wf_rmode : wfRmode 0x00000301 = false ∧ wfRmode 0x00000201 = true := by decide
theorem test_wf_command : wfCommand 0x00000021 = false ∧ wfCommand 0x0000010E = false ∧
    wfCommand 0x0000030D = false ∧ wfCommand 0x0000020D = true := by decide
theorem test_wf_access : wfAccess 0x002 4 = false ∧ wfAccess 0x000 1 = false ∧ wfAccess 0x000 2 = false ∧
    wfAccess 0x008 8 = false ∧ wfAccess 0x400 4 = false ∧ wfAccess 0x3FC 4 = true := by decide
theorem test_wf_transaction : (Transaction.read 0x101 4).wf = false ∧ (Transaction.write 0x100 2 0).wf = false ∧
    (Transaction.write 0x100 4 0).wf = true := by decide

/-! ## Decoding, by the words of 30_encoding.md R115 -/

theorem test_decode_idctRefF32 : decodeCommand 0x00000001 = .ok (.idctRefF32 .halfAway) ∧
    decodeCommand 0x00000101 = .ok (.idctRefF32 .halfUp) ∧ decodeCommand 0x00000201 = .ok (.idctRefF32 .halfEven) :=
  ⟨rfl, rfl, rfl⟩
theorem test_decode_idctRefF64 : decodeCommand 0x00000002 = .ok (.idctRefF64 .halfAway) ∧
    decodeCommand 0x00000102 = .ok (.idctRefF64 .halfUp) ∧ decodeCommand 0x00000202 = .ok (.idctRefF64 .halfEven) :=
  ⟨rfl, rfl, rfl⟩
theorem test_decode_fdctRef : decodeCommand 0x00000003 = .ok (.fdctRef .halfAway) ∧
    decodeCommand 0x00000103 = .ok (.fdctRef .halfUp) ∧ decodeCommand 0x00000203 = .ok (.fdctRef .halfEven) :=
  ⟨rfl, rfl, rfl⟩
theorem test_decode_idctSep : decodeCommand 0x00000004 = .ok (.idctSep .halfAway) ∧
    decodeCommand 0x00000104 = .ok (.idctSep .halfUp) ∧ decodeCommand 0x00000204 = .ok (.idctSep .halfEven) :=
  ⟨rfl, rfl, rfl⟩
theorem test_decode_idctSepSym2 : decodeCommand 0x00000005 = .ok (.idctSepSym2 .halfAway) ∧
    decodeCommand 0x00000105 = .ok (.idctSepSym2 .halfUp) ∧ decodeCommand 0x00000205 = .ok (.idctSepSym2 .halfEven) :=
  ⟨rfl, rfl, rfl⟩
theorem test_decode_idctSepSym4 : decodeCommand 0x00000006 = .ok (.idctSepSym4 .halfAway) ∧
    decodeCommand 0x00000106 = .ok (.idctSepSym4 .halfUp) ∧ decodeCommand 0x00000206 = .ok (.idctSepSym4 .halfEven) :=
  ⟨rfl, rfl, rfl⟩
theorem test_decode_idctSepSym8 : decodeCommand 0x00000007 = .ok (.idctSepSym8 .halfAway) ∧
    decodeCommand 0x00000107 = .ok (.idctSepSym8 .halfUp) ∧ decodeCommand 0x00000207 = .ok (.idctSepSym8 .halfEven) :=
  ⟨rfl, rfl, rfl⟩
theorem test_decode_idctSepFix : decodeCommand 0x00000008 = .ok (.idctSepFix .halfAway) ∧
    decodeCommand 0x00000108 = .ok (.idctSepFix .halfUp) ∧ decodeCommand 0x00000208 = .ok (.idctSepFix .halfEven) :=
  ⟨rfl, rfl, rfl⟩
theorem test_decode_idctLlm : decodeCommand 0x00000009 = .ok (.idctLlm .halfAway) ∧
    decodeCommand 0x00000109 = .ok (.idctLlm .halfUp) ∧ decodeCommand 0x00000209 = .ok (.idctLlm .halfEven) :=
  ⟨rfl, rfl, rfl⟩
theorem test_decode_fdctLlm : decodeCommand 0x0000000A = .ok (.fdctLlm .halfAway) ∧
    decodeCommand 0x0000010A = .ok (.fdctLlm .halfUp) ∧ decodeCommand 0x0000020A = .ok (.fdctLlm .halfEven) :=
  ⟨rfl, rfl, rfl⟩
theorem test_decode_idctAanF32 : decodeCommand 0x0000000B = .ok (.idctAanF32 .halfAway) ∧
    decodeCommand 0x0000010B = .ok (.idctAanF32 .halfUp) ∧ decodeCommand 0x0000020B = .ok (.idctAanF32 .halfEven) :=
  ⟨rfl, rfl, rfl⟩
theorem test_decode_idctAanF64 : decodeCommand 0x0000000C = .ok (.idctAanF64 .halfAway) ∧
    decodeCommand 0x0000010C = .ok (.idctAanF64 .halfUp) ∧ decodeCommand 0x0000020C = .ok (.idctAanF64 .halfEven) :=
  ⟨rfl, rfl, rfl⟩
theorem test_decode_idctAp922 : decodeCommand 0x0000000D = .ok (.idctAp922 .halfAway) ∧
    decodeCommand 0x0000010D = .ok (.idctAp922 .halfUp) ∧ decodeCommand 0x0000020D = .ok (.idctAp922 .halfEven) :=
  ⟨rfl, rfl, rfl⟩

/-- Refused words, with the first check that fails (95_test_vectors.md 2.1). -/
theorem test_decode_refused : decodeCommand 0x00000000 = .error .illegalOp ∧
    decodeCommand 0x0000000E = .error .illegalOp ∧ decodeCommand 0x0000031F = .error .illegalOp ∧
    decodeCommand 0x00000301 = .error .illegalRmode ∧ decodeCommand 0x000000E1 = .error .reservedBits ∧
    decodeCommand 0x00000401 = .error .reservedBits ∧ decodeCommand 0x80000001 = .error .reservedBits :=
  ⟨rfl, rfl, rfl, rfl, rfl, rfl, rfl⟩

theorem test_decode_truncated : decodeBytes [0x09, 0x00, 0x00] = .error .truncated := rfl
theorem test_decode_rest : decodeBytes [0x0A, 0x01, 0x00, 0x00, 0x55] = .ok (.fdctLlm .halfUp, [0x55]) := rfl
theorem test_encode_word : encodeCommand (.idctSepFix .halfEven) = 0x00000208 ∧
    encodeBytes (.idctAp922 .halfUp) = [0x0D, 0x01, 0x00, 0x00] := by decide
theorem test_table_word : decodeTableWord 32 0x00000009 = some (.idctLlm .halfAway) ∧
    decodeTableWord 8 0x0A = some (.fdctLlm .halfAway) ∧ decodeTableWord 32 0x0000030A = none := by decide

/-- The spelling of a command (30_encoding.md R115). -/
theorem test_parse : parseCommand "IDCT_SEP_SYM4.HE" = some (.idctSepSym4 .halfEven) ∧
    parseCommand "IDCT_LLM" = some (.idctLlm .halfAway) ∧ parseCommand "IDCT_LLM.HX" = none := by decide +kernel

/-- The records of 30_encoding.md R117 and 95_test_vectors.md 4.1. -/
theorem test_records : decodeRecord 0x8000000400000009 = some (.write 0x004 4 0x00000009) ∧
    decodeRecord 0x0000000800000000 = some (.read 0x008 4) ∧
    encodeRecord (.write 0x1FC 4 0) = some 0x800001FC00000000 ∧ decodeRecord 0x0000040000000000 = none := by
  decide +kernel

/-! ## Host transactions (95_test_vectors.md 2.1, 2.2) -/

/-- A state with every IN entry written. -/
def ready (inBuf : Block Word) : State :=
  { State.reset with inBuf := inBuf, inWritten := Vector.replicate 64 true }

/-- The block with one entry. -/
def single (p : Fin 64) (v : Word) : Block Word := (Vector.replicate 64 0).set p v

/-- STATUS after a step that goes on. -/
def statusAfter : Result → Option Word
  | .next t => some t.status.toWord
  | .fault _ | .refused _ => none

/-- What a read answers. -/
def answerOf : Result → Option Reply
  | .next t => t.replies.getLast?
  | .fault _ | .refused _ => none

/-- The fault of a step that stops. -/
def faultOf : Result → Option Fault
  | .fault r => some r
  | .next _ | .refused _ => none

theorem eq_fault_of_faultOf {r : Result} {e : Fault} (h : faultOf r = some e) : r = .fault e := by
  cases r <;> simp_all [faultOf]

/-- Does a step go on? -/
def goesOn : Result → Bool
  | .next _ => true
  | .fault _ | .refused _ => false

/-- Does a step go on to a state with this property? -/
def goesTo (p : State → Bool) : Result → Bool
  | .next t => p t
  | .fault _ | .refused _ => false

theorem exists_next_with {r : Result} {p : State → Bool} (h : goesTo p r = true) : ∃ t, r = .next t ∧ p t = true := by
  cases r with
  | next t => exact ⟨t, rfl, h⟩
  | fault _ => simp [goesTo] at h
  | refused _ => simp [goesTo] at h

theorem exists_next {r : Result} (h : goesOn r = true) : ∃ t, r = .next t := by
  cases r with
  | next t => exact ⟨t, rfl⟩
  | fault _ => simp [goesOn] at h
  | refused _ => simp [goesOn] at h

/-- A state with these STATUS fields. -/
def flags (busy done err multi : Bool) (code : BitVec 4) : State :=
  { ready (Vector.replicate 64 0) with
    status := { busy := busy, done := done, err := err, multi := multi, errCode := code } }

/-- CMD writes with BUSY = 0. -/
theorem test_submit : ([0x00000001, 0x00000201, 0x0000000D, 0x0000020A, 0x00000000, 0x0000001F, 0x00000301, 0x00000020,
      0x000000E1, 0x80000001, 0x0000031F] : List Word).map
        (fun w => statusAfter ((ready (single 5 0xFF)).transact (.write 0x004 4 w))) =
    ([0x00000001, 0x00000001, 0x00000001, 0x00000001, 0x00000304, 0x00000304, 0x00000404, 0x00000204, 0x00000204,
      0x00000204, 0x00000304] : List Word).map some := by decide +kernel

theorem test_submit_busy : statusAfter ((flags true false false false 0).transact (.write 0x004 4 0x0000031F)) =
    some 0x00000105 := by decide +kernel
theorem test_submit_sample_range :
    statusAfter ((ready (single 5 0x00000100)).transact (.write 0x004 4 0x00000003)) = some 0x00000504 ∧
    statusAfter ((ready (single 0 0xFFFFFFEF)).transact (.write 0x004 4 0x0000000A)) = some 0x00000504 ∧
    statusAfter ((ready (single 0 0xFFFFFFEF)).transact (.write 0x004 4 0x00000001)) = some 0x00000001 ∧
    statusAfter ((ready (single 5 0x00000100)).transact (.write 0x004 4 0x00000301)) = some 0x00000404 := by
  decide +kernel
theorem test_submit_multi : statusAfter ((flags false false true false 3).transact (.write 0x004 4 0)) =
    some 0x0000030C := by decide +kernel
theorem test_submit_unwritten : faultOf (State.reset.submit 0x00000001) = some .unwrittenIn ∧
    statusAfter (State.reset.submit 0x00000000) = some 0x00000304 := by decide +kernel

theorem test_read_id : answerOf (State.reset.transact (.read 0x000 4)) = some (.read .okay 0x44435438) := by
  decide +kernel
theorem test_read_reserved : ([0x010, 0x0FC, 0x300, 0x3FC] : List Nat).map
    (fun off => answerOf (State.reset.transact (.read off 4))) = List.replicate 4 (some (.read .okay 0)) := by
  decide +kernel
theorem test_read_malformed : answerOf (State.reset.transact (.read 0x002 4)) = some (.read .error 0) ∧
    answerOf (State.reset.transact (.read 0x000 8)) = some (.read .error 0) ∧
    answerOf (State.reset.transact (.write 0x005 4 1)) = some (.write .error) := by decide +kernel
theorem test_status_clear : ([0x2, 0x4, 0x6, 0x1, 0xFFFFFFF9] : List Word).map
      (fun v => statusAfter ((flags false true true true 3).transact (.write 0x008 4 v))) =
    ([0x0000030C, 0x00000002, 0x00000000, 0x0000030E, 0x0000030E] : List Word).map some := by decide +kernel
theorem test_ctrl : answerOf (({ State.reset with ctrl := { irqEn := true } } : State).transact (.read 0x00C 4)) =
    some (.read .okay 0x00000001) := by decide +kernel
theorem test_irq : ({ flags false true false false 0 with ctrl := { irqEn := true } } : State).irq = true ∧
    ({ flags false false true false 3 with ctrl := { irqEn := true } } : State).irq = true ∧
    (flags false true true false 3).irq = false ∧
    ({ flags true false false false 0 with ctrl := { irqEn := true } } : State).irq = false := by decide
theorem test_in_write_busy : statusAfter ((flags true false false false 0).transact (.write 0x10C 4 7)) =
    some 0x00000605 := by decide +kernel
theorem test_in_write_marks : (match (State.reset.transact (.write 0x1FC 4 7)) with
    | .next t => (t.inBuf[63], t.inWritten[63], t.inWritten[62])
    | .fault _ | .refused _ => (0, false, true)) = (7, true, false) := by decide +kernel
theorem test_out_unwritten : faultOf (State.reset.transact (.read 0x200 4)) = some .unwrittenOut := by decide +kernel
theorem test_out_busy_draws : (match (flags true false false false 0).transact (.read 0x200 4) with
    | .next t => t.draws
    | .fault _ | .refused _ => 0) = 1 := by decide +kernel

/-- Each byte of the window lies where little-endian order puts it (20_memory.md R73). -/
theorem test_window_bytes : (([0, 1, 2, 3] : List Nat).map fun b =>
    ({ State.reset with outBuf := single 1 0x3F800000 } : State).peekByte (0x204 + b)) = [0x00, 0x00, 0x80, 0x3F] := by
  decide +kernel

/-! ## Rounding (95_test_vectors.md 2.3) -/

theorem test_round_int : ([1/2, -1/2, 3/2, -3/2, 5/2, -5/2, 253/2, -255/2, -257/2] : List Rat).map
      (fun q => (roundInt .halfAway q, roundInt .halfUp q, roundInt .halfEven q)) =
    [(1, 1, 0), (-1, 0, 0), (2, 2, 2), (-2, -1, -2), (3, 3, 2), (-3, -2, -2), (127, 127, 126), (-128, -127, -128),
     (-129, -128, -128)] := by decide +kernel
theorem test_finalize : ([1/2, -1/2, 253/2, 637/5, 255/2, -255/2, -259/2, -200, 1000] : List Rat).map
      (fun q => (finalize .halfAway q, finalize .halfUp q, finalize .halfEven q)) =
    [(129, 129, 128), (127, 128, 128), (255, 255, 254), (255, 255, 255), (255, 255, 255), (0, 1, 0), (0, 0, 0), (0, 0, 0),
     (255, 255, 255)] := by decide +kernel
theorem test_finalize_special : finalizeFlt .halfAway (.nan : Flt .binary32) = 0 ∧
    finalizeFlt .halfAway (.inf false : Flt .binary32) = 255 ∧
    finalizeFlt .halfAway (.inf true : Flt .binary64) = 0 := by decide
theorem test_round_div : (roundDiv .halfAway (-3) 2, roundDiv .halfUp (-3) 2, roundDiv .halfEven (-3) 2) = (-2, -1, -2) ∧
    (roundDiv .halfAway 5 2, roundDiv .halfUp 5 2, roundDiv .halfEven 5 2) = (3, 3, 2) ∧
    roundDiv .halfUp 0 4096 = 0 ∧ roundDiv .halfAway 231680 4096 = 57 := by decide +kernel

/-! ## Floating point (40_numeric_common.md R132, R136; hand calculation from IEEE 754) -/

/-- A binary32 datum by its bits. -/
def f (b : Nat) : Flt .binary32 := Flt.ofBits .binary32 b

/-- 1 + 2^-24 ties to 1; 16777219 ties to 16777220; signed zeros; the least subnormal halves to 0; past the greatest
finite value comes infinity. -/
theorem test_float_add : ((f 0x3F800000).add (f 0x33800000)).toBits = 0x3F800000 ∧
    ((f 0x80000000).add (f 0x80000000)).toBits = 0x80000000 ∧
    ((f 0x3F800000).add (f 0xBF800000)).toBits = 0x00000000 ∧ ((f 0x80000000).add (f 0)).toBits = 0 ∧
    ((f 0x7F7FFFFF).add (f 0x7F7FFFFF)).toBits = 0x7F800000 ∧
    ((f 0x00800000).sub (f 0x00000001)).toBits = 0x007FFFFF := by decide +kernel
theorem test_float_mul : ((f 0x3F3504F3).mul (f 0x3F3504F3)).toBits = 0x3EFFFFFF ∧
    ((f 0x00000001).mul (f 0x3F000000)).toBits = 0x00000000 ∧
    ((f 0x00000003).mul (f 0x3F000000)).toBits = 0x00000002 ∧ ((f 0x80000000).mul (f 0x3F800000)).toBits = 0x80000000 ∧
    ((f 0x7F000000).mul (f 0xC0000000)).toBits = 0xFF800000 := by decide +kernel
theorem test_float_of_int : (Flt.ofInt .binary32 16777219).toBits = 0x4B800002 ∧
    (Flt.ofInt .binary32 2147483647).toBits = 0x4F000000 ∧ (Flt.ofInt .binary32 (-128)).toBits = 0xC3000000 ∧
    (Flt.ofInt .binary64 2147483647).toBits = 0x41DFFFFFFFC00000 := by decide +kernel

/-! ## Constants (42_separable.md R198; 41_reference.md R174; 44_aan.md R241, R243; 45_ap922.md R261, R262) -/

/-- The K table of the default scale. -/
theorem test_fix_table_4096 : ((fixTable 4096).toList.map fun row => row.toList) =
    [[2896, 2896, 2896, 2896, 2896, 2896, 2896, 2896], [4017, 3406, 2276, 799, -799, -2276, -3406, -4017],
     [3784, 1567, -1567, -3784, -3784, -1567, 1567, 3784], [3406, -799, -4017, -2276, 2276, 4017, 799, -3406],
     [2896, -2896, -2896, 2896, 2896, -2896, -2896, 2896], [2276, -4017, 799, 3406, -3406, -799, 4017, -2276],
     [1567, -3784, 3784, -1567, -1567, 3784, -3784, 1567], [799, -2276, 3406, -4017, 4017, -3406, 2276, -799]] := by
  decide +kernel

/-- The K table of the source's example scale. -/
theorem test_fix_table_256 : ((fixTable 256).toList.map fun row => row.toList) =
    [[181, 181, 181, 181, 181, 181, 181, 181], [251, 213, 142, 50, -50, -142, -213, -251],
     [237, 98, -98, -237, -237, -98, 98, 237], [213, -50, -251, -142, 142, 251, 50, -213],
     [181, -181, -181, 181, 181, -181, -181, 181], [142, -251, 50, 213, -213, -50, 251, -142],
     [98, -237, 237, -98, -98, 237, -237, 98], [50, -142, 213, -251, 251, -213, 142, -50]] := by decide +kernel

theorem test_forward_factor :
    (((norm .binary32)[0].mul (norm .binary32)[0]).mul (quarter .binary32)).toBits = 0x3DFFFFFF ∧
    (((norm .binary32)[0].mul (norm .binary32)[3]).mul (quarter .binary32)).toBits = 0x3E3504F3 ∧
    (((norm .binary32)[5].mul (norm .binary32)[3]).mul (quarter .binary32)).toBits = 0x3E800000 := by decide +kernel
theorem test_basis_signs : (basis .binary32)[3][1].toBits = 0xBE47C5C2 ∧ (basis .binary32)[6][4].toBits = 0xBEC3EF15 ∧
    (basis .binary64)[7][7].toBits = 0xBFC8F8B83C69A60B := by decide +kernel
theorem test_aan_table : (prescale .binary32)[7][7].toBits = 0x3C1BE50C ∧ (prescale .binary32)[0][0].toBits = 0x3E000000 ∧
    (prescale .binary64)[3][5].toBits = 0x3FBD906BCF328D46 := by decide +kernel
theorem test_ap922_table : row2idx.toList = [0, 1, 2, 3, 0, 3, 2, 1] ∧ wTables[0][0][0].toBits = 0x3F000000 ∧
    wTables[1][0][1].toBits = 0x3F7641AF ∧ wTables[3][2][3].toBits = 0xBF50C429 := by decide +kernel

/-! ## Each operation, by vectors of 95_test_vectors.md (2.4 to 2.8) -/

/-- OUT entries after the engine step of an operation on IN. -/
def outAt (i : Instr) (inBuf : Block Word) (ks : List (Fin 64)) : List Nat :=
  match exec i (ready inBuf) with
  | .next t => ks.map fun k => t.outBuf[k].toNat
  | .fault _ | .refused _ => []

/-- The three policies. -/
def policies : List RMode := [.halfAway, .halfUp, .halfEven]

/-- The checkerboard of 95_test_vectors.md 1.6. -/
def checkerboard : Block Word := Block.build fun r k => if (r.val + k.val) % 2 = 0 then 0x80 else 0xFF

/-- Block M of 95_test_vectors.md 2.5. -/
def blockM : Block Word :=
  (((((single 0 240).set 1 0xFFFFFFD8).set 2 12).set 8 30).set 9 0xFFFFFFEC).set 16 8 |>.set 63 5

theorem test_idctRefF32_dc : policies.map (fun m => outAt (.idctRefF32 m) (single 0 100) [27]) =
    [[140], [140], [140]] := by decide +kernel
/-- Row 5 of the block, whose byte at position 0 is 205. -/
theorem test_idctRefF32_impulse : outAt (.idctRefF32 .halfAway) (single 45 1000) [0, 7] = [205, 51] := by decide +kernel
theorem test_idctRefF64_dc : policies.map (fun m => outAt (.idctRefF64 m) (single 0 100) [27]) =
    [[141], [141], [141]] := by decide +kernel
theorem test_idctRefF64_impulse : outAt (.idctRefF64 .halfAway) (single 47 1000) [0, 7] = [155, 101] := by decide +kernel
theorem test_fdctRef_flat : outAt (.fdctRef .halfUp) (Vector.replicate 64 255) [0, 8] =
    [0x447DFFFF, 0x38131405] := by decide +kernel
theorem test_fdctRef_checkerboard : outAt (.fdctRef .halfAway) checkerboard [15] = [0xC2A5EEF9] := by decide +kernel
theorem test_idctSep_dc : policies.map (fun m => outAt (.idctSep m) (single 0 100) [27]) =
    [[141], [141], [140]] := by decide +kernel
theorem test_idctSep_impulse : outAt (.idctSep .halfEven) (single 47 1000) [0, 7] = [155, 101] := by decide +kernel
theorem test_idctSepSym2_dc : policies.map (fun m => outAt (.idctSepSym2 m) (single 0 100) [27]) =
    [[141], [141], [140]] := by decide +kernel
theorem test_idctSepSym2_impulse : outAt (.idctSepSym2 .halfEven) (single 29 1000) [0, 7] = [243, 13] := by decide +kernel
theorem test_idctSepSym4_dc : policies.map (fun m => outAt (.idctSepSym4 m) (single 0 100) [27]) =
    [[141], [141], [140]] := by decide +kernel
theorem test_idctSepSym4_impulse : outAt (.idctSepSym4 .halfEven) (single 61 1000) [0, 7] = [155, 101] := by decide +kernel
theorem test_idctSepSym8_dc : policies.map (fun m => outAt (.idctSepSym8 m) (single 0 100) [27]) =
    [[141], [141], [140]] := by decide +kernel
theorem test_idctSepSym8_impulse : outAt (.idctSepSym8 .halfEven) (single 15 1000) [0, 7] = [176, 80] := by decide +kernel
theorem test_idctSepFix_dc : policies.map (fun m => outAt (.idctSepFix m) (single 0 12) [27]) =
    [[129], [129], [129]] := by decide +kernel
/-- The row of 42_separable.md R203, which differs from every floating-point operation's at positions 3 and 4. -/
theorem test_idctSepFix_impulse : outAt (.idctSepFix .halfAway) (single 1 100) [40, 41, 42, 43, 44, 45, 46, 47] =
    [145, 143, 138, 132, 124, 118, 113, 111] := by decide +kernel
theorem test_idctLlm_tie : policies.map (fun m => outAt (.idctLlm m) (single 0 0xFFFFFFFC) [63]) =
    [[127], [128], [128]] := by decide +kernel
theorem test_idctLlm_mixed : outAt (.idctLlm .halfAway) blockM [6, 12, 57] = [175, 163, 153] := by decide +kernel
theorem test_fdctLlm_flat : outAt (.fdctLlm .halfAway) (Vector.replicate 64 0) [0, 1] = [0xC4800000, 0] := by
  decide +kernel
theorem test_fdctLlm_checkerboard : outAt (.fdctLlm .halfEven) checkerboard [15, 57] = [0xC2A5EEF8, 0xC2A5EEFA] := by
  decide +kernel
theorem test_idctAanF32_dc : policies.map (fun m => outAt (.idctAanF32 m) (single 0 100) [27]) =
    [[141], [141], [140]] := by decide +kernel
theorem test_idctAanF32_mixed : outAt (.idctAanF32 .halfUp) blockM [30, 57] = [165, 153] := by decide +kernel
theorem test_idctAanF64_dc : policies.map (fun m => outAt (.idctAanF64 m) (single 0 100) [27]) =
    [[141], [141], [140]] := by decide +kernel
theorem test_idctAanF64_mixed : outAt (.idctAanF64 .halfUp) blockM [30, 57] = [165, 153] := by decide +kernel
theorem test_idctAp922_dc : policies.map (fun m => outAt (.idctAp922 m) (single 0 100) [27]) =
    [[141], [141], [140]] := by decide +kernel
/-- Row 5 uses table 3, not table 1. -/
theorem test_idctAp922_row5 : outAt (.idctAp922 .halfAway) (single 47 1000) [0, 7] = [155, 101] := by decide +kernel

/-- The values of 95_test_vectors.md 2.4 behind the bytes, for F[0] = 4 and 2^31 - 1. -/
theorem test_dc_values : (evalIdctRef .binary32 (dcBlock 4))[9].toBits = 0x3EFFFFFF ∧
    (evalIdctRef .binary64 (dcBlock 4))[9].toBits = 0x3FE0000000000001 ∧
    (evalSep sym2F32 (dcBlock 4))[9].toBits = 0x3EFFFFFF ∧ (evalIdctLlm (dcBlock 4))[9].toBits = 0x3F000000 ∧
    (evalIdctAan .binary64 (dcBlock 2147483647))[9].toBits = 0x41AFFFFFFFC00000 ∧
    (evalIdctAp922 (dcBlock 2147483647))[9].toBits = 0x4D800000 := by decide +kernel

/-- T[0][3] of 42_separable.md R203. -/
theorem test_fix_rows : (fixRows 4096 .halfAway ((dcBlock 0).set 1 100))[0][3] = 20 := by decide +kernel

/-! ## The step -/

/-- IDCT_LLM in flight on F[0] = 80. -/
def busyState : State := (ready (single 0 80)).accept 0x00000009 (.idctLlm .halfAway)

/-- Program 1's engine step (95_test_vectors.md 4.1): STATUS 0x00000002 and the byte 138. -/
theorem test_step_engine : (match step busyState with
    | .next t => (t.status.toWord, t.outBuf[40], t.pend)
    | .fault _ | .refused _ => (0, 0, none)) = (0x00000002, 0x0000008A, none) := by decide +kernel

/-- The first step after reset with a word placed runs that command. -/
theorem test_step_placed : (match step (State.reset.withFetchWord 32 0x00000009) with
    | .next t => (t.status.toWord, t.outBuf[0], t.cmd)
    | .fault _ | .refused _ => (0, 0, 0)) = (0x00000002, 0x00000080, 0x00000009) := by decide +kernel

theorem test_step_idle : step State.reset = .next State.reset := rfl

/-- A reset abandons the command in flight (70_reset_and_hazards.md R343). -/
theorem test_step_reset : (match step { busyState with inputs := [.reset] } with
    | .next t => (t.status.toWord, t.pend, t.inWritten[0])
    | .fault _ | .refused _ => (1, none, true)) = (0x00000000, none, false) := by decide +kernel

/-! ## Host programs (30_encoding.md R116 to R119; 95_test_vectors.md 4.1, 4.5) -/

/-- What a run of a program has got back and what it hands on, with STATUS at its end. -/
def runOf {α : Type} (p : HostProgram α) (s : State) (sched : List Agent) : Option (List Word × Option α × Word) :=
  match (p.launch s).run sched with
  | .next r => some (r.core.replies.map Reply.data, r.program.value, r.core.status.toWord)
  | .fault _ | .refused _ => none

/-- A WAIT while BUSY = 1 reads STATUS and is not done. -/
theorem test_wait_busy : runOf wait busyState [.host] = some ([0x00000001], none, 0x00000001) := by decide +kernel

/-- RUN IDCT_LLM, with one STATUS read before the engine step and one after it. -/
theorem test_run_command : runOf (runCommand (.idctLlm .halfAway)) (ready (single 0 80)) [.host, .host, .engine, .host] =
    some ([0, 0x00000001, 0x00000002], some (), 0x00000002) := by decide +kernel

/-- Its recorded trace: the CMD write and the STATUS reads it needed. -/
theorem test_run_records : (match ((runCommand (.idctLlm .halfAway)).launch (ready (single 0 80))).run
      [.host, .host, .engine, .host] with
    | .next r => r.records
    | .fault _ | .refused _ => none) =
    some [0x8000000400000009, 0x0000000800000000, 0x0000000800000000] := by decide +kernel

/-- CLRSTAT, START FDCT_REF on a coefficient that is no sample, CHECK: e = (1, 5). -/
theorem test_check : runOf (clrStat.andThen fun _ => (start (.fdctRef .halfAway)).andThen fun _ => check)
      (ready (single 9 0xFFFFFFEF)) [.host, .host, .host] =
    some ([0, 0, 0x00000504], some (true, 5), 0x00000504) := by decide +kernel

/-- The observation of a run has the values of its own reads: the CMD write's response and a reply from before the launch
are none of them (70_reset_and_hazards.md R355). -/
theorem test_observe_run :
    let s := (ready (single 0 80)).reply (.read .okay 0x44435438)
    (match ((runCommand (.idctLlm .halfAway)).launch s).run [.host, .host, .engine, .host] with
      | .next r => (observeRun (runCommand (.idctLlm .halfAway)) s r).map fun o => (o.reads, o.cmd, o.status, o.outBuf[63])
      | .fault _ | .refused _ => none) =
    some ([0x00000001, 0x00000002], 0x00000009, 0x00000002, 0x0000008A) := by decide +kernel

/-- A host that is done while BUSY = 1 has no observation yet: its run is not over. -/
theorem test_observe_not_over : (match ((start (.idctLlm .halfAway)).launch (ready (single 0 80))).run [.host] with
      | .next r => observeRun (start (.idctLlm .halfAway)) (ready (single 0 80)) r
      | .fault _ | .refused _ => none) = none := by decide +kernel

/-- The first and last transactions of LOADBLK and READBLK. -/
theorem test_block_transactions : (loadBlk (single 0 80)).transaction = some (.write 0x100 4 80) ∧
    (writeEntries (single 0 80) [63]).transaction = some (.write 0x1FC 4 0) ∧
    readBlk.transaction = some (.read 0x200 4) ∧
    (readEntries (Vector.replicate 64 0) [63]).transaction = some (.read 0x2FC 4) := ⟨rfl, rfl, rfl, rfl⟩

/-! ## Witnesses: for each obligation with hypotheses, a state and operands that meet them together -/

theorem fresh_inv (rest : List Event) : Inv { State.reset with inputs := rest } where
  pendBusy := rfl
  pendCmd := by intro i h; cases h
  pendWritten := by intro i h; cases h
  pendSamples := by intro i h; cases h
  notBoth := (by decide : ¬ (State.reset.status.busy = true ∧ State.reset.status.done = true))
  multiErr := (by decide : State.reset.status.multi = true → State.reset.status.err = true)
  codeErr := (by decide : State.reset.status.errCode = 0 ↔ State.reset.status.err = false)
  codeLegal := (by decide : State.reset.status.errCode.toNat ≤ 6)
  cmdLegal := Or.inl rfl
  doneValid := (by decide : State.reset.status.done = true → State.reset.outValid = true)

theorem busy_inv (rest : List Event) : Inv { busyState with inputs := rest } where
  pendBusy := rfl
  pendCmd := by intro i h; cases h; exact (by decide : busyState.cmd = encodeCommand (.idctLlm .halfAway))
  pendWritten := by intro i _; exact (by decide +kernel : busyState.allWritten = true)
  pendSamples := by intro i h hf; cases h; exact absurd hf (by decide)
  notBoth := (by decide : ¬ (busyState.status.busy = true ∧ busyState.status.done = true))
  multiErr := (by decide : busyState.status.multi = true → busyState.status.err = true)
  codeErr := (by decide : busyState.status.errCode = 0 ↔ busyState.status.err = false)
  codeLegal := (by decide : busyState.status.errCode.toNat ≤ 6)
  cmdLegal := Or.inr (by decide : wfCommand busyState.cmd = true)
  doneValid := (by decide : busyState.status.done = true → busyState.outValid = true)

theorem witness_DecodeEncodeAgree :
    decodeBytes [0x0D, 0x02, 0x00, 0x00, 0xFF] = .ok (.idctAp922 .halfEven, [0xFF]) ∧
    ([0x0D, 0x02, 0x00, 0x00, 0xFF] : List Byte) = encodeBytes (.idctAp922 .halfEven) ++ [0xFF] := ⟨rfl, rfl⟩

theorem witness_StepRunsDecoded :
    (Inv busyState ∧ busyState.status.busy = true ∧ decodeBytes (cmdBytes busyState) = .ok (.idctLlm .halfAway, []) ∧
      busyState.inputs = []) ∧
    (Inv { busyState with inputs := [.engine, .reset] } ∧
      ({ busyState with inputs := [.engine, .reset] } : State).inputs = .engine :: [.reset]) ∧
    decodeTableWord 32 0x0000020D = some (.idctAp922 .halfEven) :=
  ⟨⟨busy_inv [], rfl, rfl, rfl⟩, ⟨busy_inv _, rfl⟩, rfl⟩

theorem witness_StepTakesEvents :
    ({ State.reset with inputs := [.host (.read 0x008 4)] } : State).inputs = .host (.read 0x008 4) :: [] ∧
    ({ State.reset with inputs := [.reset] } : State).inputs = .reset :: [] ∧
    (({ State.reset with inputs := [.engine] } : State).inputs = .engine :: [] ∧
      ({ State.reset with inputs := [.engine] } : State).status.busy = false) ∧
    (State.reset.inputs = [] ∧ State.reset.status.busy = false) := by decide

theorem witness_SeparableKernelOrder : (0 : Fin 8).val < 4 ∧ (3 : Fin 8).val < 4 ∧ (0 : Fin 8).val < 2 ∧
    (1 : Fin 8).val < 2 := by decide

theorem witness_CompletionFrame : ∃ t, exec (.fdctLlm .halfEven) State.reset = .next t := ⟨_, rfl⟩

theorem witness_OutputsAreBytes :
    ((Instr.idctAp922 .halfUp).isForward = false ∧ ∃ t, exec (.idctAp922 .halfUp) State.reset = .next t) ∧
    roundInt .halfAway (-257 / 2) + 128 < 0 ∧ 255 < roundInt .halfAway (255 / 2) + 128 ∧
    (0 ≤ roundInt .halfUp (-257 / 2) + 128 ∧ roundInt .halfUp (-257 / 2) + 128 ≤ 255) ∧
    (0 ≤ roundInt .halfEven (253 / 2 + 1 / 4) + 128 ∧ roundInt .halfEven (253 / 2 + 1 / 4) + 128 ≤ 255) :=
  ⟨⟨rfl, _, rfl⟩, by decide +kernel, by decide +kernel, by decide +kernel, by decide +kernel⟩

theorem witness_ResultDependsOnInput :
    (State.reset.inBuf = { State.reset with cmd := 0x1 }.inBuf ∧
      (∃ t, exec (.idctSep .halfUp) State.reset = .next t) ∧
      ∃ t, exec (.idctSep .halfUp) { State.reset with cmd := 0x1 } = .next t) ∧
    ((Instr.fdctRef .halfUp).isForward = true ∧ (Instr.fdctRef .halfUp).opcode = (Instr.fdctRef .halfEven).opcode ∧
      (∀ k : Fin 64, (ready (single 3 0x107)).inBuf[k].extractLsb' 0 8 = (ready (single 3 0x7)).inBuf[k].extractLsb' 0 8) ∧
      (∃ t, exec (.fdctRef .halfUp) (ready (single 3 0x107)) = .next t) ∧
      ∃ t, exec (.fdctRef .halfEven) (ready (single 3 0x7)) = .next t) :=
  ⟨⟨rfl, ⟨_, rfl⟩, ⟨_, rfl⟩⟩, rfl, rfl, by decide +kernel, ⟨_, rfl⟩, ⟨_, rfl⟩⟩

/-- The bounds of the offset families: their first and last offsets are legal and stand where the map says. -/
theorem witness_ConstantOffsets : regAt (0x010 + 4 * (0 : Fin 60).val) = .reserved ∧
    regAt (0x010 + 4 * (59 : Fin 60).val) = .reserved ∧ 0x010 + 4 * (59 : Fin 60).val = 0x0FC ∧
    regAt (0x300 + 4 * (63 : Fin 64).val) = .reserved ∧ accessLegal (0x300 + 4 * (63 : Fin 64).val) 4 = true := by
  decide

/-- A submission for each clause of the order. -/
theorem witness_SubmissionOrder : busyState.status.busy = true ∧
    (0x00000020 : Word).extractLsb' 5 3 ≠ 0 ∧ (0x80000001 : Word).extractLsb' 10 22 ≠ 0 ∧
    0x0E ≤ ((0x0000000E : Word).extractLsb' 0 5).toNat ∧ (0x00000301 : Word).extractLsb' 8 2 = 3 ∧
    (∃ k : Fin 64, State.reset.inWritten[k] = false) ∧
    (∃ k : Fin 64, (ready (single 63 0x100)).inBuf[k].extractLsb' 8 24 ≠ 0) ∧
    decodeCommand 0x0000000D = .ok (.idctAp922 .halfAway) :=
  ⟨rfl, by decide, by decide, by decide, by decide, ⟨0, by decide +kernel⟩, ⟨63, by decide +kernel⟩, rfl⟩

theorem witness_ErrorRecording : (flags false false false false 0).status.err = false ∧
    (flags false false true false 6).status.err = true := by decide

theorem witness_ErrorSticky :
    let s : State := { flags false true true true 6 with inputs := [.host (.write 0x008 4 0xFFFFFFFB)] }
    s.status.err = true ∧ (∃ t, step s = .next t) ∧ (∀ rest, s.inputs ≠ .reset :: rest) ∧
      (∀ v rest, s.inputs = .host (.write 0x008 4 v) :: rest → v.getLsbD 2 = false) :=
  ⟨rfl, exists_next (by decide +kernel), (by intro rest h; injection h with h _; cases h),
    (by intro v rest h; injection h with h _; injection h with h; injection h with _ _ h; subst h; decide)⟩

theorem witness_IdempotentWrites :
    (0x008 ≠ 0x004 ∧ (busyState.status.busy = true → ∀ k, regAt 0x008 ≠ .inEntry k) ∧
      ∃ t, busyState.writeEffect 0x008 0x6 = .next t) ∧
    (0x1FC ≠ 0x004 ∧ (State.reset.status.busy = true → ∀ k, regAt 0x1FC ≠ .inEntry k) ∧
      ∃ t, State.reset.writeEffect 0x1FC 0x6 = .next t) :=
  ⟨⟨by decide, by decide, exists_next (by decide +kernel)⟩,
    ⟨by decide, fun h => absurd h (by decide), exists_next (by decide +kernel)⟩⟩

theorem witness_WindowBytes : (({ State.reset with outBuf := single 63 0x3F800000 } : State).outBuf)[(63 : Fin 64)] =
    0x3F800000 := by decide +kernel

theorem witness_ResetState :
    (State.reset = State.reset) ∧
    (∃ (rest : List Event) (t : State), ({ busyState with inputs := [.reset] } : State).inputs = .reset :: rest ∧
      step { busyState with inputs := [.reset] } = .next t ∧ t.inputs = []) :=
  ⟨rfl, [], _, rfl, rfl, rfl⟩

theorem witness_StepKeepsInvariant : (Inv State.reset ∧ step State.reset = .next State.reset) ∧
    (Inv busyState ∧ ∃ t, step busyState = .next t) := ⟨⟨fresh_inv [], rfl⟩, busy_inv [], _, rfl⟩

theorem witness_FaultsExactly :
    (Inv { State.reset with inputs := [.host (.write 0x004 4 0x00000001)] } ∧
      step { State.reset with inputs := [.host (.write 0x004 4 0x00000001)] } = .fault .unwrittenIn) ∧
    (Inv { State.reset with inputs := [.host (.read 0x2FC 4)] } ∧
      step { State.reset with inputs := [.host (.read 0x2FC 4)] } = .fault .unwrittenOut) :=
  ⟨⟨fresh_inv _, eq_fault_of_faultOf (by decide +kernel)⟩, ⟨fresh_inv _, eq_fault_of_faultOf (by decide +kernel)⟩⟩

theorem witness_OneFlagPerEvent :
    (busyState.status.done = false ∧ ∃ t, step busyState = .next t ∧ t.status.done = true) ∧
    (State.reset.status.err = false ∧
      ∃ t, step { State.reset with inputs := [.host (.write 0x004 4 0)] } = .next t ∧ t.status.err = true) :=
  ⟨⟨rfl, exists_next_with (p := fun t => t.status.done) (by decide +kernel)⟩,
    ⟨rfl, exists_next_with (p := fun t => t.status.err) (by decide +kernel)⟩⟩

theorem witness_BusyHoldsInputs :
    busyState.status.busy = true ∧
    ∃ t, step { busyState with inputs := [.host (.write 0x100 4 1)] } = .next t ∧ t.status.busy = true :=
  ⟨rfl, exists_next_with (p := fun t => t.status.busy) (by decide +kernel)⟩

theorem witness_OutHeldBetweenCompletions :
    (∀ rest, ({ busyState with inputs := [.host (.write 0x200 4 1)] } : State).inputs ≠ .reset :: rest) ∧
    busyState.status.busy = true ∧
    ∃ t, step { busyState with inputs := [.host (.write 0x200 4 1)] } = .next t ∧ t.status.busy = true :=
  ⟨(by intro rest h; injection h with h _; cases h), rfl,
    exists_next_with (p := fun t => t.status.busy) (by decide +kernel)⟩

theorem witness_BusyRisesByAcceptance :
    (ready (single 0 80)).status.busy = false ∧
    ∃ t, step { ready (single 0 80) with inputs := [.host (.write 0x004 4 0x00000009)] } = .next t ∧
      t.status.busy = true :=
  ⟨rfl, exists_next_with (p := fun t => t.status.busy) (by decide +kernel)⟩

theorem witness_CommandCompletes :
    Inv { busyState with inputs := [.host (.read 0x200 4), .engine] } ∧
    ({ busyState with inputs := [.host (.read 0x200 4), .engine] } : State).pend = some (.idctLlm .halfAway) ∧
    (∀ e ∈ ({ busyState with inputs := [.host (.read 0x200 4), .engine] } : State).inputs, e ≠ .reset) :=
  ⟨busy_inv _, rfl, by decide⟩

/-- The least subnormal with the greatest finite datum, and a pair whose product is past the format. -/
theorem witness_FloatOperationsRounded :
    ((f 0x00000001).Canonical = true ∧ (f 0x7F7FFFFF).Canonical = true ∧ (f 0x00000001).isFinite = true ∧
      (f 0x7F7FFFFF).isFinite = true ∧ |(f 0x00000001).val + (f 0x7F7FFFFF).val| < overflowBound .binary32) ∧
    overflowBound .binary32 ≤ |(f 0x7F7FFFFF).val * (f 0x7F7FFFFF).val| ∧
    (f 0x80000000).val + (f 0x80000000).val = 0 := by decide +kernel

theorem witness_FloatEncoding : ((f 0x80000000).Canonical = true ∧ f 0x80000000 ≠ .nan) ∧
    (f 0x7F800000 = .inf false) ∧ 0xFFFFFFFF < 2 ^ (Precision.binary32.sigBits + Precision.binary32.expBits) ∧
    Flt.ofBits .binary32 0xFF7FFFFF ≠ .nan := by decide +kernel

theorem witness_InputConversion : |coeff 0x01000000| ≤ 2 ^ 24 ∧ |coeff 0xFF000000| ≤ 2 ^ 24 := by decide +kernel

theorem witness_FixedPointTable : 2 ≤ 2 ∧ 2 ≤ 4096 := by decide

theorem witness_FixedPointBounds : 2 ≤ 2 := by decide

theorem witness_DcOnlyLaw : (Instr.idctSepFix .halfUp).isForward = false ∧ (-300 : Int) ≤ -300 ∧ (-300 : Int) ≤ 300 ∧
    (-300 : Int) ≤ 300 ∧ (300 : Int) ≤ 300 := by decide

theorem witness_CrossAlgorithm : (Instr.idctLlm .halfAway).isForward = false ∧ (Instr.idctLlm .halfAway).opcode ≠ 0x08 ∧
    inLawDomain ((dcBlock (-2048)).set 63 2048) ∧
    (∃ a, outputOf (.idctLlm .halfAway) ((dcBlock (-2048)).set 63 2048) = some a) ∧
    ∃ b, outputOf (.idctRefF32 .halfAway) ((dcBlock (-2048)).set 63 2048) = some b :=
  ⟨rfl, by decide, by unfold inLawDomain; decide +kernel, ⟨_, rfl⟩, ⟨_, rfl⟩⟩

end Sys2Proof.Tests
end

section
/-! SUPPORT. Facts about the decoder: a word that decodes is the word of its instruction, and a legal one
(30_encoding.md R101 to R105, R112, R115). -/

namespace Sys2Proof

/-- The fields of the command word, whatever the instruction. -/
theorem encodeCommand_fields (i : Instr) : Laws.Encoded.Statement i :=
  match i with
  | .idctRefF32 m => Laws.Encoded.idctRefF32 m
  | .idctRefF64 m => Laws.Encoded.idctRefF64 m
  | .fdctRef m => Laws.Encoded.fdctRef m
  | .idctSep m => Laws.Encoded.idctSep m
  | .idctSepSym2 m => Laws.Encoded.idctSepSym2 m
  | .idctSepSym4 m => Laws.Encoded.idctSepSym4 m
  | .idctSepSym8 m => Laws.Encoded.idctSepSym8 m
  | .idctSepFix m => Laws.Encoded.idctSepFix m
  | .idctLlm m => Laws.Encoded.idctLlm m
  | .fdctLlm m => Laws.Encoded.fdctLlm m
  | .idctAanF32 m => Laws.Encoded.idctAanF32 m
  | .idctAanF64 m => Laws.Encoded.idctAanF64 m
  | .idctAp922 m => Laws.Encoded.idctAp922 m

theorem Instr.opcode_bounds (i : Instr) : 1 ≤ i.opcode.toNat ∧ i.opcode.toNat ≤ 0x0D := by
  cases i <;> simp [Instr.opcode]

theorem RMode.code_le (m : RMode) : m.code.toNat ≤ 2 := by
  cases m <;> decide

theorem wfCommand_encodeCommand (i : Instr) : wfCommand (encodeCommand i) = true := by
  obtain ⟨hop, hmode, hlow, hhigh⟩ := encodeCommand_fields i
  simp [wfCommand, wfReserved, wfOp, wfRmode, hop, hmode, hlow, hhigh, i.opcode_bounds, i.rmode.code_le]

/-- The operation code that names an operation is its instruction's, whatever the rounding policy. -/
theorem Instr.ofOp_some {op : BitVec 5} {f : RMode → Instr} (h : Instr.ofOp op = some f) (m : RMode) :
    (f m).opcode = op ∧ (f m).rmode = m := by
  unfold Instr.ofOp at h
  split at h
  case h_14 => cases h
  all_goals
    rename_i hop
    cases h
    exact ⟨BitVec.eq_of_toNat_eq hop.symm, rfl⟩

theorem RMode.ofCode_some {c : BitVec 2} {m : RMode} (h : RMode.ofCode c = some m) : m.code = c := by
  unfold RMode.ofCode at h
  split at h
  case h_4 => cases h
  all_goals
    rename_i hc
    cases h
    exact BitVec.eq_of_toNat_eq hc.symm

/-- The fields of 30_encoding.md R100 cover the command word. -/
theorem word_eq_of_fields {w w' : Word} (hop : w.extractLsb' 0 5 = w'.extractLsb' 0 5)
    (hlow : w.extractLsb' 5 3 = w'.extractLsb' 5 3) (hmode : w.extractLsb' 8 2 = w'.extractLsb' 8 2)
    (hhigh : w.extractLsb' 10 22 = w'.extractLsb' 10 22) : w = w' := by
  have fields : ∀ v : Word,
      v = v.extractLsb' 10 22 ++ v.extractLsb' 8 2 ++ v.extractLsb' 5 3 ++ v.extractLsb' 0 5 := by
    intro v
    rw [BitVec.extractLsb'_append_extractLsb'_eq_extractLsb' (by rfl),
      BitVec.extractLsb'_append_extractLsb'_eq_extractLsb' (by rfl),
      BitVec.extractLsb'_append_extractLsb'_eq_extractLsb' (by rfl)]
    exact BitVec.extractLsb'_eq_self.symm
  rw [fields w, fields w', hop, hlow, hmode, hhigh]

theorem decodeCommand_ok {w : Word} {i : Instr} (h : decodeCommand w = .ok i) : w = encodeCommand i := by
  unfold decodeCommand at h
  split at h
  · cases h
  · rename_i hres
    obtain ⟨hlow, hhigh⟩ := not_or.mp hres
    split at h
    · cases h
    · rename_i f hf
      split at h
      · cases h
      · rename_i m hm
        cases h
        obtain ⟨hop, hmode⟩ := Instr.ofOp_some hf m
        obtain ⟨eop, emode, elow, ehigh⟩ := encodeCommand_fields (f m)
        exact word_eq_of_fields (by rw [eop, hop]) (by rw [elow, not_not.mp hlow])
          (by rw [emode, hmode, RMode.ofCode_some hm]) (by rw [ehigh, not_not.mp hhigh])

end Sys2Proof
end

section
/-! SUPPORT. Rules of the step and of host writes: what each event of a step does, and what a legal host write answers
(20_memory.md R74, R80; 60_exceptions.md R300, R304; 70_reset_and_hazards.md R340). -/

namespace Sys2Proof.Machine

/-! ## The step, event by event -/

theorem step_host {s : State} {x : Transaction} {rest : List Event} (h : s.inputs = .host x :: rest) :
    step s = ({ s with inputs := rest } : State).transact x := by
  simp [step, State.nextEvent, h]

theorem step_reset {s : State} {rest : List Event} (h : s.inputs = .reset :: rest) :
    step s = .next ({ s with inputs := rest } : State).resetEvent := by
  simp [step, State.nextEvent, h]

theorem step_nil_idle {s : State} (h : s.inputs = []) (hb : s.status.busy = false) : step s = .next s := by
  simp [step, State.nextEvent, h, hb]

/-- The engine's turn in the state `u`: nothing with BUSY = 0, else the completion of the command in PEND. -/
theorem step_engine_cases {s t u : State} (hn : s.nextEvent = (some .engine, u)) (h : step s = .next t) :
    (∃ i, u.status.busy = true ∧ u.pend = some i ∧ exec i u = .next t) ∨ (u.status.busy = false ∧ t = u) := by
  cases hb : u.status.busy with
  | false =>
    simp only [step, hn, State.engineTurn, hb] at h
    cases h
    exact .inr ⟨rfl, rfl⟩
  | true =>
    cases hp : u.pend with
    | none => simp [step, hn, State.engineTurn, hb, hp] at h
    | some i =>
      simp only [step, hn, State.engineTurn, hb, hp] at h
      exact .inl ⟨i, rfl, rfl, h⟩

/-- A step that goes on, by its event: the transaction or the reset that comes next, the completion of the command in
flight, or, with BUSY = 0, nothing. -/
theorem step_event_cases {s t : State} (h : step s = .next t) :
    (∃ x rest, s.inputs = .host x :: rest ∧ ({ s with inputs := rest } : State).transact x = .next t) ∨
    (∃ rest, s.inputs = .reset :: rest ∧ t = ({ s with inputs := rest } : State).resetEvent) ∨
    (∃ i, s.status.busy = true ∧ s.pend = some i ∧ exec i { s with inputs := s.inputs.tail } = .next t) ∨
    (s.status.busy = false ∧ t = { s with inputs := s.inputs.tail }) := by
  have engine (hn : s.nextEvent = (some .engine, { s with inputs := s.inputs.tail })) :=
    step_engine_cases hn h
  rcases nextEvent_cases s with ⟨hin, _, hn⟩ | ⟨hin, hb, _⟩ | ⟨e, rest, hin, hn⟩
  · exact .inr (.inr (engine (by rw [hn, hin, List.tail_nil, ← hin])))
  · rw [step_nil_idle hin hb] at h
    cases h
    exact .inr (.inr (.inr ⟨hb, by rw [hin, List.tail_nil, ← hin]⟩))
  · cases e with
    | host x => exact .inl ⟨x, rest, hin, step_host hin ▸ h⟩
    | reset =>
      rw [step_reset hin] at h
      cases h
      exact .inr (.inl ⟨rest, hin, rfl⟩)
    | engine => exact .inr (.inr (engine (by rw [hn, hin, List.tail_cons])))

/-! ## Host writes -/

theorem transact_write {s t : State} {off : Nat} {v : Word} (hl : accessLegal off 4 = true)
    (h : s.writeEffect off v = .next t) : s.transact (.write off 4 v) = .next (t.reply (.write .okay)) := by
  simp [State.transact, hl, h]

/-- The reply to a host write that records an error is that of a refused write. -/
theorem recordError_reply (s : State) (e : CmdError) :
    .next ((s.recordError e).reply (.write .okay)) = rejectedWith s e.code := by
  have hf : s.status.record e =
      { s.status with
        err := true
        multi := s.status.multi || s.status.err
        errCode := if s.status.err then s.status.errCode else e.code } := by
    unfold Status.record
    split <;> simp [*]
  simp [rejectedWith, State.recordError, State.reply, hf]

end Sys2Proof.Machine
end

section
/-! SUPPORT. The invariant: each operation of the machine keeps the invariant, then the step does
(60_exceptions.md R300 to R304; 70_reset_and_hazards.md R340). -/

namespace Sys2Proof

open Sys2Proof.Machine

theorem Inv.pend_eq_none {s : State} (h : Inv s) (hb : s.status.busy = false) : s.pend = none := by
  simpa [hb] using h.pendBusy

theorem CmdError.code_bounds (e : CmdError) : e.code ≠ 0 ∧ e.code.toNat ≤ 6 := by
  cases e <;> decide

section

variable {s : State} (h : Inv s)
include h

theorem Inv.setInputs (es : List Event) : Inv { s with inputs := es } := { h with }

theorem Inv.setCtrl (c : Ctrl) : Inv { s with ctrl := c } := { h with }

theorem Inv.reply (r : Reply) : Inv (s.reply r) := { h with }

theorem Inv.draw : Inv s.draw.2 := { h with }

theorem Inv.recordError (e : CmdError) : Inv (s.recordError e) where
  pendBusy := by simpa using h.pendBusy
  pendCmd := h.pendCmd
  pendWritten := h.pendWritten
  pendSamples := h.pendSamples
  notBoth := by simpa using h.notBoth
  multiErr := by simp
  codeErr := by
    cases he : s.status.err
    · simpa [he] using e.code_bounds.1
    · simpa [he] using h.codeErr
  codeLegal := by cases he : s.status.err <;> simp [he, e.code_bounds, h.codeLegal]
  cmdLegal := h.cmdLegal
  doneValid := by simpa using h.doneValid

/-- Acceptance of the word that decodes to `i`, under the checks of 30_encoding.md R105. -/
theorem Inv.accept {w : Word} {i : Instr} (hi : decodeCommand w = .ok i) (hw : s.allWritten = true)
    (hs : i.isForward = true → s.samplesLegal = true) : Inv (s.accept w i) where
  pendBusy := rfl
  pendCmd := by
    rintro _ ⟨⟩
    exact decodeCommand_ok hi
  pendWritten := fun _ _ => hw
  pendSamples := by
    rintro _ ⟨⟩
    exact hs
  notBoth := by simp
  multiErr := h.multiErr
  codeErr := h.codeErr
  codeLegal := h.codeLegal
  cmdLegal := .inr (decodeCommand_ok hi ▸ wfCommand_encodeCommand i)
  doneValid := by simp

theorem Inv.complete (out : Block Word) : Inv (s.complete out) where
  pendBusy := rfl
  pendCmd := by simp
  pendWritten := by simp
  pendSamples := by simp
  notBoth := by simp
  multiErr := h.multiErr
  codeErr := h.codeErr
  codeLegal := h.codeLegal
  cmdLegal := h.cmdLegal
  doneValid := by simp

theorem Inv.writeClear (v : Word) : Inv { s with status := s.status.writeClear v } where
  pendBusy := h.pendBusy
  pendCmd := h.pendCmd
  pendWritten := h.pendWritten
  pendSamples := h.pendSamples
  notBoth := fun ⟨hb, hd⟩ => h.notBoth ⟨hb, Bool.and_elim_left hd⟩
  multiErr := by
    cases hv : v[2]
    · simpa [hv] using h.multiErr
    · simp [hv]
  codeErr := by
    cases hv : v[2]
    · simpa [hv] using h.codeErr
    · simp [hv]
  codeLegal := by cases hv : v[2] <;> simp [hv, h.codeLegal]
  cmdLegal := h.cmdLegal
  doneValid := fun hd => h.doneValid (Bool.and_elim_left hd)

/-- A write of IN needs BUSY = 0, and then no command depends on the entry. -/
theorem Inv.writeIn (hb : s.status.busy = false) (i : Fin 64) (v : Word) : Inv (s.writeIn i v) where
  pendBusy := h.pendBusy
  pendCmd := h.pendCmd
  pendWritten := by simp [h.pend_eq_none hb]
  pendSamples := by simp [h.pend_eq_none hb]
  notBoth := h.notBoth
  multiErr := h.multiErr
  codeErr := h.codeErr
  codeLegal := h.codeLegal
  cmdLegal := h.cmdLegal
  doneValid := h.doneValid

theorem Inv.writeEffect {t : State} {off : Nat} {v : Word} (ht : s.writeEffect off v = .next t) : Inv t := by
  rcases writeEffect_cases ht with ⟨e, rfl⟩ | ⟨i, hi, _, hw, hs, rfl⟩ | ⟨_, rfl⟩ | ⟨_, rfl⟩ | ⟨i, _, hb, rfl⟩ | rfl
  · exact h.recordError e
  · exact h.accept hi hw hs
  · exact h.writeClear v
  · exact h.setCtrl _
  · exact h.writeIn hb i v
  · exact h

theorem Inv.readEffect {t : State} {off : Nat} (ht : s.readEffect off = .next t) : Inv t := by
  rcases readEffect_cases ht with ⟨v, rfl⟩ | rfl
  · exact h.reply _
  · exact h.draw.reply _

theorem Inv.transact {t : State} {x : Transaction} (ht : s.transact x = .next t) : Inv t := by
  rcases transact_cases ht with ⟨_, _, _, _, hr⟩ | ⟨_, _, _, _, _, _, hw, rfl⟩ | ⟨r, rfl⟩
  · exact h.readEffect hr
  · exact (h.writeEffect hw).reply _
  · exact h.reply r

end

theorem inv_reset : Inv State.reset where
  pendBusy := rfl
  pendCmd := by simp [State.reset]
  pendWritten := by simp [State.reset]
  pendSamples := by simp [State.reset]
  notBoth := by simp [State.reset]
  multiErr := by simp [State.reset]
  codeErr := by simp [State.reset]
  codeLegal := by simp [State.reset]
  cmdLegal := .inl rfl
  doneValid := by simp [State.reset]

/-- The reset event leaves the core as `State.reset` has it, and the rest is not the invariant's. -/
theorem inv_resetEvent (s : State) : Inv s.resetEvent := { inv_reset with }

/-- Settles O32: with no command in flight, no error and CMD = 0, every clause holds in the reset state. -/
theorem resetInvariant : Obligations.ResetInvariant := inv_reset

/-- Settles O33, by the events of a step: a transaction and a completion keep the invariant, and a reset makes it anew
from any state. -/
theorem stepKeepsInvariant : Obligations.StepKeepsInvariant := by
  intro s t h hstep
  obtain ⟨u, ⟨rest, rfl⟩, rfl | ⟨x, hx⟩ | rfl | ⟨i, _, _, hi⟩⟩ := step_cases hstep
  · exact h.setInputs rest
  · exact (h.setInputs rest).transact hx
  · exact inv_resetEvent _
  · obtain ⟨out, rfl⟩ := exec_cases hi
    exact (h.setInputs rest).complete out

end Sys2Proof
end

section
/-! SUPPORT. The registers: STATUS, CTRL, the irq line, the buffers and the state after reset, as the host meets
them (10_state.md R33 to R45). -/

namespace Sys2Proof.Machine

/-! ## STATUS and CTRL by their bits -/

theorem Status.toWord_bits (f : Status) :
    f.toWord.getLsbD 0 = f.busy ∧ f.toWord.getLsbD 1 = f.done ∧ f.toWord.getLsbD 2 = f.err ∧
      f.toWord.getLsbD 3 = f.multi ∧ f.toWord.extractLsb' 8 4 = f.errCode := by
  obtain ⟨b, d, e, m, c⟩ := f
  revert b d e m c
  decide

theorem Ctrl.toWord_bit0 (c : Ctrl) : c.toWord.getLsbD 0 = c.irqEn := by
  obtain ⟨b⟩ := c
  cases b <;> rfl

theorem Ctrl.toWord_eq (c : Ctrl) : c.toWord = if c.irqEn then 0x00000001 else 0x00000000 := by
  obtain ⟨b⟩ := c
  cases b <;> rfl

/-- The bits a host write of `v` to STATUS clears: DONE for its bit 1; ERR, MULTI and ERRCODE for its bit 2. -/
theorem Status.writeClear_toWord (f : Status) (v : Word) :
    (f.writeClear v).toWord = f.toWord &&&
      ~~~((if v.getLsbD 1 then 0x00000002 else 0) ||| (if v.getLsbD 2 then 0x00000F0C else 0)) := by
  obtain ⟨b, d, e, m, c⟩ := f
  unfold Status.writeClear
  generalize v.getLsbD 1 = clearDone
  generalize v.getLsbD 2 = clearErr
  revert b d e m c clearDone clearErr
  decide

/-- A host write of `v` to CTRL leaves the word of its bit 0. -/
theorem Ctrl.toWord_write (v : Word) : (Ctrl.mk (v.getLsbD 0)).toWord = v &&& 0x00000001 := by
  change _ = v &&& 1#32
  rw [Ctrl.toWord_eq, BitVec.and_one_eq_setWidth_ofBool_getLsbD]
  cases v.getLsbD 0 <;> rfl

theorem transact_write_status (s : State) (v : Word) :
    s.transact (.write 0x008 4 v) =
      .next (({ s with status := s.status.writeClear v } : State).reply (.write .okay)) := transact_write rfl rfl

theorem transact_write_ctrl (s : State) (v : Word) :
    s.transact (.write 0x00C 4 v) =
      .next (({ s with ctrl := { irqEn := v.getLsbD 0 } } : State).reply (.write .okay)) := transact_write rfl rfl

/-- Settles O22: the bits are those of `Status.toWord`, and the write is `Status.writeClear`, a mask on that word. -/
theorem statusRegister : Obligations.StatusRegister := by
  intro s v
  obtain ⟨hbusy, hdone, herr, hmulti, hcode⟩ := s.status.toWord_bits
  exact ⟨hbusy, hdone, herr, hmulti, hcode, s.status.writeClear v, transact_write_status s v,
    s.status.writeClear_toWord v⟩

/-- Settles O23: the bit of CTRL is IRQ_EN, and its write has no check. -/
theorem ctrlRegister : Obligations.CtrlRegister := by
  refine ⟨fun s v => ⟨?_, ⟨v.getLsbD 0⟩, transact_write_ctrl s v, rfl, Ctrl.toWord_write v⟩, by decide⟩
  rw [← Ctrl.toWord_eq]
  rfl

/-- Settles O30: the three inputs of irq are bits of the two words. -/
theorem irqLine : Obligations.IrqLine := by
  intro s
  obtain ⟨_, hdone, herr, _⟩ := s.status.toWord_bits
  rw [hdone, herr, Ctrl.toWord_bit0, State.irq]

/-! ## The buffers -/

theorem writeEffect_inOffset (s : State) (k : Fin 64) (v : Word) :
    s.writeEffect (inOffset k) v =
      if s.status.busy then .next (s.recordError .inWriteWhileBusy) else .next (s.writeIn k v) := by
  simp [State.writeEffect]

theorem writeEffect_outOffset (s : State) (k : Fin 64) (v : Word) : s.writeEffect (outOffset k) v = .next s := by
  simp [State.writeEffect]

theorem transact_write_inOffset (s : State) (k : Fin 64) (v : Word) :
    s.transact (.write (inOffset k) 4 v) =
      if s.status.busy then rejectedWith s 6 else .next ((s.writeIn k v).reply (.write .okay)) := by
  cases hb : s.status.busy with
  | true =>
    rw [transact_write (accessLegal_inOffset k) (by rw [writeEffect_inOffset, if_pos hb]), recordError_reply]
    rfl
  | false => exact transact_write (accessLegal_inOffset k) (by simp [writeEffect_inOffset, hb])

/-- Settles O24: a write of IN is `State.writeIn` or a refused write, by BUSY, and one of OUT has no effect. -/
theorem bufferWrites : Obligations.BufferWrites := by
  refine fun s k v => ⟨⟨(s.writeIn k v).reply (.write .okay), transact_write_inOffset s k v, rfl, fun j => ?_⟩,
    transact_write (accessLegal_outOffset k) (writeEffect_outOffset s k v)⟩
  simp [Vector.getElem_set, Fin.ext_iff, eq_comm]

theorem writeEffect_keeps_out {s t : State} {off : Nat} {v : Word} (h : s.writeEffect off v = .next t) :
    t.outBuf = s.outBuf ∧ t.outValid = s.outValid := by
  rcases writeEffect_cases h with ⟨e, rfl⟩ | ⟨i, _, _, _, _, rfl⟩ | ⟨_, rfl⟩ | ⟨_, rfl⟩ | ⟨i, _, _, rfl⟩ | rfl <;>
    exact ⟨rfl, rfl⟩

/-- No transaction writes OUT or its mark. -/
theorem transact_keeps_out {s t : State} {x : Transaction} (h : s.transact x = .next t) :
    t.outBuf = s.outBuf ∧ t.outValid = s.outValid := by
  rcases transact_cases h with ⟨_, _, _, _, hr⟩ | ⟨_, _, _, _, _, _, hw, rfl⟩ | ⟨r, rfl⟩
  · rcases readEffect_cases hr with ⟨v, rfl⟩ | rfl
    · exact ⟨rfl, rfl⟩
    · exact ⟨rfl, rfl⟩
  · exact (writeEffect_keeps_out hw :)
  · exact ⟨rfl, rfl⟩

/-- Settles O37: of the events of a step only a reset, which the statement leaves out, and a completion, which ends
with BUSY = 0, write OUT. -/
theorem outHeldBetweenCompletions : Obligations.OutHeldBetweenCompletions := by
  intro s t h hreset hbusy
  obtain ⟨x, rest, _, hx⟩ | ⟨rest, hin, _⟩ | ⟨i, hb, _, hi⟩ | ⟨_, rfl⟩ := step_event_cases h
  · exact (transact_keeps_out hx :)
  · exact absurd hin (hreset rest)
  · obtain ⟨out, rfl⟩ := exec_cases hi
    cases hbusy hb
  · exact ⟨rfl, rfl⟩

/-! ## Reset -/

/-- Settles O31: the state after reset is that of the reset event from itself, and what `State.resetEvent` leaves is
idle, so with no event before it the step changes nothing. -/
theorem resetState : Obligations.ResetState := by
  intro s t ht
  obtain ⟨u, rfl⟩ : ∃ u : State, t = u.resetEvent := by
    obtain rfl | ⟨rest, hin, hstep⟩ := ht
    · exact ⟨State.reset, rfl⟩
    · rw [step_reset hin] at hstep
      cases hstep
      exact ⟨_, rfl⟩
  have hstatus : State.reset.status.toWord = 0 := by decide
  have hctrl : State.reset.ctrl.toWord = 0 := by decide
  refine ⟨rfl, hstatus, hctrl, rfl, rfl, fun k => ?_, rfl, rfl, fun hin => step_nil_idle hin rfl⟩
  simp [State.reset]

end Sys2Proof.Machine
end

section
/-! SUPPORT. The window as the host meets it: its bytes, the access primitives, what a read answers and what a write
leaves at each register, and the remaining events of a step (20_memory.md R70 to R80). -/

namespace Sys2Proof.Machine

/-! ## The window's bytes -/

theorem peekByte_of_word (s : State) (k : Nat) {b : Nat} (hb : b < 4) :
    s.peekByte (4 * k + b) = (s.peek (4 * k)).extractLsb' (8 * b) 8 := by
  have hmod : (4 * k + b) % 4 = b := by omega
  rw [State.peekByte, hmod, Nat.add_sub_cancel]

theorem wordOfBytes_extract (w : Word) :
    wordOfBytes (w.extractLsb' 0 8) (w.extractLsb' 8 8) (w.extractLsb' 16 8) (w.extractLsb' 24 8) = w := by
  unfold wordOfBytes
  rw [BitVec.extractLsb'_append_extractLsb'_eq_extractLsb' (by rfl),
    BitVec.extractLsb'_append_extractLsb'_eq_extractLsb' (by rfl),
    BitVec.extractLsb'_append_extractLsb'_eq_extractLsb' (by rfl)]
  exact BitVec.extractLsb'_eq_self

@[simp] theorem peek_outOffset (s : State) (k : Fin 64) : s.peek (outOffset k) = s.outBuf[k] := by
  simp [State.peek]

theorem peekByte_outOffset (s : State) (k : Fin 64) {b : Nat} (hb : b < 4) :
    s.peekByte (outOffset k + b) = s.outBuf[k].extractLsb' (8 * b) 8 := by
  have hword : outOffset k = 4 * (0x80 + k.val) := by unfold outOffset; omega
  rw [hword, peekByte_of_word s _ hb, ← hword, peek_outOffset]

/-- Settles O29: a byte of the window is a field of the word it lies in, and the four fields cover the word. -/
theorem windowBytes : Obligations.WindowBytes := by
  refine ⟨fun s k => ⟨fun b => peekByte_of_word s k b.isLt, ?_⟩, fun s k hone => ?_⟩
  · have h0 := peekByte_of_word s k (b := 0) (by decide)
    rw [Nat.add_zero] at h0
    rw [h0, peekByte_of_word s k (by decide), peekByte_of_word s k (by decide), peekByte_of_word s k (by decide)]
    exact wordOfBytes_extract _
  · have byte (b : Nat) (hb : b < 4) :
        s.peekByte (0x200 + b + 4 * k.val) = (0x3F800000 : Word).extractLsb' (8 * b) 8 := by
      rw [← hone, ← peekByte_outOffset s k hb, outOffset, Nat.add_right_comm]
    exact ⟨byte 0 (by decide), byte 1 (by decide), byte 2 (by decide), byte 3 (by decide)⟩

/-! ## MemRead and MemWrite -/

theorem accessLegal_eq_false_iff (off size : Nat) :
    accessLegal off size = false ↔ size ≠ 4 ∨ off % 4 ≠ 0 ∨ 0x3FC < off := by
  simp [accessLegal, imp_iff_not_or, or_assoc]

theorem accessLegal_of_aligned {off : Nat} (hal : off % 4 = 0) (hle : off ≤ 0x3FC) : accessLegal off 4 = true := by
  simp [accessLegal, hal, hle]

theorem transact_read (s : State) {off size : Nat} (hl : accessLegal off size = true) :
    s.transact (.read off size) = s.readEffect off := by
  simp [State.transact, hl]

theorem transact_malformed (s : State) {off size : Nat} (v : Word) (hl : accessLegal off size = false) :
    s.transact (.read off size) = .next (s.reply (.read .error 0)) ∧
      s.transact (.write off size v) = .next (s.reply (.write .error)) := by
  simp [State.transact, hl]

/-- Settles O19: the condition is that of `accessLegal`, and a legal write answers OKAY unless its effect is a fault. -/
theorem accessPrimitives : Obligations.AccessPrimitives := by
  intro s off size v
  cases hl : accessLegal off size with
  | false =>
    have hbad := (accessLegal_eq_false_iff off size).mp hl
    rw [if_pos hbad, if_pos hbad]
    exact transact_malformed s v hl
  | true =>
    have hgood : ¬ (size ≠ 4 ∨ off % 4 ≠ 0 ∨ 0x3FC < off) := by simp [← accessLegal_eq_false_iff, hl]
    rw [if_neg hgood, if_neg hgood]
    refine ⟨transact_read s hl, ?_⟩
    cases hw : s.writeEffect off v <;> simp [State.transact, hl, hw, State.reply]

/-! ## What a read answers -/

theorem readEffect_inOffset (s : State) (k : Fin 64) :
    s.readEffect (inOffset k) = if s.inWritten[k] then s.answer s.inBuf[k] else s.answerFree := by
  simp [State.readEffect]

theorem readEffect_outOffset (s : State) (k : Fin 64) :
    s.readEffect (outOffset k) =
      if s.status.busy then s.answerFree
      else if s.outValid then s.answer s.outBuf[k]
      else .fault .unwrittenOut := by
  simp [State.readEffect]

/-- Settles O21: every read is of a legal access, so it is `State.readEffect` of its register. -/
theorem readsAnswer : Obligations.ReadsAnswer := fun s k =>
  ⟨transact_read s rfl, transact_read s rfl, transact_read s rfl,
    (transact_read s (accessLegal_inOffset k)).trans (readEffect_inOffset s k),
    (transact_read s (accessLegal_outOffset k)).trans (readEffect_outOffset s k)⟩

/-! ## Constants and reserved bits -/

theorem regAt_reserved {off : Nat} (hlow : 0x00C < off) (hgap : off < 0x100 ∨ 0x300 ≤ off) :
    regAt off = .reserved := by
  unfold regAt
  rw [if_neg (by omega), if_neg (by omega), if_neg (by omega), if_neg (by omega), if_neg (by omega),
    if_neg (by omega)]

theorem transact_reserved (s : State) (v : Word) {off : Nat} (hlow : 0x00C < off) (hgap : off < 0x100 ∨ 0x300 ≤ off)
    (hal : off % 4 = 0) (hle : off ≤ 0x3FC) :
    s.transact (.read off 4) = readAnswers s 0 ∧ s.transact (.write off 4 v) = writeIgnored s := by
  have hr := regAt_reserved hlow hgap
  have hl := accessLegal_of_aligned hal hle
  constructor
  · rw [transact_read s hl, State.readEffect, hr]
    rfl
  · exact transact_write hl (by rw [State.writeEffect, hr])

theorem Status.toWord_reserved (f : Status) : f.toWord &&& 0xFFFFF0F0 = 0 := by
  obtain ⟨b, d, e, m, c⟩ := f
  revert b d e m c
  decide

theorem Ctrl.toWord_reserved (c : Ctrl) : c.toWord &&& 0xFFFFFFFE = 0 := by
  obtain ⟨b⟩ := c
  cases b <;> rfl

theorem getLsbD_and_of_true {v mask : Word} {i : Nat} (h : mask.getLsbD i = true) :
    (v &&& mask).getLsbD i = v.getLsbD i := by
  rw [BitVec.getLsbD_and, h, Bool.and_true]

theorem Status.writeClear_and (f : Status) (v : Word) : f.writeClear (v &&& 0x00000006) = f.writeClear v := by
  rw [Status.writeClear, getLsbD_and_of_true rfl, getLsbD_and_of_true rfl, Status.writeClear]

/-- Settles O20: ID and the reserved offsets hold no state, and a write of STATUS or CTRL reads only bits of `v` that
the mask keeps. -/
theorem constantOffsets : Obligations.ConstantOffsets := by
  intro s v
  refine ⟨transact_read s rfl, transact_write rfl rfl, fun k => ?_, fun k => ?_, s.status.toWord_reserved,
    s.ctrl.toWord_reserved, ?_, ?_⟩
  · exact transact_reserved s v (by omega) (by omega) (by omega) (by omega)
  · exact transact_reserved s v (by omega) (by omega) (by omega) (by omega)
  · rw [transact_write_status, transact_write_status, Status.writeClear_and]
  · rw [transact_write_ctrl, transact_write_ctrl, getLsbD_and_of_true rfl]

/-! ## Writes done twice -/

theorem regAt_eq_cmd {off : Nat} (h : regAt off = .cmd) : off = 0x004 := by
  by_contra hne
  unfold regAt at h
  rw [if_neg hne] at h
  split_ifs at h

theorem Status.writeClear_twice (f : Status) (v : Word) : (f.writeClear v).writeClear v = f.writeClear v := by
  unfold Status.writeClear
  generalize v.getLsbD 2 = clearErr
  cases clearErr <;> simp

theorem State.writeIn_twice (s : State) (i : Fin 64) (v : Word) : (s.writeIn i v).writeIn i v = s.writeIn i v := by
  simp [State.writeIn]

/-- Settles O28, by the register at the offset: the write of STATUS, of CTRL or of an IN entry done twice is done once,
and one that is ignored leaves the state. -/
theorem idempotentWrites : Obligations.IdempotentWrites := by
  intro s t off v hcmd hin h
  cases hr : regAt off with
  | cmd => exact absurd (regAt_eq_cmd hr) hcmd
  | status =>
    rw [State.writeEffect, hr] at h ⊢
    cases h
    simp [Status.writeClear_twice]
  | ctrl =>
    rw [State.writeEffect, hr] at h ⊢
    cases h
    rfl
  | inEntry i =>
    have hb : s.status.busy = false := by
      by_contra hbusy
      exact hin (by simpa using hbusy) i hr
    simp only [State.writeEffect, hr, hb] at h ⊢
    cases h
    simp [hb, State.writeIn_twice]
  | id | outEntry _ | reserved => rw [State.writeEffect, hr]

/-! ## The remaining events of a step -/

theorem step_engine_idle {s : State} {rest : List Event} (h : s.inputs = .engine :: rest)
    (hb : s.status.busy = false) : step s = .next { s with inputs := rest } := by
  simp [step, State.nextEvent, State.engineTurn, h, hb]

/-- Settles O6, by the rule of each event. -/
theorem stepTakesEvents : Obligations.StepTakesEvents :=
  ⟨fun _ _ _ h => step_host h, fun _ _ h => step_reset h, fun _ _ h hb => step_engine_idle h hb,
    fun _ h hb => step_nil_idle h hb⟩

end Sys2Proof.Machine
end

section
/-! SUPPORT. The decoder, the bytes of a command, the 64-bit record and the submission of a command: what each reads, by
the fields of its word (30_encoding.md R100 to R117). -/

namespace Sys2Proof

open Sys2Proof.Machine

/-! ## The command word and its fields -/

theorem Instr.ofOp_opcode (i : Instr) : ∃ f, Instr.ofOp i.opcode = some f ∧ f i.rmode = i := by
  cases i <;> exact ⟨_, rfl, rfl⟩

theorem RMode.ofCode_code (m : RMode) : RMode.ofCode m.code = some m := by
  cases m <;> rfl

theorem Instr.ofOp_eq_none_iff (op : BitVec 5) :
    Instr.ofOp op = none ↔ op.toNat = 0 ∨ 0x0E ≤ op.toNat := by
  rw [← Option.isNone_iff_eq_none]
  revert op
  decide

theorem RMode.ofCode_eq_none_iff (c : BitVec 2) : RMode.ofCode c = none ↔ c.toNat = 3 := by
  revert c
  decide

theorem Instr.exists_ofOp {op : BitVec 5} (h : ¬ (op.toNat = 0 ∨ 0x0E ≤ op.toNat)) : ∃ f, Instr.ofOp op = some f :=
  Option.ne_none_iff_exists'.mp (mt (Instr.ofOp_eq_none_iff op).mp h)

theorem RMode.exists_ofCode {c : BitVec 2} (h : c.toNat ≠ 3) : ∃ m, RMode.ofCode c = some m :=
  Option.ne_none_iff_exists'.mp (mt (RMode.ofCode_eq_none_iff c).mp h)

theorem decodeCommand_encodeCommand (i : Instr) : decodeCommand (encodeCommand i) = .ok i := by
  obtain ⟨hop, hmode, hlow, hhigh⟩ := encodeCommand_fields i
  obtain ⟨f, hf, hi⟩ := i.ofOp_opcode
  simp [decodeCommand, hop, hmode, hlow, hhigh, hf, hi, RMode.ofCode_code]

theorem decodeCommand_eq_ok_iff {w : Word} {i : Instr} : decodeCommand w = .ok i ↔ w = encodeCommand i :=
  ⟨decodeCommand_ok, fun h => h ▸ decodeCommand_encodeCommand i⟩

/-! ## The three refusals, in their order -/

section

variable {w : Word}

theorem decodeCommand_reservedBits (h : w.extractLsb' 5 3 ≠ 0 ∨ w.extractLsb' 10 22 ≠ 0) :
    decodeCommand w = .error .reservedBits := if_pos h

variable (hres : ¬ (w.extractLsb' 5 3 ≠ 0 ∨ w.extractLsb' 10 22 ≠ 0))
include hres

theorem decodeCommand_illegalOp (hop : (w.extractLsb' 0 5).toNat = 0 ∨ 0x0E ≤ (w.extractLsb' 0 5).toNat) :
    decodeCommand w = .error .illegalOp := by
  rw [decodeCommand, if_neg hres, (Instr.ofOp_eq_none_iff _).mpr hop]

theorem decodeCommand_illegalRmode
    (hop : ¬ ((w.extractLsb' 0 5).toNat = 0 ∨ 0x0E ≤ (w.extractLsb' 0 5).toNat))
    (hmode : (w.extractLsb' 8 2).toNat = 3) : decodeCommand w = .error .illegalRmode := by
  obtain ⟨f, hf⟩ := Instr.exists_ofOp hop
  rw [decodeCommand, if_neg hres, hf, (RMode.ofCode_eq_none_iff _).mpr hmode]

/-- A word that no check refuses is a command. -/
theorem exists_decodeCommand_ok
    (hop : ¬ ((w.extractLsb' 0 5).toNat = 0 ∨ 0x0E ≤ (w.extractLsb' 0 5).toNat))
    (hmode : (w.extractLsb' 8 2).toNat ≠ 3) : ∃ i, decodeCommand w = .ok i := by
  obtain ⟨f, hf⟩ := Instr.exists_ofOp hop
  obtain ⟨m, hm⟩ := RMode.exists_ofCode hmode
  exact ⟨f m, by rw [decodeCommand, if_neg hres, hf, hm]⟩

end

theorem decodeCommand_eq_error_iff (w : Word) (e : CmdError) : decodeCommand w = .error e ↔
    e = .reservedBits ∧ (w.extractLsb' 5 3 ≠ 0 ∨ w.extractLsb' 10 22 ≠ 0) ∨
    e = .illegalOp ∧ w.extractLsb' 5 3 = 0 ∧ w.extractLsb' 10 22 = 0 ∧
      ((w.extractLsb' 0 5).toNat = 0 ∨ 0x0E ≤ (w.extractLsb' 0 5).toNat) ∨
    e = .illegalRmode ∧ w.extractLsb' 5 3 = 0 ∧ w.extractLsb' 10 22 = 0 ∧
      1 ≤ (w.extractLsb' 0 5).toNat ∧ (w.extractLsb' 0 5).toNat ≤ 0x0D ∧ (w.extractLsb' 8 2).toNat = 3 := by
  constructor
  · intro h
    by_cases hres : w.extractLsb' 5 3 ≠ 0 ∨ w.extractLsb' 10 22 ≠ 0
    · cases (decodeCommand_reservedBits hres).symm.trans h
      exact .inl ⟨rfl, hres⟩
    · obtain ⟨hlow, hhigh⟩ : w.extractLsb' 5 3 = 0 ∧ w.extractLsb' 10 22 = 0 := by simpa using hres
      by_cases hop : (w.extractLsb' 0 5).toNat = 0 ∨ 0x0E ≤ (w.extractLsb' 0 5).toNat
      · cases (decodeCommand_illegalOp hres hop).symm.trans h
        exact .inr (.inl ⟨rfl, hlow, hhigh, hop⟩)
      · by_cases hmode : (w.extractLsb' 8 2).toNat = 3
        · cases (decodeCommand_illegalRmode hres hop hmode).symm.trans h
          exact .inr (.inr ⟨rfl, hlow, hhigh, by omega, by omega, hmode⟩)
        · obtain ⟨i, hi⟩ := exists_decodeCommand_ok hres hop hmode
          cases hi.symm.trans h
  · rintro (⟨rfl, hres⟩ | ⟨rfl, hlow, hhigh, hop⟩ | ⟨rfl, hlow, hhigh, hge, hle, hmode⟩)
    · exact decodeCommand_reservedBits hres
    · exact decodeCommand_illegalOp (by simp [hlow, hhigh]) hop
    · exact decodeCommand_illegalRmode (by simp [hlow, hhigh]) (by omega) hmode

/-- The three field checks of 30_encoding.md R101, R103 and R104 together. -/
theorem exists_decodeCommand_ok_iff (w : Word) : (∃ i, decodeCommand w = .ok i) ↔ wfCommand w = true := by
  constructor
  · rintro ⟨i, hi⟩
    rw [decodeCommand_ok hi]
    exact wfCommand_encodeCommand i
  · intro h
    obtain ⟨⟨hres, hop⟩, hmode⟩ : (wfReserved w = true ∧ wfOp w = true) ∧ wfRmode w = true := by
      simpa [wfCommand] using h
    simp only [wfReserved, wfOp, wfRmode, Bool.and_eq_true, decide_eq_true_eq, beq_iff_eq] at hres hop hmode
    exact exists_decodeCommand_ok (by simp [hres]) (by omega) (by omega)

/-! ## The list of commands -/

theorem encodeCommand_eq_ofNat (i : Instr) :
    encodeCommand i = BitVec.ofNat 32 (256 * i.rmode.code.toNat + i.opcode.toNat) := by
  cases i <;> rename_i m <;> cases m <;> rfl

/-- Every operation code under every code of a policy is some instruction's. -/
theorem exists_instr_of_codes {op m : Nat} (hge : 1 ≤ op) (hle : op ≤ 13) (hm : m ≤ 2) :
    ∃ i : Instr, i.opcode.toNat = op ∧ i.rmode.code.toNat = m := by
  have hop : (BitVec.ofNat 5 op).toNat = op := by simp; omega
  have hmode : (BitVec.ofNat 2 m).toNat = m := by simp; omega
  obtain ⟨f, hf⟩ := Instr.exists_ofOp (op := BitVec.ofNat 5 op) (by omega)
  obtain ⟨p, hp⟩ := RMode.exists_ofCode (c := BitVec.ofNat 2 m) (by omega)
  obtain ⟨hcode, hpolicy⟩ := Instr.ofOp_some hf p
  exact ⟨f p, by rw [hcode, hop], by rw [hpolicy, RMode.ofCode_some hp, hmode]⟩

theorem encodeCommand_injective : Function.Injective encodeCommand := by
  intro i j h
  have hi := decodeCommand_encodeCommand i
  rw [h, decodeCommand_encodeCommand j] at hi
  cases hi
  rfl

theorem Instr.mem_allWith (i : Instr) : i ∈ Instr.allWith i.rmode := by
  cases i <;> simp [Instr.allWith, Instr.rmode]

theorem Instr.mem_all (i : Instr) : i ∈ Instr.all := by
  have h := i.mem_allWith
  cases hm : i.rmode <;> rw [hm] at h <;> simp [Instr.all, h]

/-- Settles O2: the legal words are the encodings, by their codes and by the field checks; a refusal is the first check
that fails; and encode is injective on the list, which holds every instruction. -/
theorem legalCommandWords : Obligations.LegalCommandWords := by
  refine ⟨fun w => ⟨?_, ?_⟩, exists_decodeCommand_ok_iff, decodeCommand_eq_error_iff,
    List.Nodup.map encodeCommand_injective (by decide), rfl, Instr.mem_all⟩
  · rintro ⟨i, hi⟩
    obtain ⟨hge, hle⟩ := i.opcode_bounds
    exact ⟨_, _, hge, hle, i.rmode.code_le, (decodeCommand_ok hi).trans (encodeCommand_eq_ofNat i)⟩
  · rintro ⟨op, m, hge, hle, hm, rfl⟩
    obtain ⟨i, rfl, rfl⟩ := exists_instr_of_codes hge hle hm
    exact ⟨i, decodeCommand_eq_ok_iff.mpr (encodeCommand_eq_ofNat i).symm⟩

/-! ## The bytes of a command -/

/-- The fields of a bit vector put together from four parts. -/
theorem append_fields {a b c d : Nat} (x : BitVec a) (y : BitVec b) (z : BitVec c) (u : BitVec d) :
    (x ++ y ++ z ++ u).extractLsb' 0 d = u ∧ (x ++ y ++ z ++ u).extractLsb' d c = z ∧
      (x ++ y ++ z ++ u).extractLsb' (d + c) b = y ∧ (x ++ y ++ z ++ u).extractLsb' (d + c + b) a = x := by
  refine ⟨BitVec.extractLsb'_append_eq_right, ?_, ?_, ?_⟩
  · simp [BitVec.extractLsb'_append_eq_of_le, BitVec.extractLsb'_append_eq_right]
  · simp [BitVec.extractLsb'_append_eq_of_le, BitVec.extractLsb'_append_eq_right]
  · simp [BitVec.extractLsb'_append_eq_of_le, Nat.add_assoc]

theorem wordBytes_wordOfBytes (b0 b1 b2 b3 : Byte) : wordBytes (wordOfBytes b0 b1 b2 b3) = [b0, b1, b2, b3] := by
  obtain ⟨h0, h1, h2, h3⟩ := append_fields b3 b2 b1 b0
  exact congrArg₂ _ h0 (congrArg₂ _ h1 (congrArg₂ _ h2 (congrArg₂ _ h3 rfl)))

/-- The first four bytes of a sequence are a word's, and the decoder decides by that word. -/
theorem decodeBytes_eq_ok_iff (bs rest : List Byte) (i : Instr) :
    decodeBytes bs = .ok (i, rest) ↔ ∃ w, bs = wordBytes w ++ rest ∧ decodeCommand w = .ok i := by
  constructor
  · intro h
    unfold decodeBytes at h
    split at h
    case h_2 => cases h
    case h_1 b0 b1 b2 b3 tail =>
      split at h
      · rename_i j hj
        cases h
        exact ⟨_, by rw [wordBytes_wordOfBytes]; rfl, hj⟩
      · cases h
  · rintro ⟨w, rfl, hi⟩
    simp [wordBytes, decodeBytes, wordOfBytes_extract, hi]

/-- Settles O1: the decoder reads the word of the first four bytes, and a word decodes to the instruction it encodes. -/
theorem decodeEncodeAgree : Obligations.DecodeEncodeAgree := by
  intro bs rest i
  simp only [decodeBytes_eq_ok_iff, decodeCommand_eq_ok_iff, exists_eq_right, encodeBytes]

theorem decodeBytes_encodeBytes (i : Instr) : decodeBytes (encodeBytes i) = .ok (i, []) :=
  (decodeEncodeAgree _ [] i).mpr (List.append_nil _).symm

/-- Settles O3: the bytes are those of the instruction the table names, so they decode to it. -/
theorem commandWordsRead : Obligations.CommandWordsRead :=
  ⟨decodeBytes_encodeBytes (.idctRefF64 .halfUp), decodeBytes_encodeBytes (.idctSepFix .halfEven),
    decodeBytes_encodeBytes (.idctLlm .halfAway), decodeBytes_encodeBytes (.fdctLlm .halfEven),
    decodeBytes_encodeBytes (.idctAanF32 .halfUp), decodeBytes_encodeBytes (.idctAp922 .halfAway)⟩

/-! ## The record of a transaction -/

/-- The record of 30_encoding.md R117 with its write bit, its offset and its value. -/
def recordWord (wr : BitVec 1) (off : BitVec 10) (v : Word) : BitVec 64 := wr ++ (0 : BitVec 21) ++ off ++ v

/-- The transactions that have a record, each with its one. -/
inductive IsRecord : BitVec 64 → Transaction → Prop
  | write (off : BitVec 10) (v : Word) : IsRecord (recordWord 1 off v) (.write off.toNat 4 v)
  | read (off : BitVec 10) : IsRecord (recordWord 0 off 0) (.read off.toNat 4)

theorem recordWord_fields (wr : BitVec 1) (off : BitVec 10) (v : Word) :
    (recordWord wr off v).extractLsb' 0 32 = v ∧ (recordWord wr off v).extractLsb' 32 10 = off ∧
      (recordWord wr off v).extractLsb' 42 21 = 0 ∧ (recordWord wr off v).extractLsb' 63 1 = wr :=
  append_fields wr (0 : BitVec 21) off v

theorem recordWord_of_fields {r : BitVec 64} (hzero : r.extractLsb' 42 21 = 0) :
    recordWord (r.extractLsb' 63 1) (r.extractLsb' 32 10) (r.extractLsb' 0 32) = r := by
  rw [recordWord, ← hzero, BitVec.extractLsb'_append_extractLsb'_eq_extractLsb' (by rfl),
    BitVec.extractLsb'_append_extractLsb'_eq_extractLsb' (by rfl),
    BitVec.extractLsb'_append_extractLsb'_eq_extractLsb' (by rfl)]
  exact BitVec.extractLsb'_eq_self

theorem decodeRecord_eq_some_iff {r : BitVec 64} {t : Transaction} : decodeRecord r = some t ↔ IsRecord r t := by
  constructor
  · intro h
    simp only [decodeRecord] at h
    split at h
    · cases h
    · rename_i hzero
      rw [← recordWord_of_fields (not_not.mp hzero)]
      split at h
      · rename_i hwr
        cases h
        rw [hwr]
        exact .write _ _
      · rename_i hwr
        split at h
        · rename_i hv
          cases h
          rw [(BitVec.eq_zero_or_eq_one _).resolve_right hwr, hv]
          exact .read _
        · cases h
  · rintro (⟨off, v⟩ | ⟨off⟩)
    · obtain ⟨hv, hoff, hzero, hwr⟩ := recordWord_fields 1 off v
      simp only [decodeRecord, hv, hoff, hzero, hwr]
      rfl
    · obtain ⟨hv, hoff, hzero, hwr⟩ := recordWord_fields 0 off 0
      simp only [decodeRecord, hv, hoff, hzero, hwr]
      rfl

/-- A transaction of 4 bytes at an offset of 10 bits is written as its record. -/
theorem encodeRecord_eq_some_iff {r : BitVec 64} {t : Transaction} : encodeRecord t = some r ↔ IsRecord r t := by
  constructor
  · intro h
    cases t with
    | read off size =>
      obtain ⟨⟨rfl, hoff⟩, hr⟩ := Option.ite_none_right_eq_some.mp h
      cases hr
      have hrecord := IsRecord.read (BitVec.ofNat 10 off)
      rwa [BitVec.toNat_ofNat, Nat.mod_eq_of_lt hoff] at hrecord
    | write off size v =>
      obtain ⟨⟨rfl, hoff⟩, hr⟩ := Option.ite_none_right_eq_some.mp h
      cases hr
      have hrecord := IsRecord.write (BitVec.ofNat 10 off) v
      rwa [BitVec.toNat_ofNat, Nat.mod_eq_of_lt hoff] at hrecord
  · rintro (⟨off, v⟩ | ⟨off⟩)
    · rw [encodeRecord, if_pos ⟨rfl, off.isLt⟩, BitVec.ofNat_toNat, BitVec.setWidth_eq]
      rfl
    · rw [encodeRecord, if_pos ⟨rfl, off.isLt⟩, BitVec.ofNat_toNat, BitVec.setWidth_eq]
      rfl

/-- Settles O4: the words read as a transaction and those written for it are both its record. -/
theorem recordRoundTrip : Obligations.RecordRoundTrip := fun _ _ =>
  decodeRecord_eq_some_iff.trans encodeRecord_eq_some_iff.symm

/-! ## The submission of a command -/

theorem allWritten_eq_false_iff (s : State) : s.allWritten = false ↔ ∃ k : Fin 64, s.inWritten[k] = false := by
  simp [State.allWritten, Fin.exists_iff]

theorem samplesLegal_eq_false_iff (s : State) :
    s.samplesLegal = false ↔ ∃ k : Fin 64, s.inBuf[k].extractLsb' 8 24 ≠ 0 := by
  simp [State.samplesLegal, sampleLegal, Fin.exists_iff]

theorem Instr.isForward_iff_opcode (i : Instr) : i.isForward = true ↔ i.opcode = 0x03 ∨ i.opcode = 0x0A := by
  cases i <;> simp [Instr.isForward, Instr.opcode]

theorem decodeCommand_fields {w : Word} {i : Instr} (h : decodeCommand w = .ok i) :
    i.opcode = w.extractLsb' 0 5 ∧ i.rmode.code = w.extractLsb' 8 2 := by
  obtain ⟨hop, hmode, _, _⟩ := encodeCommand_fields i
  rw [decodeCommand_ok h]
  exact ⟨hop.symm, hmode.symm⟩

theorem decodeCommand_isForward {w : Word} {i : Instr} (h : decodeCommand w = .ok i) :
    i.isForward = true ↔ w.extractLsb' 0 5 = 0x03 ∨ w.extractLsb' 0 5 = 0x0A := by
  rw [i.isForward_iff_opcode, (decodeCommand_fields h).1]

theorem transact_cmd_next {s t : State} {w : Word} (h : s.submit w = .next t) :
    s.transact (.write 0x004 4 w) = .next (t.reply (.write .okay)) :=
  transact_write (off := 0x004) rfl h

theorem transact_cmd_rejected {s : State} {w : Word} {e : CmdError} (h : s.submit w = .next (s.recordError e)) :
    s.transact (.write 0x004 4 w) = rejectedWith s e.code :=
  (transact_cmd_next h).trans (recordError_reply s e)

theorem transact_cmd_fault {s : State} {w : Word} {f : Fault} (h : s.submit w = .fault f) :
    s.transact (.write 0x004 4 w) = .fault f := by
  have hw : s.writeEffect 0x004 w = .fault f := h
  simp [State.transact, hw, accessLegal]

section

variable {s : State} {w : Word}

theorem submit_busy (hb : s.status.busy = true) : s.submit w = .next (s.recordError .cmdWhileBusy) := if_pos hb

variable (hb : ¬ s.status.busy = true)
include hb

theorem submit_undecoded {e : CmdError} (he : decodeCommand w = .error e) :
    s.submit w = .next (s.recordError e) := by
  rw [State.submit, if_neg hb, he]

variable {i : Instr} (hi : decodeCommand w = .ok i)
include hi

theorem submit_unwritten (hw : s.allWritten = false) : s.submit w = .fault .unwrittenIn := by
  simp [State.submit, hb, hi, hw]

variable (hw : ¬ s.allWritten = false)
include hw

theorem submit_sampleRange (hf : i.isForward = true) (hs : s.samplesLegal = false) :
    s.submit w = .next (s.recordError .sampleRange) := by
  simp [State.submit, hb, hi, hw, hf, hs]

theorem submit_accepted (hs : ¬ (i.isForward = true ∧ s.samplesLegal = false)) :
    s.submit w = .next (s.accept w i) := by
  simp [State.submit, hb, hi, hw, hs]

end

/-- Settles O25: the conditions are those of the submission, so each branch is one of its rules. -/
theorem submissionOrder : Obligations.SubmissionOrder := by
  refine fun s w => ⟨?_, fun i hi => decodeCommand_fields hi⟩
  have hopZero : w.extractLsb' 0 5 = 0x00 ↔ (w.extractLsb' 0 5).toNat = 0 := BitVec.toNat_inj.symm
  have hmodeThree : w.extractLsb' 8 2 = 3 ↔ (w.extractLsb' 8 2).toNat = 3 := BitVec.toNat_inj.symm
  simp only [hopZero, hmodeThree, ← allWritten_eq_false_iff, ← samplesLegal_eq_false_iff]
  split_ifs with hbusy hres hop hmode hmark hsample
  · exact transact_cmd_rejected (submit_busy hbusy)
  · exact transact_cmd_rejected (submit_undecoded hbusy (decodeCommand_reservedBits hres))
  · exact transact_cmd_rejected (submit_undecoded hbusy (decodeCommand_illegalOp hres hop))
  · exact transact_cmd_rejected (submit_undecoded hbusy (decodeCommand_illegalRmode hres hop hmode))
  all_goals
    obtain ⟨i, hi⟩ := exists_decodeCommand_ok hres hop hmode
    have hforward := decodeCommand_isForward hi
  · exact transact_cmd_fault (submit_unwritten hbusy hi hmark)
  · obtain ⟨hf, hs⟩ := hsample
    exact transact_cmd_rejected (submit_sampleRange hbusy hi hmark (hforward.mpr hf) hs)
  · rw [hi]
    exact transact_cmd_next (submit_accepted hbusy hi hmark (mt (.imp_left hforward.mp) hsample))

end Sys2Proof
end

section
/-! SUPPORT. Rounding to an integer and the bytes of an inverse operation (40_numeric_common.md R137 to R139, R150), and
what the result block of an operation is a function of (R143). -/

namespace Sys2Proof.Machine

/-! ## RoundInt -/

/-- RoundInt takes the floor or the next integer, whichever is not further than 1/2. -/
theorem roundInt_cases (m : RMode) (q : Rat) :
    roundInt m q = q.floor ∧ q - q.floor ≤ 1 / 2 ∨ roundInt m q = q.floor + 1 ∧ 1 / 2 ≤ q - q.floor := by
  dsimp only [roundInt]
  by_cases hlt : q - q.floor < 1 / 2
  · rw [if_pos hlt]
    exact .inl ⟨rfl, hlt.le⟩
  · by_cases hgt : 1 / 2 < q - q.floor
    · rw [if_neg hlt, if_pos hgt]
      exact .inr ⟨rfl, hgt.le⟩
    · rw [if_neg hlt, if_neg hgt]
      have tie : ∀ z : Int, z = q.floor ∨ z = q.floor + 1 →
          z = q.floor ∧ q - q.floor ≤ 1 / 2 ∨ z = q.floor + 1 ∧ 1 / 2 ≤ q - q.floor :=
        fun z hz => hz.imp (⟨·, not_lt.mp hgt⟩) (⟨·, not_lt.mp hlt⟩)
      cases m with
      | halfAway => exact tie _ (ite_eq_or_eq _ _ _).symm
      | halfUp => exact tie _ (.inr rfl)
      | halfEven => exact tie _ (ite_eq_or_eq _ _ _)

theorem abs_roundInt_sub_le (m : RMode) (q : Rat) : |(roundInt m q : Rat) - q| ≤ 1 / 2 := by
  have hfloor : (q.floor : Rat) ≤ q := Int.floor_le q
  have hnext : q < q.floor + 1 := Int.lt_floor_add_one q
  rw [abs_le]
  rcases roundInt_cases m q with ⟨h, hle⟩ | ⟨h, hle⟩ <;> rw [h]
  · constructor <;> linarith
  · push_cast
    constructor <;> linarith

/-- A value less than 1/2 away from an integer rounds to it, under every policy. -/
theorem roundInt_eq_of_abs_sub_lt {m : RMode} {q : Rat} {z : Int} (h : |q - z| < 1 / 2) : roundInt m q = z := by
  have hround := abs_roundInt_sub_le m q
  have hdist : |((roundInt m q - z : Int) : Rat)| < 1 := by
    calc |((roundInt m q - z : Int) : Rat)| = |((roundInt m q : Rat) - q) + (q - z)| := by push_cast; ring_nf
      _ ≤ |(roundInt m q : Rat) - q| + |q - z| := abs_add_le _ _
      _ < 1 := by linarith
  have hint : |roundInt m q - z| < 1 := by exact_mod_cast hdist
  exact sub_eq_zero.mp (Int.abs_lt_one_iff.mp hint)

/-- Values less than 1 apart round to integers at most 1 apart. -/
theorem abs_roundInt_sub_roundInt_le {m : RMode} {p q : Rat} (h : |p - q| < 1) :
    |roundInt m p - roundInt m q| ≤ 1 := by
  have hp := abs_le.mp (abs_roundInt_sub_le m p)
  have hq := abs_le.mp (abs_roundInt_sub_le m q)
  have hpq := abs_lt.mp h
  have hdist : |((roundInt m p - roundInt m q : Int) : Rat)| < 2 := by
    rw [abs_lt]
    push_cast
    constructor <;> linarith [hp.1, hp.2, hq.1, hq.2, hpq.1, hpq.2]
  have hint : |roundInt m p - roundInt m q| < 2 := by exact_mod_cast hdist
  omega

theorem floor_int_add_half (f : Int) : ((f : Rat) + 1 / 2).floor = f :=
  show ⌊(f : Rat) + 1 / 2⌋ = f from Int.floor_eq_iff.mpr ⟨by linarith, by linarith⟩

/-- At a tie the policy decides. -/
theorem roundInt_tie (m : RMode) (f : Int) :
    roundInt m ((f : Rat) + 1 / 2) =
      match m with
      | .halfAway => if 0 ≤ f then f + 1 else f
      | .halfUp => f + 1
      | .halfEven => if f % 2 = 0 then f else f + 1 := by
  have hpos : 0 < (f : Rat) + 1 / 2 ↔ 0 ≤ f := by
    constructor
    · intro h
      by_contra hneg
      have : (f : Rat) ≤ -1 := by exact_mod_cast Int.le_sub_one_of_lt (not_le.mp hneg)
      linarith
    · intro h
      have : (0 : Rat) ≤ f := by exact_mod_cast h
      linarith
  dsimp only [roundInt]
  rw [floor_int_add_half, add_sub_cancel_left, if_neg (lt_irrefl _), if_neg (lt_irrefl _)]
  cases m with
  | halfAway => exact if_congr hpos rfl rfl
  | halfUp => rfl
  | halfEven => rfl

/-- HALF_UP is the floor of the value plus 1/2. -/
theorem roundInt_halfUp (q : Rat) : roundInt .halfUp q = (q + 1 / 2).floor := by
  have hfloor : (q.floor : Rat) ≤ q := Int.floor_le q
  have hnext : q < q.floor + 1 := Int.lt_floor_add_one q
  refine (show ⌊q + 1 / 2⌋ = roundInt .halfUp q from Int.floor_eq_iff.mpr ?_).symm
  dsimp only [roundInt]
  split_ifs with hlt hgt <;> push_cast <;> constructor <;> linarith

/-! ## Clamp and Finalize -/

theorem clamp_eq_max_min (z : Int) : clamp 0 255 z = max 0 (min 255 z) := by
  unfold clamp
  split_ifs <;> omega

theorem clamp_of_nonpos {z : Int} (h : z ≤ 0) : clamp 0 255 z = 0 := by
  rw [clamp_eq_max_min]
  omega

theorem finalize_eq (m : RMode) (q : Rat) : finalize m q = max 0 (min 255 (roundInt m q + 128)) :=
  clamp_eq_max_min _

/-- Finalize of a finite float is Finalize of its exact value. -/
theorem finalizeFlt_of_isFinite {P : Precision} (m : RMode) {x : Flt P} (h : x.isFinite = true) :
    finalizeFlt m x = finalize m x.val := by
  cases x with
  | fin s n q => rfl
  | nan => cases h
  | inf s => cases h

/-- Finalize answers a byte, whatever the float is. -/
theorem finalizeFlt_bounds {P : Precision} (m : RMode) (x : Flt P) :
    0 ≤ finalizeFlt m x ∧ finalizeFlt m x ≤ 255 := by
  cases x with
  | fin s n q =>
    rw [finalizeFlt_of_isFinite m rfl, finalize_eq]
    omega
  | nan => simp [finalizeFlt]
  | inf s => cases s <;> simp [finalizeFlt]

/-- HALF_UP with the shift and the clamp is truncation of the value plus 128.5. -/
theorem clamp_roundInt_halfUp (v : Rat) :
    clamp 0 255 (roundInt .halfUp v + 128) =
      clamp 0 255 (if 0 ≤ v + 257 / 2 then (v + 257 / 2).floor else (v + 257 / 2).ceil) := by
  have hshift : (v + 257 / 2).floor = roundInt .halfUp v + 128 := by
    rw [roundInt_halfUp, show v + 257 / 2 = v + 1 / 2 + (128 : Int) by push_cast; ring]
    exact Int.floor_add_intCast (v + 1 / 2) 128
  split_ifs with hsign
  · rw [hshift]
  · have hneg : v + 257 / 2 < 0 := not_le.mp hsign
    have hfloor : ⌊v + 257 / 2⌋ ≤ 0 := Int.floor_nonpos hneg.le
    have hceil : (v + 257 / 2).ceil ≤ 0 := Rat.ceil_le_iff.mpr (by exact_mod_cast hneg.le)
    rw [clamp_of_nonpos (hshift ▸ hfloor), clamp_of_nonpos hceil]

/-- Settles O40: the distance, the three ties, and HALF_UP as truncation after the shift. -/
theorem roundIntPolicy : Obligations.RoundIntPolicy :=
  ⟨abs_roundInt_sub_le, fun f => ⟨roundInt_tie .halfAway f, roundInt_tie .halfUp f, roundInt_tie .halfEven f⟩,
    clamp_roundInt_halfUp⟩

/-- Settles O41: Finalize by its clamp, and its values at the three data that have none. -/
theorem finalizeSaturates : Obligations.FinalizeSaturates := by
  refine ⟨finalize_eq, fun P m => ⟨fun x hx => ?_, rfl, rfl, rfl⟩⟩
  rw [finalizeFlt_of_isFinite m hx, finalize_eq]

/-! ## The result block of an operation -/

theorem byteWord_toNat {b : Int} (h0 : 0 ≤ b) (h255 : b ≤ 255) : ((byteWord b).toNat : Int) = b := by
  rw [byteWord, BitVec.toNat_ofNat]
  omega

theorem bytesOut_getElem {P : Precision} (m : RMode) (r : Block (Flt P)) (k : Fin 64) :
    (bytesOut m r)[k] = byteWord (finalizeFlt m r[k]) := by
  simp [bytesOut]

theorem bytesOutExact_getElem (m : RMode) (r : Block Rat) (k : Fin 64) :
    (bytesOutExact m r)[k] = byteWord (finalize m r[k]) := by
  simp [bytesOutExact]

theorem bytesOut_le {P : Precision} (m : RMode) (r : Block (Flt P)) (k : Fin 64) : (bytesOut m r)[k].toNat ≤ 255 := by
  have hbounds := finalizeFlt_bounds m r[k]
  have hbyte := byteWord_toNat hbounds.1 hbounds.2
  rw [bytesOut_getElem]
  omega

theorem bytesOutExact_le (m : RMode) (r : Block Rat) (k : Fin 64) : (bytesOutExact m r)[k].toNat ≤ 255 := by
  have hbyte := byteWord_toNat (b := finalize m r[k]) (by rw [finalize_eq]; omega) (by rw [finalize_eq]; omega)
  rw [bytesOutExact_getElem]
  rw [finalize_eq] at *
  omega

/-- The block an instruction writes for the contents of IN, by its unit's evaluation (40_numeric_common.md R143). -/
def resultBlock : Instr → Block Word → Block Word
  | .idctRefF32 m, b => bytesOut m (evalIdctRef .binary32 (coeffBlock b))
  | .idctRefF64 m, b => bytesOut m (evalIdctRef .binary64 (coeffBlock b))
  | .fdctRef _, b => floatsOut (evalFdctRef (sampleBlock b))
  | .idctSep m, b => bytesOut m (evalSep plainF32 (coeffBlock b))
  | .idctSepSym2 m, b => bytesOut m (evalSep sym2F32 (coeffBlock b))
  | .idctSepSym4 m, b => bytesOut m (evalSep sym4F32 (coeffBlock b))
  | .idctSepSym8 m, b => bytesOut m (evalSep sym8F32 (coeffBlock b))
  | .idctSepFix m, b => bytesOutExact m (evalIdctSepFix Config.fixScale m (coeffBlock b))
  | .idctLlm m, b => bytesOut m (evalIdctLlm (coeffBlock b))
  | .fdctLlm _, b => floatsOut (evalFdctLlm (sampleBlock b))
  | .idctAanF32 m, b => bytesOut m (evalIdctAan .binary32 (coeffBlock b))
  | .idctAanF64 m, b => bytesOut m (evalIdctAan .binary64 (coeffBlock b))
  | .idctAp922 m, b => bytesOut m (evalIdctAp922 (coeffBlock b))

theorem exec_eq_complete (i : Instr) (s : State) : exec i s = .next (s.complete (resultBlock i s.inBuf)) := by
  cases i <;> rfl

theorem outBuf_of_exec {i : Instr} {s t : State} (h : exec i s = .next t) : t.outBuf = resultBlock i s.inBuf := by
  rw [exec_eq_complete] at h
  injection h with h
  exact h ▸ rfl

theorem resultBlock_le {i : Instr} (hi : i.isForward = false) (b : Block Word) (k : Fin 64) :
    (resultBlock i b)[k].toNat ≤ 255 := by
  cases i with
  | fdctRef m => cases hi
  | fdctLlm m => cases hi
  | idctSepFix m => exact bytesOutExact_le _ _ _
  | _ => exact bytesOut_le _ _ _

/-- Two forward commands of one operation code compute one function of the sample block. -/
theorem resultBlock_forward {i i' : Instr} (hi : i.isForward = true) (ho : i.opcode = i'.opcode) {b b' : Block Word}
    (hb : sampleBlock b = sampleBlock b') : resultBlock i b = resultBlock i' b' := by
  cases i with
  | fdctRef m => cases i' with
    | fdctRef m' => exact congrArg (fun x => floatsOut (evalFdctRef x)) hb
    | _ => cases ho
  | fdctLlm m => cases i' with
    | fdctLlm m' => exact congrArg (fun x => floatsOut (evalFdctLlm x)) hb
    | _ => cases ho
  | _ => cases hi

theorem sampleBlock_congr {b b' : Block Word} (h : ∀ k : Fin 64, b[k].extractLsb' 0 8 = b'[k].extractLsb' 0 8) :
    sampleBlock b = sampleBlock b' := by
  refine Vector.ext fun k hk => ?_
  simp only [sampleBlock, Vector.getElem_map, sample]
  exact congrArg (fun x : BitVec 8 => (x.toNat : Int)) (h ⟨k, hk⟩)

/-- Settles O17: every inverse operation writes bytes of Finalize, whose clamp has the three cases. -/
theorem outputsAreBytes : Obligations.OutputsAreBytes := by
  refine ⟨fun i s t hi h k => ?_, fun m q => ?_⟩
  · rw [outBuf_of_exec h]
    exact resultBlock_le hi _ k
  · rw [finalize_eq]
    omega

/-- Settles O18: OUT is `resultBlock` of the instruction and IN, and of the samples alone for a forward one. -/
theorem resultDependsOnInput : Obligations.ResultDependsOnInput := by
  refine ⟨fun i s s' t t' hin h h' => ?_, fun i i' s s' t t' hi ho hb h h' => ?_⟩
  · rw [outBuf_of_exec h, outBuf_of_exec h', hin]
  · rw [outBuf_of_exec h, outBuf_of_exec h']
    exact resultBlock_forward hi ho (sampleBlock_congr hb)

end Sys2Proof.Machine
end

section
/-! SUPPORT. The interchange encodings: a bit pattern and its three fields determine each other, and so do the fields
and the datum (40_numeric_common.md R131). -/

namespace Sys2Proof.Machine

theorem Precision.two_pow_expBits (P : Precision) : 2 ^ P.expBits = P.maxStep + 3 := by cases P <;> rfl

theorem Precision.two_pow_sigBits (P : Precision) : 2 ^ P.sigBits = 2 * 2 ^ (P.sigBits - 1) := by cases P <;> rfl

theorem Precision.two_pow_pred_sigBits (P : Precision) : 2 ^ (P.sigBits - 1) = 2 * 2 ^ (P.sigBits - 2) := by
  cases P <;> rfl

theorem Flt.canonical_fin {P : Precision} {s : Bool} {m q : Nat} :
    (Flt.fin s m q : Flt P).Canonical = true ↔
      m < 2 ^ P.sigBits ∧ q ≤ P.maxStep ∧ (q = 0 ∨ 2 ^ (P.sigBits - 1) ≤ m) := by
  simp [Flt.Canonical, and_assoc]

/-- The bit pattern of a sign, an exponent field and a fraction. -/
def fieldBits (P : Precision) (neg : Bool) (field frac : Nat) : Nat :=
  (neg.toNat * 2 ^ P.expBits + field) * 2 ^ (P.sigBits - 1) + frac

/-- The datum of a sign, an exponent field and a fraction. -/
def Flt.ofFields (P : Precision) (neg : Bool) (field frac : Nat) : Flt P :=
  if field = 0 then .fin neg frac 0
  else if field = 2 ^ P.expBits - 1 then (if frac = 0 then .inf neg else .nan)
  else .fin neg (frac + 2 ^ (P.sigBits - 1)) (field - 1)

section

variable (P : Precision) (neg : Bool) {field frac : Nat} (hfield : field < 2 ^ P.expBits)
  (hfrac : frac < 2 ^ (P.sigBits - 1))
include hfield hfrac

theorem ofBits_fieldBits : Flt.ofBits P (fieldBits P neg field frac) = Flt.ofFields P neg field frac := by
  have hlow : fieldBits P neg field frac % 2 ^ (P.sigBits - 1) = frac := by
    rw [fieldBits, Nat.mul_add_mod_self_right, Nat.mod_eq_of_lt hfrac]
  have hhigh : fieldBits P neg field frac / 2 ^ (P.sigBits - 1) = neg.toNat * 2 ^ P.expBits + field := by
    rw [fieldBits, Nat.mul_comm, Nat.mul_add_div (by positivity), Nat.div_eq_of_lt hfrac, add_zero]
  have hsplit : P.sigBits + P.expBits - 1 = P.sigBits - 1 + P.expBits := by cases P <;> rfl
  have hmid : (neg.toNat * 2 ^ P.expBits + field) % 2 ^ P.expBits = field := by
    rw [Nat.mul_add_mod_self_right, Nat.mod_eq_of_lt hfield]
  have htop : (neg.toNat * 2 ^ P.expBits + field) / 2 ^ P.expBits = neg.toNat := by
    rw [Nat.mul_comm, Nat.mul_add_div (by positivity), Nat.div_eq_of_lt hfield, add_zero]
  have hsign : (neg.toNat % 2 == 1) = neg := by cases neg <;> rfl
  dsimp only [Flt.ofBits]
  rw [Nat.shiftRight_eq_div_pow, Nat.shiftRight_eq_div_pow, hsplit, pow_add, ← Nat.div_div_eq_div_mul, hhigh, hlow,
    hmid, htop, hsign]
  rfl

theorem fieldBits_lt : fieldBits P neg field frac < 2 ^ (P.sigBits + P.expBits) := by
  have hsign : neg.toNat ≤ 1 := neg.toNat_le
  have hsplit : 2 ^ (P.sigBits + P.expBits) = 2 * 2 ^ P.expBits * 2 ^ (P.sigBits - 1) := by cases P <;> rfl
  calc fieldBits P neg field frac
      < (neg.toNat * 2 ^ P.expBits + field) * 2 ^ (P.sigBits - 1) + 2 ^ (P.sigBits - 1) := by
        unfold fieldBits; omega
    _ = (neg.toNat * 2 ^ P.expBits + (field + 1)) * 2 ^ (P.sigBits - 1) := by ring
    _ ≤ (1 * 2 ^ P.expBits + 2 ^ P.expBits) * 2 ^ (P.sigBits - 1) := by gcongr; omega
    _ = 2 ^ (P.sigBits + P.expBits) := by rw [hsplit]; ring

theorem canonical_ofFields : (Flt.ofFields P neg field frac).Canonical = true := by
  have hsig := P.two_pow_sigBits
  have hexp := P.two_pow_expBits
  unfold Flt.ofFields
  split_ifs with hzero htop hfrac0
  · exact Flt.canonical_fin.mpr ⟨by omega, Nat.zero_le _, .inl rfl⟩
  · rfl
  · rfl
  · exact Flt.canonical_fin.mpr ⟨by omega, by omega, .inr (by omega)⟩

end

theorem toBits_eq {P : Precision} (x : Flt P) :
    x.toBits = x.signBit.toNat * 2 ^ P.expBits * 2 ^ (P.sigBits - 1) + x.magBits := by
  have hsplit : 2 ^ (P.sigBits + P.expBits - 1) = 2 ^ P.expBits * 2 ^ (P.sigBits - 1) := by cases P <;> rfl
  rw [Flt.toBits, hsplit]
  cases x.signBit <;> simp

theorem toBits_ofFields {P : Precision} {neg : Bool} {field frac : Nat} (h : Flt.ofFields P neg field frac ≠ .nan) :
    (Flt.ofFields P neg field frac).toBits = fieldBits P neg field frac := by
  rw [toBits_eq, fieldBits]
  unfold Flt.ofFields at h ⊢
  split_ifs at h ⊢ with hzero htop hfrac0
  · simp only [Flt.signBit, Flt.magBits, hzero]
    ring
  · simp only [Flt.signBit, Flt.magBits, htop, hfrac0]
    ring
  · exact absurd rfl h
  · obtain ⟨step, rfl⟩ := Nat.exists_eq_succ_of_ne_zero hzero
    simp only [Flt.signBit, Flt.magBits, Nat.succ_eq_add_one, Nat.add_sub_cancel]
    ring

/-- Every bit pattern of the format's width is that of its fields. -/
theorem exists_fieldBits (P : Precision) {b : Nat} (hb : b < 2 ^ (P.sigBits + P.expBits)) :
    ∃ neg field frac, field < 2 ^ P.expBits ∧ frac < 2 ^ (P.sigBits - 1) ∧ b = fieldBits P neg field frac := by
  have hsplit : 2 ^ (P.sigBits + P.expBits) = 2 ^ (P.sigBits - 1) * (2 ^ P.expBits * 2) := by cases P <;> rfl
  have hhigh : b / 2 ^ (P.sigBits - 1) / 2 ^ P.expBits < 2 :=
    Nat.div_lt_of_lt_mul (Nat.div_lt_of_lt_mul (hsplit ▸ hb))
  refine ⟨decide (b / 2 ^ (P.sigBits - 1) / 2 ^ P.expBits = 1), b / 2 ^ (P.sigBits - 1) % 2 ^ P.expBits,
    b % 2 ^ (P.sigBits - 1), Nat.mod_lt _ (by positivity), Nat.mod_lt _ (by positivity), ?_⟩
  have hsign : (decide (b / 2 ^ (P.sigBits - 1) / 2 ^ P.expBits = 1)).toNat =
      b / 2 ^ (P.sigBits - 1) / 2 ^ P.expBits := by
    interval_cases b / 2 ^ (P.sigBits - 1) / 2 ^ P.expBits <;> rfl
  rw [fieldBits, hsign, Nat.div_add_mod', Nat.div_add_mod']

/-- Every canonical datum but NaN is that of its fields. -/
theorem exists_ofFields {P : Precision} {x : Flt P} (hx : x.Canonical = true) (hnan : x ≠ .nan) :
    ∃ neg field frac, field < 2 ^ P.expBits ∧ frac < 2 ^ (P.sigBits - 1) ∧ x = Flt.ofFields P neg field frac := by
  have hsig := P.two_pow_sigBits
  have hexp := P.two_pow_expBits
  cases x with
  | nan => exact absurd rfl hnan
  | inf s => exact ⟨s, 2 ^ P.expBits - 1, 0, by omega, by positivity, by simp [Flt.ofFields, hexp]⟩
  | fin s m q =>
    obtain ⟨hm, hq, hnormal⟩ := Flt.canonical_fin.mp hx
    by_cases hsmall : m < 2 ^ (P.sigBits - 1)
    · obtain rfl : q = 0 := hnormal.resolve_right (not_le.mpr hsmall)
      exact ⟨s, 0, m, by positivity, hsmall, by simp [Flt.ofFields]⟩
    · refine ⟨s, q + 1, m - 2 ^ (P.sigBits - 1), by omega, by omega, ?_⟩
      rw [Flt.ofFields, if_neg (by omega), if_neg (by omega), Nat.sub_add_cancel (not_lt.mp hsmall),
        Nat.add_sub_cancel]

/-- Settles O43: both directions go through the three fields. -/
theorem floatEncoding : Obligations.FloatEncoding := by
  refine fun P => ⟨fun x hx hnan => ?_, fun b hb => ?_⟩
  · obtain ⟨neg, field, frac, hfield, hfrac, rfl⟩ := exists_ofFields hx hnan
    rw [toBits_ofFields hnan]
    exact ⟨fieldBits_lt P neg hfield hfrac, ofBits_fieldBits P neg hfield hfrac⟩
  · obtain ⟨neg, field, frac, hfield, hfrac, rfl⟩ := exists_fieldBits P hb
    rw [ofBits_fieldBits P neg hfield hfrac]
    exact ⟨canonical_ofFields P neg hfield hfrac, toBits_ofFields⟩

end Sys2Proof.Machine
end

section
/-! SUPPORT. Correct rounding: what makes a datum of a format the rounded value of a real number, and that `Flt.round`
delivers it; then addition, subtraction, multiplication and the conversion of integers (40_numeric_common.md R131, R132,
R136). -/

namespace Sys2Proof.Machine

/-! ## The value of a datum -/

/-- The sign of a datum as a factor. -/
def signInt (s : Bool) : Int := if s then -1 else 1

@[simp] theorem signInt_true : signInt true = -1 := rfl
@[simp] theorem signInt_false : signInt false = 1 := rfl

theorem signInt_not (s : Bool) : signInt (!s) = -signInt s := by cases s <;> rfl

theorem signInt_bne (s t : Bool) : signInt (s != t) = signInt s * signInt t := by cases s <;> cases t <;> rfl

theorem signInt_mul_self (s : Bool) : signInt s * signInt s = 1 := by cases s <;> rfl

theorem abs_signInt (s : Bool) : |signInt s| = 1 := by cases s <;> rfl

theorem val_fin {P : Precision} (s : Bool) (m q : Nat) :
    (Flt.fin s m q : Flt P).val = signInt s * (m * 2 ^ q) / 2 ^ P.unitExp := by
  simp only [Flt.val, Nat.shiftLeft_eq, Rat.mkRat_eq_div]
  cases s <;> push_cast [signInt] <;> simp

/-! ## The nearest multiple of a power of two -/

/-- `N` is the integer nearest to `x`, the even one of two. -/
def NearestEven (x : ℝ) (N : Nat) : Prop := |(N : ℝ) - x| ≤ 1 / 2 ∧ (|(N : ℝ) - x| = 1 / 2 → N % 2 = 0)

theorem nearestEven_natCast (N : Nat) : NearestEven N N := by
  simp [NearestEven]

theorem roundShift_nearestEven (n d : Nat) : NearestEven ((n : ℝ) / 2 ^ d) (roundShift n d) := by
  have hpos : (0 : ℝ) < 2 ^ d := by positivity
  have hsplit : (n : ℝ) / 2 ^ d = (n / 2 ^ d : Nat) + (n % 2 ^ d : Nat) / (2 ^ d : ℝ) := by
    rw [eq_comm, ← eq_sub_iff_add_eq', div_eq_iff hpos.ne', sub_mul, div_mul_cancel₀ _ hpos.ne', eq_sub_iff_add_eq']
    exact_mod_cast Nat.div_add_mod' n (2 ^ d)
  have hfrac : (0 : ℝ) ≤ (n % 2 ^ d : Nat) / (2 ^ d : ℝ) ∧ (n % 2 ^ d : Nat) / (2 ^ d : ℝ) < 1 :=
    ⟨by positivity, (div_lt_one hpos).mpr (by exact_mod_cast Nat.mod_lt n (by positivity))⟩
  have hhalf : ∀ r : Nat, (r / (2 ^ d : ℝ) < 1 / 2 ↔ 2 * r < 2 ^ d) ∧ (1 / 2 < r / (2 ^ d : ℝ) ↔ 2 ^ d < 2 * r) := by
    intro r
    rw [div_lt_div_iff₀ hpos two_pos, div_lt_div_iff₀ two_pos hpos, one_mul]
    rw [mul_comm (r : ℝ)]
    exact ⟨by exact_mod_cast Iff.rfl, by exact_mod_cast Iff.rfl⟩
  dsimp only [roundShift]
  rw [Nat.shiftRight_eq_div_pow, hsplit]
  obtain ⟨hbelow, habove⟩ := hhalf (n % 2 ^ d)
  generalize (n % 2 ^ d : Nat) / (2 ^ d : ℝ) = x at *
  generalize n / 2 ^ d = f at *
  rcases lt_trichotomy (2 * (n % 2 ^ d)) (2 ^ d) with hlt | heq | hgt
  · have hx := hbelow.mpr hlt
    rw [if_neg (by simp; omega), NearestEven, sub_add_cancel_left, abs_neg, abs_of_nonneg hfrac.1]
    exact ⟨hx.le, fun h => absurd h hx.ne⟩
  · have hx : x = 1 / 2 :=
      le_antisymm (not_lt.mp fun h => (habove.mp h).ne' heq) (not_lt.mp fun h => (hbelow.mp h).ne heq)
    rw [hx]
    split_ifs with hodd
    · refine ⟨by push_cast; norm_num, fun _ => ?_⟩
      simp [heq] at hodd
      omega
    · refine ⟨by norm_num, fun _ => ?_⟩
      simp [heq] at hodd
      omega
  · have hx := habove.mpr hgt
    rw [if_pos (by simp; omega), NearestEven]
    have habs : |((f + 1 : Nat) : ℝ) - (f + x)| = 1 - x := by
      push_cast
      rw [show (f : ℝ) + 1 - (f + x) = 1 - x by ring, abs_of_nonneg (by linarith)]
    rw [habs]
    exact ⟨by linarith, fun h => absurd h (by linarith)⟩

/-- No integer is nearer than the nearest, and another one equally near makes it a tie. -/
theorem NearestEven.le_abs_sub {x : ℝ} {N : Nat} (h : NearestEven x N) (Z : Int) :
    |(N : ℝ) - x| ≤ |(Z : ℝ) - x| ∧ (|(N : ℝ) - x| = |(Z : ℝ) - x| → Z = N ∨ N % 2 = 0) := by
  obtain ⟨hhalf, htie⟩ := h
  by_cases hZ : Z = N
  · rw [hZ]
    exact ⟨le_rfl, fun _ => .inl rfl⟩
  · have hone : (1 : ℝ) ≤ |(Z : ℝ) - N| := by
      exact_mod_cast Int.one_le_abs (sub_ne_zero.mpr hZ)
    have htri : |(Z : ℝ) - N| ≤ |(Z : ℝ) - x| + |(N : ℝ) - x| := by
      rw [abs_sub_comm (N : ℝ) x]
      exact abs_sub_le _ _ _
    exact ⟨by linarith, fun h => .inr (htie (by linarith))⟩

/-- The scaled value `t` of a magnitude is rounded on the grid of step 2^q: `N` steps are nearest, and the magnitude is
in the binade of that step unless the step is the least one. -/
structure OnGrid (P : Precision) (t : ℝ) (N q : Nat) : Prop where
  nearest : NearestEven (t / 2 ^ q) N
  binade : q = 0 ∨ 2 ^ (P.sigBits - 1) * 2 ^ q ≤ t

/-- A finite datum of either sign is nowhere nearer to `t` than `N` steps of its grid. -/
theorem OnGrid.le_abs_sub {P : Precision} {t : ℝ} {N q : Nat} (h : OnGrid P t N q) {σ : Int} (hσ : |σ| = 1)
    {m' q' : Nat}
    (hm' : m' < 2 ^ P.sigBits) :
    |(N : ℝ) * 2 ^ q - t| ≤ |(σ : ℝ) * (m' * 2 ^ q') - t| ∧
      (|(N : ℝ) * 2 ^ q - t| = |(σ : ℝ) * (m' * 2 ^ q') - t| → (σ : ℝ) * (m' * 2 ^ q') = N * 2 ^ q ∨ N % 2 = 0) := by
  have hpos : (0 : ℝ) < 2 ^ q := by positivity
  have hscale : ∀ y : ℝ, |y * 2 ^ q - t| = |y - t / 2 ^ q| * 2 ^ q := fun y => by
    rw [← abs_of_pos hpos, ← abs_mul, abs_of_pos hpos, sub_mul, div_mul_cancel₀ _ hpos.ne']
  rcases le_or_gt q q' with hq | hq
  · have hZ : (σ : ℝ) * (m' * 2 ^ q') = ((σ * (m' * 2 ^ (q' - q)) : Int) : ℝ) * 2 ^ q := by
      push_cast
      rw [mul_assoc, mul_assoc, ← pow_add, Nat.sub_add_cancel hq]
    obtain ⟨hle, heq⟩ := h.nearest.le_abs_sub (σ * (m' * 2 ^ (q' - q)))
    rw [hZ, hscale, hscale]
    refine ⟨mul_le_mul_of_nonneg_right hle hpos.le, fun h => ?_⟩
    refine (heq (mul_right_cancel₀ hpos.ne' h)).imp_left fun h => ?_
    rw [h]
    norm_cast
  · have hbinade := h.binade.resolve_left (by omega)
    have hbelow : (m' : ℝ) * 2 ^ q' < 2 ^ (P.sigBits - 1) * 2 ^ q := by
      have hsig := P.two_pow_sigBits
      have hm : (m' : ℝ) < 2 * 2 ^ (P.sigBits - 1) := by exact_mod_cast hsig ▸ hm'
      calc (m' : ℝ) * 2 ^ q' < 2 * 2 ^ (P.sigBits - 1) * 2 ^ q' := by gcongr
        _ = 2 ^ (P.sigBits - 1) * 2 ^ (q' + 1) := by ring
        _ ≤ 2 ^ (P.sigBits - 1) * 2 ^ q := by gcongr; exacts [one_le_two, hq]
    have hsigned : (σ : ℝ) * (m' * 2 ^ q') ≤ m' * 2 ^ q' := by
      have hσle : (σ : ℝ) ≤ 1 := by exact_mod_cast hσ ▸ le_abs_self σ
      exact mul_le_of_le_one_left (by positivity) hσle
    have hedge := (h.nearest.le_abs_sub (2 ^ (P.sigBits - 1) : Int)).1
    have hlt : |(N : ℝ) * 2 ^ q - t| < |(σ : ℝ) * (m' * 2 ^ q') - t| := by
      calc |(N : ℝ) * 2 ^ q - t| ≤ |(2 ^ (P.sigBits - 1) : ℝ) * 2 ^ q - t| := by
            rw [hscale, hscale]
            exact mul_le_mul_of_nonneg_right (by exact_mod_cast hedge) hpos.le
        _ = t - 2 ^ (P.sigBits - 1) * 2 ^ q := by rw [abs_sub_comm, abs_of_nonneg (by linarith)]
        _ < t - σ * (m' * 2 ^ q') := by linarith
        _ ≤ |(σ : ℝ) * (m' * 2 ^ q') - t| := by rw [abs_sub_comm]; exact le_abs_self _
    exact ⟨hlt.le, fun h => absurd h hlt.ne⟩

/-- A canonical datum with the value of `N` steps of the grid is the rounded value. -/
theorem OnGrid.isRounded {P : Precision} {t : ℝ} {N q : Nat} (h : OnGrid P t N q) (s : Bool) {m q' : Nat}
    (hcanonical : (Flt.fin s m q' : Flt P).Canonical = true) (hval : m * 2 ^ q' = N * 2 ^ q)
    (heven : N % 2 = 0 → m % 2 = 0) :
    IsRounded P (signInt s * t / 2 ^ P.unitExp) (.fin s m q') := by
  refine ⟨s, m, q', rfl, hcanonical, fun s' m' e' hc' => ?_⟩
  have hunit : (0 : ℝ) < 2 ^ P.unitExp := by positivity
  have hsign : (signInt s : ℝ) * signInt s = 1 := by exact_mod_cast signInt_mul_self s
  have habs : |(signInt s : ℝ)| = 1 := by exact_mod_cast abs_signInt s
  -- The distance to a datum, with the sign of the result divided out of it.
  have hdist : ∀ (b : Bool) (k e : Nat),
      |((Flt.val (.fin b k e : Flt P) : ℚ) : ℝ) - signInt s * t / 2 ^ P.unitExp| =
        |((signInt s * signInt b : Int) : ℝ) * (k * 2 ^ e) - t| / 2 ^ P.unitExp := by
    intro b k e
    rw [val_fin]
    push_cast
    rw [← sub_div, abs_div, abs_of_pos hunit, ← one_mul |_ - signInt s * t|, ← habs, ← abs_mul, mul_sub,
      ← mul_assoc (signInt s : ℝ) _ t, hsign, one_mul, ← mul_assoc, ← mul_assoc]
  have hself : ((signInt s * signInt s : Int) : ℝ) * (m * 2 ^ q') = N * 2 ^ q := by
    rw [signInt_mul_self]
    exact_mod_cast (one_mul _).trans hval
  have hσ : |signInt s * signInt s'| = 1 := by rw [abs_mul, abs_signInt, abs_signInt, one_mul]
  obtain ⟨hle, heq⟩ := h.le_abs_sub hσ (q' := e') (Flt.canonical_fin.mp hc').1
  rw [hdist, hdist, hself]
  refine ⟨div_le_div_of_nonneg_right hle hunit.le, fun hd => ?_⟩
  refine (heq ((div_left_inj' hunit.ne').mp hd)).imp (fun hv => ?_) heven
  rw [val_fin, val_fin, div_left_inj' (by positivity)]
  have hsteps : (signInt s * signInt s' : ℚ) * (m' * 2 ^ e') = m * 2 ^ q' := by
    rw [show (m * 2 ^ q' : ℚ) = N * 2 ^ q by exact_mod_cast hval]
    exact_mod_cast hv
  have hsq : (signInt s : ℚ) * signInt s = 1 := by exact_mod_cast signInt_mul_self s
  linear_combination (signInt s : ℚ) * hsteps - signInt s' * (m' * 2 ^ e') * hsq

end Sys2Proof.Machine
end

section
/-! SUPPORT. `Flt.round` and the operations built on it: each delivers its exact result as IEEE 754 does
(40_numeric_common.md R132, R136). -/

namespace Sys2Proof.Machine

/-! ## The parts of `Flt.round` -/

/-- The datum of `N` steps of size 2^q: a significand that rounding carried to the next power of two is halved. -/
def Flt.pack (P : Precision) (s : Bool) (N q : Nat) : Flt P :=
  if N = 2 ^ P.sigBits then
    if q + 1 ≤ P.maxStep then .fin s (2 ^ (P.sigBits - 1)) (q + 1) else .inf s
  else if q ≤ P.maxStep then .fin s N q
  else .inf s

/-- The step of the grid on which `Flt.round` rounds. -/
def roundStep (P : Precision) (n e : Nat) : Nat := (e + n.log2 + 1) - (P.sigBits + P.unitExp)

/-- The number of steps `Flt.round` rounds to. -/
def roundSig (P : Precision) (n e : Nat) : Nat :=
  if e ≤ roundStep P n e + P.unitExp then roundShift n (roundStep P n e + P.unitExp - e)
  else n <<< (e - (roundStep P n e + P.unitExp))

theorem round_zero (P : Precision) (s : Bool) (e : Nat) : Flt.round P s 0 e = .fin s 0 0 := rfl

theorem round_eq_pack (P : Precision) (s : Bool) {n : Nat} (hn : n ≠ 0) (e : Nat) :
    Flt.round P s n e = .pack P s (roundSig P n e) (roundStep P n e) := if_neg hn

/-- The magnitude that `Flt.round` rounds, in units of the least positive datum. -/
noncomputable def scaledMag (P : Precision) (n e : Nat) : ℝ := n * 2 ^ e / 2 ^ P.unitExp

section

variable (P : Precision) {n : Nat} (hn : n ≠ 0) (e : Nat)

theorem scaledMag_lt : scaledMag P n e < 2 ^ P.sigBits * 2 ^ roundStep P n e := by
  have hlog : (n : ℝ) < 2 ^ (n.log2 + 1) := by exact_mod_cast Nat.lt_log2_self
  rw [scaledMag, div_lt_iff₀ (by positivity)]
  calc (n : ℝ) * 2 ^ e < 2 ^ (n.log2 + 1) * 2 ^ e := by gcongr
    _ = 2 ^ (n.log2 + 1 + e) := by rw [pow_add _ (n.log2 + 1)]
    _ ≤ 2 ^ (P.sigBits + roundStep P n e + P.unitExp) :=
      pow_le_pow_right₀ one_le_two (by unfold roundStep; omega)
    _ = 2 ^ P.sigBits * 2 ^ roundStep P n e * 2 ^ P.unitExp := by rw [pow_add, pow_add]

theorem nearestEven_roundSig : NearestEven (scaledMag P n e / 2 ^ roundStep P n e) (roundSig P n e) := by
  unfold roundSig scaledMag
  generalize roundStep P n e = q
  split_ifs with hle
  · have hquot : (n : ℝ) * 2 ^ e / 2 ^ P.unitExp / 2 ^ q = n / 2 ^ (q + P.unitExp - e) := by
      have hsplit : (2 : ℝ) ^ (q + P.unitExp) = 2 ^ (q + P.unitExp - e) * 2 ^ e := by
        rw [← pow_add, Nat.sub_add_cancel hle]
      rw [div_div, mul_comm (2 ^ P.unitExp : ℝ), ← pow_add, hsplit, mul_div_mul_right _ _ (by positivity)]
    rw [hquot]
    exact roundShift_nearestEven _ _
  · have hquot : (n : ℝ) * 2 ^ e / 2 ^ P.unitExp / 2 ^ q = (n <<< (e - (q + P.unitExp)) : Nat) := by
      have hsplit : (2 : ℝ) ^ e = 2 ^ (e - (q + P.unitExp)) * (2 ^ P.unitExp * 2 ^ q) := by
        rw [← pow_add, ← pow_add, add_comm P.unitExp, Nat.sub_add_cancel (by omega)]
      rw [div_div, hsplit, ← mul_assoc, mul_div_cancel_right₀ _ (by positivity), Nat.shiftLeft_eq]
      push_cast
      rfl
    rw [hquot]
    exact nearestEven_natCast _

include hn

theorem onGrid_round : OnGrid P (scaledMag P n e) (roundSig P n e) (roundStep P n e) := by
  refine ⟨nearestEven_roundSig P e, or_iff_not_imp_left.mpr fun hstep => ?_⟩
  have hlog : (2 : ℝ) ^ n.log2 ≤ n := by exact_mod_cast Nat.log2_self_le hn
  have hsig : P.sigBits - 1 + 1 = P.sigBits := by cases P <;> rfl
  rw [scaledMag, le_div_iff₀ (by positivity)]
  calc (2 : ℝ) ^ (P.sigBits - 1) * 2 ^ roundStep P n e * 2 ^ P.unitExp
      = 2 ^ (P.sigBits - 1 + roundStep P n e + P.unitExp) := by rw [pow_add, pow_add]
    _ = 2 ^ (n.log2 + e) := by congr 1; unfold roundStep at *; omega
    _ = 2 ^ n.log2 * 2 ^ e := pow_add _ _ _
    _ ≤ n * 2 ^ e := by gcongr

end

/-! ## Packing within and past the format -/

section

variable {P : Precision} {t : ℝ} {N q : Nat} (h : OnGrid P t N q) (hlt : t < 2 ^ P.sigBits * 2 ^ q)
include h

/-- The distance between the rounded and the exact magnitude, as one step of the grid. -/
theorem OnGrid.abs_sub_le : |(N : ℝ) * 2 ^ q - t| ≤ 2 ^ q / 2 := by
  have hpos : (0 : ℝ) < 2 ^ q := by positivity
  calc |(N : ℝ) * 2 ^ q - t| = |(N : ℝ) - t / 2 ^ q| * 2 ^ q := by
        rw [← abs_of_pos hpos, ← abs_mul, abs_of_pos hpos, sub_mul, div_mul_cancel₀ _ hpos.ne']
    _ ≤ 1 / 2 * 2 ^ q := mul_le_mul_of_nonneg_right h.nearest.1 hpos.le
    _ = 2 ^ q / 2 := by ring

theorem OnGrid.sig_ge : q = 0 ∨ 2 ^ (P.sigBits - 1) ≤ N := by
  refine h.binade.imp_right fun hb => ?_
  have hquot : (2 : ℝ) ^ (P.sigBits - 1) ≤ t / 2 ^ q := (le_div_iff₀ (by positivity)).mpr hb
  have hdist := (abs_le.mp h.nearest.1).1
  have hreal : (2 ^ (P.sigBits - 1) : ℝ) < N + 1 := by linarith
  exact Nat.lt_succ_iff.mp (by exact_mod_cast hreal)

include hlt

theorem OnGrid.sig_le : N ≤ 2 ^ P.sigBits := by
  have hquot : t / 2 ^ q < 2 ^ P.sigBits := (div_lt_iff₀ (by positivity)).mpr hlt
  have hdist := (abs_le.mp h.nearest.1).2
  have hreal : (N : ℝ) < 2 ^ P.sigBits + 1 := by linarith
  exact Nat.lt_succ_iff.mp (by exact_mod_cast hreal)

/-- Below the overflow bound the packed datum is finite, canonical and has the value of the steps. -/
theorem OnGrid.pack_finite (s : Bool) (ht : t < (2 ^ P.sigBits - 1 / 2) * 2 ^ P.maxStep) :
    ∃ m q', Flt.pack P s N q = .fin s m q' ∧ (Flt.fin s m q' : Flt P).Canonical = true ∧ m * 2 ^ q' = N * 2 ^ q ∧
      (N % 2 = 0 → m % 2 = 0) := by
  have hsig := P.two_pow_sigBits
  have hsig2 := P.two_pow_pred_sigBits
  have hpos : 0 < 2 ^ (P.sigBits - 1) := by positivity
  have hq : q ≤ P.maxStep := by
    by_contra hgt
    have hb := h.binade.resolve_left (by omega)
    have hstep : (2 : ℝ) ^ (P.maxStep + 1) ≤ 2 ^ q := pow_le_pow_right₀ one_le_two (by omega)
    have hsigR : (2 : ℝ) ^ P.sigBits = 2 * 2 ^ (P.sigBits - 1) := by exact_mod_cast hsig
    have : (2 : ℝ) ^ P.sigBits * 2 ^ P.maxStep ≤ t := by
      calc (2 : ℝ) ^ P.sigBits * 2 ^ P.maxStep = 2 ^ (P.sigBits - 1) * 2 ^ (P.maxStep + 1) := by rw [hsigR]; ring
        _ ≤ 2 ^ (P.sigBits - 1) * 2 ^ q := by gcongr
        _ ≤ t := hb
    nlinarith [show (0 : ℝ) < 2 ^ P.maxStep by positivity]
  unfold Flt.pack
  split_ifs with hN hq'
  · refine ⟨_, _, rfl, Flt.canonical_fin.mpr ⟨by omega, hq', .inr le_rfl⟩, ?_, fun _ => by omega⟩
    rw [hN, hsig]
    ring
  · exfalso
    obtain rfl : q = P.maxStep := by omega
    have hquot : t / 2 ^ P.maxStep < 2 ^ P.sigBits - 1 / 2 := (div_lt_iff₀ (by positivity)).mpr ht
    have hdist := (abs_le.mp h.nearest.1).2
    rw [hN] at hdist
    push_cast at hdist
    linarith
  · exact ⟨_, _, rfl, Flt.canonical_fin.mpr ⟨lt_of_le_of_ne (h.sig_le hlt) hN, hq, h.sig_ge⟩, rfl, id⟩

/-- From the overflow bound on it is the infinity. -/
theorem OnGrid.pack_overflow (s : Bool) (ht : (2 ^ P.sigBits - 1 / 2) * 2 ^ P.maxStep ≤ t) :
    Flt.pack P s N q = .inf s := by
  have hsig := P.two_pow_sigBits
  have hq : P.maxStep ≤ q := by
    by_contra hgt
    have hstep : (2 : ℝ) ^ (q + 1) ≤ 2 ^ P.maxStep := pow_le_pow_right₀ one_le_two (by omega)
    have hone : (1 : ℝ) ≤ 2 ^ P.sigBits := one_le_pow₀ one_le_two
    nlinarith [show (0 : ℝ) < 2 ^ q by positivity, pow_succ (2 : ℝ) q]
  unfold Flt.pack
  split_ifs with hN hq' hq'
  · omega
  · rfl
  · exfalso
    obtain rfl : q = P.maxStep := by omega
    have hquot : 2 ^ P.sigBits - 1 / 2 ≤ t / 2 ^ P.maxStep := (le_div_iff₀ (by positivity)).mpr ht
    have hpred : (N : ℝ) ≤ 2 ^ P.sigBits - 1 := by
      have : N + 1 ≤ 2 ^ P.sigBits := lt_of_le_of_ne (h.sig_le hlt) hN
      linarith [show (N : ℝ) + 1 ≤ 2 ^ P.sigBits by exact_mod_cast this]
    have hdist := abs_le.mp h.nearest.1
    have htie : |(N : ℝ) - t / 2 ^ P.maxStep| = 1 / 2 := by
      rw [abs_sub_comm, abs_of_nonneg (by linarith)]
      linarith
    have hNreal : (N : ℝ) + 1 = 2 ^ P.sigBits := by linarith
    have hNnat : N + 1 = 2 ^ P.sigBits := by exact_mod_cast hNreal
    have heven := h.nearest.2 htie
    omega
  · rfl

end

/-! ## Delivery -/

/-- The exact value that `Flt.round` rounds. -/
def exactArg (P : Precision) (s : Bool) (n e : Nat) : Rat := signInt s * (n * 2 ^ e) / 2 ^ (2 * P.unitExp)

theorem exactArg_cast (P : Precision) (s : Bool) (n e : Nat) :
    ((exactArg P s n e : ℚ) : ℝ) = signInt s * scaledMag P n e / 2 ^ P.unitExp := by
  rw [exactArg, scaledMag, two_mul, pow_add]
  push_cast
  ring

theorem abs_exactArg (P : Precision) (s : Bool) (n e : Nat) :
    ((|exactArg P s n e| : ℚ) : ℝ) = scaledMag P n e / 2 ^ P.unitExp := by
  have hsign : |(signInt s : ℝ)| = 1 := by exact_mod_cast abs_signInt s
  rw [Rat.cast_abs, exactArg_cast, abs_div, abs_mul, hsign, one_mul, abs_of_nonneg (by unfold scaledMag; positivity),
    abs_of_pos (by positivity)]

theorem overflowBound_cast (P : Precision) :
    ((overflowBound P : ℚ) : ℝ) = (2 ^ P.sigBits - 1 / 2) * 2 ^ P.maxStep / 2 ^ P.unitExp := by
  rw [overflowBound, pow_succ, pow_succ]
  push_cast
  field_simp

theorem overflowBound_pos (P : Precision) : 0 < overflowBound P := by
  have hone : (1 : Rat) < 2 ^ (P.sigBits + 1) := one_lt_pow₀ one_lt_two (Nat.succ_ne_zero _)
  have : (0 : Rat) < 2 ^ (P.sigBits + 1) - 1 := by linarith
  unfold overflowBound
  positivity

theorem abs_exactArg_lt_iff (P : Precision) (s : Bool) (n e : Nat) :
    |exactArg P s n e| < overflowBound P ↔ scaledMag P n e < (2 ^ P.sigBits - 1 / 2) * 2 ^ P.maxStep := by
  rw [← Rat.cast_lt (K := ℝ), abs_exactArg, overflowBound_cast, div_lt_div_iff_of_pos_right (by positivity)]

theorem isRounded_zero (P : Precision) (s : Bool) : IsRounded P 0 (.fin s 0 0) := by
  have hgrid : OnGrid P 0 0 0 := ⟨by simp [NearestEven], .inl rfl⟩
  simpa using hgrid.isRounded s (m := 0) (q' := 0) (Flt.canonical_fin.mpr ⟨by positivity, Nat.zero_le _, .inl rfl⟩)
    rfl id

/-- `Flt.round` delivers its exact value as IEEE 754 does. -/
theorem round_delivers (P : Precision) (s : Bool) (n e : Nat) :
    Delivers P (exactArg P s n e) (Flt.round P s n e) := by
  by_cases hn : n = 0
  · subst hn
    rw [round_zero, show exactArg P s 0 e = 0 by simp [exactArg]]
    refine ⟨fun _ => by simpa using isRounded_zero P s, fun h => ?_⟩
    rw [abs_zero] at h
    exact absurd h (not_le.mpr (overflowBound_pos P))
  · have hgrid := onGrid_round P hn e
    have hlt := scaledMag_lt P (n := n) e
    rw [round_eq_pack P s hn]
    refine ⟨fun h => ?_, fun h => ?_⟩
    · obtain ⟨m, q, hpack, hcanonical, hval, heven⟩ :=
        hgrid.pack_finite hlt s ((abs_exactArg_lt_iff P s n e).mp h)
      rw [hpack, exactArg_cast]
      exact hgrid.isRounded s hcanonical hval heven
    · rw [hgrid.pack_overflow hlt s (not_lt.mp (mt (abs_exactArg_lt_iff P s n e).mpr (not_lt.mpr h)))]
      have hmag : (0 : Rat) < n * 2 ^ e / 2 ^ (2 * P.unitExp) := by positivity
      have hsign : decide (exactArg P s n e < 0) = s := by
        rw [exactArg, mul_div_assoc]
        cases s
        · simpa using hmag.le
        · simpa using hmag
      rw [hsign]

theorem round_signBit (P : Precision) (s : Bool) (n e : Nat) : (Flt.round P s n e).signBit = s := by
  by_cases hn : n = 0
  · rw [hn, round_zero]
    rfl
  · rw [round_eq_pack P s hn, Flt.pack]
    split_ifs <;> rfl

/-! ## The operations -/

theorem negate_val {P : Precision} (x : Flt P) : x.negate.val = -x.val := by
  cases x with
  | fin s m q =>
    rw [Flt.negate, val_fin, val_fin, signInt_not]
    push_cast
    ring
  | inf s => exact neg_zero.symm
  | nan => exact neg_zero.symm

theorem negate_canonical {P : Precision} {x : Flt P} : x.negate.Canonical = x.Canonical := by cases x <;> rfl

theorem negate_isFinite {P : Precision} {x : Flt P} : x.negate.isFinite = x.isFinite := by cases x <;> rfl

/-- The product of finite data is the rounding of their exact product. -/
theorem mul_eq_round {P : Precision} {a b : Flt P} (ha : a.isFinite = true) (hb : b.isFinite = true) :
    ∃ s n e, a.mul b = Flt.round P s n e ∧ a.val * b.val = exactArg P s n e ∧ s = (a.signBit != b.signBit) := by
  cases a with
  | fin s₁ m₁ q₁ => cases b with
    | fin s₂ m₂ q₂ =>
      refine ⟨s₁ != s₂, m₁ * m₂, q₁ + q₂, rfl, ?_, rfl⟩
      rw [val_fin, val_fin, exactArg, signInt_bne, two_mul, pow_add, pow_add]
      push_cast
      ring
    | _ => cases hb
  | _ => cases ha

/-- A significand brought to a lower step has its value there. -/
theorem shifted_val {P : Precision} (s : Bool) {m q₀ q : Nat} (hq : q₀ ≤ q) :
    (Flt.fin s m q : Flt P).val = exactArg P s (m <<< (q - q₀)) (q₀ + P.unitExp) := by
  rw [val_fin, exactArg, Nat.shiftLeft_eq, two_mul, pow_add, pow_add]
  have hsplit : (2 : ℚ) ^ q = 2 ^ (q - q₀) * 2 ^ q₀ := by rw [← pow_add, Nat.sub_add_cancel hq]
  push_cast
  rw [hsplit]
  field_simp

theorem exactArg_add (P : Precision) (s : Bool) (a b e : Nat) :
    exactArg P s a e + exactArg P s b e = exactArg P s (a + b) e := by
  unfold exactArg
  push_cast
  ring

theorem exactArg_add_opposite {P : Precision} {s t : Bool} (hst : s ≠ t) {a b : Nat} (hle : b ≤ a) (e : Nat) :
    exactArg P s a e + exactArg P t b e = exactArg P s (a - b) e := by
  have ht : signInt t = -signInt s := by rw [← signInt_not, Bool.eq_not_of_ne hst.symm]
  unfold exactArg
  rw [ht, Nat.cast_sub hle]
  push_cast
  ring

/-- The sum of finite data is the rounding of their exact sum; an exact zero has the sign of both, else plus. -/
theorem add_eq_round {P : Precision} {a b : Flt P} (ha : a.isFinite = true) (hb : b.isFinite = true) :
    ∃ s n e, a.add b = Flt.round P s n e ∧ a.val + b.val = exactArg P s n e ∧
      (n = 0 → s = (a.signBit && b.signBit)) := by
  cases a with
  | fin s₁ m₁ q₁ => cases b with
    | fin s₂ m₂ q₂ =>
      rw [shifted_val s₁ (min_le_left q₁ q₂), shifted_val s₂ (min_le_right q₁ q₂)]
      dsimp only [Flt.add, Flt.signBit]
      generalize m₁ <<< (q₁ - min q₁ q₂) = a₁
      generalize m₂ <<< (q₂ - min q₁ q₂) = a₂
      split_ifs with hs hlt hgt
      · subst hs
        exact ⟨s₁, a₁ + a₂, _, rfl, exactArg_add P s₁ a₁ a₂ _, fun _ => (Bool.and_self s₁).symm⟩
      · exact ⟨s₁, a₁ - a₂, _, rfl, exactArg_add_opposite hs hlt.le _, fun h => absurd h (Nat.sub_ne_zero_of_lt hlt)⟩
      · exact ⟨s₂, a₂ - a₁, _, rfl, (add_comm _ _).trans (exactArg_add_opposite (Ne.symm hs) hgt.le _),
          fun h => absurd h (Nat.sub_ne_zero_of_lt hgt)⟩
      · have heq : a₁ = a₂ := by omega
        refine ⟨false, 0, 0, rfl, ?_, fun _ => ?_⟩
        · rw [exactArg_add_opposite hs heq.ge, heq, Nat.sub_self]
          simp [exactArg]
        · cases s₁ <;> cases s₂ <;> simp_all
    | _ => cases hb
  | _ => cases ha

theorem exactArg_eq_zero_iff {P : Precision} {s : Bool} {n e : Nat} : exactArg P s n e = 0 ↔ n = 0 := by
  cases s <;> simp [exactArg]

/-- Settles O42: each operation is one `Flt.round` of its exact result. -/
theorem floatOperationsRounded : Obligations.FloatOperationsRounded := by
  intro P a b _ hb hfa hfb
  obtain ⟨s, n, e, hadd, hsum, hsign⟩ := add_eq_round hfa hfb
  obtain ⟨s', n', e', hsub, hdiff, -⟩ := add_eq_round (b := b.negate) hfa (negate_isFinite.trans hfb)
  obtain ⟨s'', n'', e'', hmul, hprod, hsign''⟩ := mul_eq_round hfa hfb
  rw [negate_val, ← sub_eq_add_neg] at hdiff
  refine ⟨?_, ?_, ?_, negate_val a, negate_canonical.trans ‹_›, fun hzero => ?_, ?_⟩
  · rw [hadd, hsum]
    exact round_delivers P s n e
  · rw [Flt.sub, hsub, hdiff]
    exact round_delivers P s' n' e'
  · rw [hmul, hprod]
    exact round_delivers P s'' n'' e''
  · obtain rfl : n = 0 := exactArg_eq_zero_iff.mp (hsum ▸ hzero)
    rw [hadd, round_zero, hsign rfl]
  · rw [hmul, round_signBit, hsign'']

end Sys2Proof.Machine
end

section
/-! SUPPORT. Conversion of integers: what `Flt.ofInt` delivers, and when it is exact (40_numeric_common.md R136). -/

namespace Sys2Proof.Machine

theorem exactArg_natAbs (P : Precision) (z : Int) : exactArg P (decide (z < 0)) z.natAbs (2 * P.unitExp) = z := by
  have hmag : signInt (decide (z < 0)) * |z| = z := by
    by_cases h : z < 0
    · rw [decide_eq_true h, signInt_true, abs_of_neg h, neg_one_mul, neg_neg]
    · rw [decide_eq_false h, signInt_false, abs_of_nonneg (not_lt.mp h), one_mul]
  rw [exactArg, ← mul_assoc, mul_div_cancel_right₀ _ (by positivity), Nat.cast_natAbs, ← Int.cast_mul, hmag]

theorem ofInt_delivers (P : Precision) (z : Int) : Delivers P z (Flt.ofInt P z) := by
  have h := round_delivers P (decide (z < 0)) z.natAbs (2 * P.unitExp)
  rwa [exactArg_natAbs] at h

/-- A magnitude that is a whole number of steps of its grid is kept exactly. -/
theorem round_val_eq {P : Precision} (s : Bool) {n e k : Nat} (hn : n ≠ 0)
    (hk : scaledMag P n e = k * 2 ^ roundStep P n e) (hbound : |exactArg P s n e| < overflowBound P) :
    (Flt.round P s n e).val = exactArg P s n e := by
  have hgrid := onGrid_round P hn e
  obtain ⟨m, q, hpack, -, hval, -⟩ :=
    hgrid.pack_finite (scaledMag_lt P e) s ((abs_exactArg_lt_iff P s n e).mp hbound)
  have hsteps : roundSig P n e = k := by
    have hnear := hgrid.nearest.1
    rw [hk, mul_div_cancel_right₀ _ (by positivity)] at hnear
    have hlt : |((roundSig P n e : Int) - k : Int)| < 1 := by
      have : |((roundSig P n e : ℝ) - k)| < 1 := by linarith
      exact_mod_cast this
    have := Int.abs_lt_one_iff.mp hlt
    omega
  rw [← Rat.cast_inj (α := ℝ), exactArg_cast, round_eq_pack P s hn, hpack, val_fin, hk, ← hsteps]
  push_cast
  congr 2
  exact_mod_cast hval

/-- An integer `k · 2^j` with `k < 2^sigBits` converts exactly, if it is in the format's range. -/
theorem ofInt_val_eq {P : Precision} {z : Int} {k j : Nat} (hz : z.natAbs = k * 2 ^ j) (hk : k < 2 ^ P.sigBits)
    (hbound : |(z : Rat)| < overflowBound P) : (Flt.ofInt P z).val = z := by
  by_cases hzero : z.natAbs = 0
  · rw [Flt.ofInt, hzero, round_zero, val_fin, Int.natAbs_eq_zero.mp hzero]
    simp
  · have hlog : z.natAbs.log2 < P.sigBits + j := by
      rw [Nat.log2_lt hzero, hz, pow_add]
      exact Nat.mul_lt_mul_of_pos_right hk (by positivity)
    have hstep : roundStep P z.natAbs (2 * P.unitExp) ≤ P.unitExp + j := by
      unfold roundStep
      omega
    have hk : scaledMag P z.natAbs (2 * P.unitExp) =
        ((k * 2 ^ (P.unitExp + j - roundStep P z.natAbs (2 * P.unitExp)) : Nat) : ℝ) *
          2 ^ roundStep P z.natAbs (2 * P.unitExp) := by
      rw [scaledMag]
      generalize roundStep P z.natAbs (2 * P.unitExp) = q at *
      rw [hz, two_mul, pow_add, ← mul_assoc, mul_div_cancel_right₀ _ (by positivity)]
      push_cast
      rw [mul_assoc, mul_assoc, ← pow_add, ← pow_add, Nat.sub_add_cancel hstep, add_comm]
    have h := round_val_eq (decide (z < 0)) hzero hk (by rwa [exactArg_natAbs])
    rwa [exactArg_natAbs] at h

theorem overflowBound_gt (P : Precision) : 2 ^ 127 < overflowBound P := by
  have hexp : 127 + (P.unitExp + 1) ≤ P.sigBits + P.maxStep := by cases P <;> decide
  have hsig : (2 : Rat) ^ P.sigBits < 2 ^ (P.sigBits + 1) - 1 := by
    have hone : (1 : Rat) < 2 ^ P.sigBits := one_lt_pow₀ one_lt_two (by cases P <;> decide)
    rw [pow_succ]
    linarith
  rw [overflowBound, lt_div_iff₀ (by positivity), ← pow_add]
  calc (2 : Rat) ^ (127 + (P.unitExp + 1)) ≤ 2 ^ (P.sigBits + P.maxStep) := pow_le_pow_right₀ one_le_two hexp
    _ = 2 ^ P.sigBits * 2 ^ P.maxStep := pow_add _ _ _
    _ < _ := by gcongr

theorem ofInt_val_of_le {P : Precision} {z : Int} (hz : |z| ≤ 2 ^ P.sigBits) : (Flt.ofInt P z).val = z := by
  have hnat : z.natAbs ≤ 2 ^ P.sigBits := by zify; exact hz
  have hrange : (2 : Rat) ^ P.sigBits ≤ 2 ^ 127 := pow_le_pow_right₀ one_le_two (by cases P <;> decide)
  have hbound : |(z : Rat)| < overflowBound P :=
    calc |(z : Rat)| ≤ 2 ^ P.sigBits := by exact_mod_cast hz
      _ ≤ 2 ^ 127 := hrange
      _ < overflowBound P := overflowBound_gt P
  rcases hnat.lt_or_eq with hlt | heq
  · exact ofInt_val_eq (j := 0) (by simp) hlt hbound
  · exact ofInt_val_eq (k := 1) (j := P.sigBits) (by simpa using heq) (by cases P <;> decide) hbound

theorem abs_coeff_le (w : Word) : |coeff w| ≤ 2 ^ 31 := by
  have hlo := w.le_toInt
  have hhi := w.toInt_lt
  rw [coeff, abs_le]
  omega

theorem sample_bounds (w : Word) : 0 ≤ sample w ∧ sample w ≤ 255 := by
  have := (w.extractLsb' 0 8).isLt
  unfold sample
  omega

/-- Settles O44: a coefficient fits 53 bits, a sample 24, and every coefficient is far below overflow. -/
theorem inputConversion : Obligations.InputConversion := by
  intro w
  have hcoeff := abs_coeff_le w
  obtain ⟨hlo, hhi⟩ := sample_bounds w
  have hsample : |sample w - 128| ≤ 2 ^ 24 := by rw [abs_le]; omega
  refine ⟨ofInt_val_of_le (hcoeff.trans (by decide)), ofInt_val_of_le (P := .binary32), ?_, ⟨by omega, by omega⟩, ?_⟩
  · have hbound : |(coeff w : Rat)| < overflowBound .binary32 :=
      calc |(coeff w : Rat)| ≤ 2 ^ 31 := by exact_mod_cast hcoeff
        _ ≤ 2 ^ 127 := pow_le_pow_right₀ one_le_two (by decide)
        _ < _ := overflowBound_gt _
    exact_mod_cast (ofInt_delivers .binary32 (coeff w)).1 hbound
  · exact_mod_cast ofInt_val_of_le (P := .binary32) hsample

/-! ## The size of a rounding error -/

/-- Within range the result is finite, and the error is at most 2^-24 of the exact value or half the least positive
datum of binary32; the bound is coarse in binary64. -/
theorem round_error {P : Precision} {s : Bool} {n e : Nat} (h : |exactArg P s n e| < overflowBound P) :
    (Flt.round P s n e).isFinite = true ∧
      |(((Flt.round P s n e).val : ℚ) : ℝ) - (exactArg P s n e : ℚ)| ≤
        max (|((exactArg P s n e : ℚ) : ℝ)| / 2 ^ 24) (1 / 2 ^ 150) := by
  by_cases hn : n = 0
  · subst hn
    rw [round_zero, show exactArg P s 0 e = 0 by simp [exactArg], val_fin]
    exact ⟨rfl, by simp⟩
  · have hgrid := onGrid_round P hn e
    obtain ⟨m, q, hpack, -, hval, -⟩ :=
      hgrid.pack_finite (scaledMag_lt P e) s ((abs_exactArg_lt_iff P s n e).mp h)
    have hunit : (0 : ℝ) < 2 ^ P.unitExp := by positivity
    have hvalR : (m : ℝ) * 2 ^ q = roundSig P n e * 2 ^ roundStep P n e := by exact_mod_cast hval
    have hsign : |(signInt s : ℝ)| = 1 := by exact_mod_cast abs_signInt s
    rw [round_eq_pack P s hn, hpack]
    refine ⟨rfl, ?_⟩
    have herr : |(((Flt.fin s m q : Flt P).val : ℚ) : ℝ) - (exactArg P s n e : ℚ)| =
        |(roundSig P n e : ℝ) * 2 ^ roundStep P n e - scaledMag P n e| / 2 ^ P.unitExp := by
      rw [exactArg_cast, val_fin]
      push_cast
      rw [hvalR, ← sub_div, ← mul_sub, abs_div, abs_mul, hsign, one_mul, abs_of_pos hunit]
    rw [herr, ← Rat.cast_abs, abs_exactArg]
    rcases hgrid.binade with hzero | hbinade
    · refine le_max_of_le_right ?_
      have hstep := hgrid.abs_sub_le
      rw [hzero] at hstep ⊢
      calc _ ≤ (2 ^ 0 / 2 : ℝ) / 2 ^ P.unitExp := div_le_div_of_nonneg_right hstep hunit.le
        _ ≤ (2 ^ 0 / 2 : ℝ) / 2 ^ 149 := by gcongr; exacts [one_le_two, by cases P <;> decide]
        _ = 1 / 2 ^ 150 := by norm_num
    · refine le_max_of_le_left ?_
      rw [div_right_comm]
      refine div_le_div_of_nonneg_right (hgrid.abs_sub_le.trans ?_) hunit.le
      have hpow : (2 : ℝ) ^ 23 ≤ 2 ^ (P.sigBits - 1) := pow_le_pow_right₀ one_le_two (by cases P <;> decide)
      have hgrow : (2 : ℝ) ^ 23 * 2 ^ roundStep P n e ≤ scaledMag P n e :=
        (mul_le_mul_of_nonneg_right hpow (by positivity)).trans hbinade
      rw [div_le_div_iff₀ two_pos (by positivity)]
      linarith

end Sys2Proof.Machine
end

section
/-! SUPPORT. The cosines c_m: the angles of the Basis Matrix folded to m = 0..7, rational approximations of the c_m, and
the Basis Matrix in both formats as their correct rounding (40_numeric_common.md R133 to R135). -/

namespace Sys2Proof.Machine

open Real

/-! ## The Basis Matrix by its angles -/

/-- Entry (k, n) of the Basis Matrix as a sign and the index of a cosine. -/
def basisAngle (k n : Fin 8) : Bool × Fin 8 :=
  #v[#v[(false, 0), (false, 0), (false, 0), (false, 0), (false, 0), (false, 0), (false, 0), (false, 0)],
    #v[(false, 1), (false, 3), (false, 5), (false, 7), (true, 7), (true, 5), (true, 3), (true, 1)],
    #v[(false, 2), (false, 6), (true, 6), (true, 2), (true, 2), (true, 6), (false, 6), (false, 2)],
    #v[(false, 3), (true, 7), (true, 1), (true, 5), (false, 5), (false, 1), (false, 7), (true, 3)],
    #v[(false, 4), (true, 4), (true, 4), (false, 4), (false, 4), (true, 4), (true, 4), (false, 4)],
    #v[(false, 5), (true, 1), (false, 7), (false, 3), (true, 3), (true, 7), (false, 1), (true, 5)],
    #v[(false, 6), (true, 2), (false, 2), (true, 6), (true, 6), (false, 2), (true, 2), (false, 6)],
    #v[(false, 7), (true, 5), (false, 3), (true, 1), (false, 1), (true, 3), (false, 5), (true, 7)]][k][n]

theorem basisOf_getElem {α : Type} [Neg α] (cs : Vec8 α) (k n : Fin 8) :
    (basisOf cs)[k][n] =
      if (basisAngle k n).1 then -cs[(basisAngle k n).2] else cs[(basisAngle k n).2] := by
  fin_cases k <;> fin_cases n <;> rfl

/-- The sign and the index say how the angle (2n+1)kπ/16 folds into a half circle. -/
theorem basisAngle_spec (k n : Fin 8) :
    let a := (2 * n.val + 1) * k.val
    let m := (basisAngle k n).2.val
    if (basisAngle k n).1 then (a + m) % 32 = 16 ∨ (a + 16) % 32 = m else a % 32 = m ∨ (a + m) % 32 = 0 := by
  revert k n
  decide

theorem cosReal_add_period (j m : Nat) : cosReal (32 * j + m) = cosReal m := by
  rw [cosReal, cosReal, show ((32 * j + m : Nat) : ℝ) * π / 16 = m * π / 16 + j * (2 * π) by push_cast; ring]
  exact cos_add_nat_mul_two_pi _ j

theorem cosReal_add_half (m : Nat) : cosReal (m + 16) = -cosReal m := by
  rw [cosReal, cosReal, show ((m + 16 : Nat) : ℝ) * π / 16 = m * π / 16 + π by push_cast; ring]
  exact cos_add_pi _

/-- Angles that add up to full circles have the same cosine. -/
theorem cosReal_eq_of_add {a m : Nat} (h : (a + m) % 32 = 0) : cosReal a = cosReal m := by
  obtain ⟨j, hj⟩ := Nat.dvd_of_mod_eq_zero h
  have hj : (a : ℝ) + m = 32 * j := by exact_mod_cast hj
  rw [cosReal, cosReal, show (a : ℝ) * π / 16 = j * (2 * π) - m * π / 16 by linear_combination (π / 16) * hj]
  exact cos_nat_mul_two_pi_sub _ j

theorem cosReal_eq_of_mod {a m : Nat} (h : a % 32 = m) : cosReal a = cosReal m := by
  rw [← Nat.div_add_mod a 32, cosReal_add_period, h]

theorem basisReal_eq_cosReal (k n : Fin 8) : basisReal k n = cosReal ((2 * n.val + 1) * k.val) := by
  simp [basisReal, cosReal]

/-- The c_m as a vector. -/
noncomputable def cosVec : Vec8 ℝ := Vector.ofFn fun m => cosReal m

theorem cosVec_getElem (m : Fin 8) : cosVec[m] = cosReal m := by simp [cosVec]

theorem basisReal_eq (k n : Fin 8) : basisReal k n = (basisOf cosVec)[k][n] := by
  rw [basisReal_eq_cosReal, basisOf_getElem, cosVec_getElem]
  have hspec := basisAngle_spec k n
  dsimp only at hspec
  split_ifs at hspec ⊢
  · rw [eq_neg_iff_add_eq_zero, ← neg_eq_iff_add_eq_zero, ← cosReal_add_half]
    rcases hspec with h | h
    · exact cosReal_eq_of_add (by omega)
    · exact cosReal_eq_of_mod h
  · rcases hspec with h | h
    · exact cosReal_eq_of_mod h
    · exact cosReal_eq_of_add h

theorem basisRealVec_eq : basisRealVec = basisOf cosVec := by
  refine Vector.ext fun k hk => Vector.ext fun n hn => ?_
  simpa [basisRealVec] using basisReal_eq ⟨k, hk⟩ ⟨n, hn⟩

/-! ## Identities between the c_m -/

theorem cosReal_zero : cosReal 0 = 1 := by simp [cosReal]

theorem cosReal_eight : cosReal 8 = 0 := by
  rw [cosReal, show ((8 : Nat) : ℝ) * π / 16 = π / 2 by push_cast; ring, cos_pi_div_two]

theorem cosReal_pos {m : Nat} (h : m < 8) : 0 < cosReal m := by
  have hm : (m : ℝ) < 8 := by exact_mod_cast h
  refine cos_pos_of_mem_Ioo ⟨by linarith [pi_pos, show (0 : ℝ) ≤ m * π / 16 by positivity], ?_⟩
  nlinarith [pi_pos]

/-- The product of two cosines as a sum. -/
theorem cosReal_mul (a b : Nat) (h : b ≤ a) : cosReal a * cosReal b = (cosReal (a + b) + cosReal (a - b)) / 2 := by
  unfold cosReal
  rw [Nat.cast_sub h, show ((a + b : Nat) : ℝ) * π / 16 = a * π / 16 + b * π / 16 by push_cast; ring,
    show ((a : ℝ) - b) * π / 16 = a * π / 16 - b * π / 16 by ring, cos_add, cos_sub]
  ring

theorem cosReal_sq (m : Nat) : cosReal m ^ 2 = (1 + cosReal (2 * m)) / 2 := by
  rw [pow_two, cosReal_mul m m le_rfl, Nat.sub_self, cosReal_zero, two_mul, add_comm]

/-- The cosines past c_8 are those before it with the sign changed. -/
theorem cosReal_reflect {a m : Nat} (h : a + m = 16) : cosReal a = -cosReal m := by
  rw [eq_neg_iff_add_eq_zero, ← neg_eq_iff_add_eq_zero, ← cosReal_add_half]
  exact cosReal_eq_of_add (by omega)

theorem normReal_eq (k : Fin 8) : normReal k = if k = 0 then cosReal 4 else cosReal 0 := by
  have hquarter : cosReal 4 = 1 / √2 := by
    rw [cosReal, show ((4 : Nat) : ℝ) * π / 16 = π / 4 by push_cast; ring, cos_pi_div_four, div_eq_div_iff (by norm_num)
      (by positivity), mul_self_sqrt (by norm_num), one_mul]
  rw [normReal, hquarter, cosReal_zero]

theorem sqrt_two_eq : √2 = 2 * cosReal 4 := by
  rw [cosReal, show ((4 : Nat) : ℝ) * π / 16 = π / 4 by push_cast; ring, cos_pi_div_four]
  ring

/-! ## Rational approximations -/

/-- The c_m cut to 120 binary places. -/
def cosApprox : Vec8 ℚ :=
  #v[1, 0xfb14be7fbae581562172a361fd2a72 / 2 ^ 120, 0xec835e79946a31457e610231ac1d61 / 2 ^ 120,
    0xd4db3148750d1819f630e8b6dac83e / 2 ^ 120, 0xb504f333f9de6484597d89b3754abe / 2 ^ 120,
    0x8e39d9cd73464364bba4cfecbff548 / 2 ^ 120, 0x61f78a9abaa58b4698916152cf7eee / 2 ^ 120,
    0x31f17078d34c156c9732300393f336 / 2 ^ 120]

/-- How far `cosApprox` can be from the c_m. -/
def cosTol (m : Fin 8) : ℚ := if m = 0 then 0 else 1 / 2 ^ 100

/-- A root from an approximation of its square. -/
theorem abs_sub_le_of_sq {x a δ : ℝ} (hx : 0 ≤ x) (ha : 0 < a) (h : |x ^ 2 - a ^ 2| ≤ δ * a) : |x - a| ≤ δ := by
  have hfactor : |x ^ 2 - a ^ 2| = |x - a| * (x + a) := by
    rw [show x ^ 2 - a ^ 2 = (x - a) * (x + a) by ring, abs_mul, abs_of_pos (a := x + a) (by linarith)]
  have hgrow : |x - a| * a ≤ |x - a| * (x + a) := mul_le_mul_of_nonneg_left (by linarith) (abs_nonneg _)
  exact le_of_mul_le_mul_right (by linarith) ha

/-- The cosine of half an angle from an approximation `b` of the cosine `y` of the angle. -/
theorem abs_cosReal_sub_le_of_double {m : Nat} (hm : m < 8) {y : ℝ} (hy : cosReal (2 * m) = y) {a b ε δ : ℚ}
    (hb : |y - b| ≤ (ε : ℝ)) (hclose : 0 < a ∧ |(1 + b) / 2 - a ^ 2| + ε / 2 ≤ δ * a) : |cosReal m - a| ≤ (δ : ℝ) := by
  have hcloseR : |(1 + (b : ℝ)) / 2 - (a : ℝ) ^ 2| + (ε : ℝ) / 2 ≤ (δ : ℝ) * (a : ℝ) := by
    exact_mod_cast hclose.2
  refine abs_sub_le_of_sq (cosReal_pos hm).le (by exact_mod_cast hclose.1) ?_
  rw [cosReal_sq, hy]
  calc |(1 + y) / 2 - (a : ℝ) ^ 2| = |((1 + (b : ℝ)) / 2 - (a : ℝ) ^ 2) + (y - b) / 2| := by ring_nf
    _ ≤ |(1 + (b : ℝ)) / 2 - (a : ℝ) ^ 2| + |(y - b) / 2| := abs_add_le _ _
    _ ≤ |(1 + (b : ℝ)) / 2 - (a : ℝ) ^ 2| + (ε : ℝ) / 2 := by rw [abs_div, abs_two]; linarith
    _ ≤ δ * a := hcloseR

theorem abs_neg_sub_neg {x : ℝ} {a ε : ℚ} (h : |x - a| ≤ (ε : ℝ)) : |-x - (-a : ℚ)| ≤ (ε : ℝ) := by
  rwa [← abs_neg, show -(-x - ((-a : ℚ) : ℝ)) = x - a by push_cast; ring]

theorem abs_cosReal_sub_cosApprox_le (m : Fin 8) : |cosReal m - (cosApprox[m] : ℚ)| ≤ (cosTol m : ℚ) := by
  have h8 : |cosReal 8 - (0 : ℚ)| ≤ (0 : ℚ) := by simp [cosReal_eight]
  have h4 : |cosReal 4 - (cosApprox[4] : ℚ)| ≤ (1 / 2 ^ 114 : ℚ) :=
    abs_cosReal_sub_le_of_double (by decide) rfl h8 (by decide +kernel)
  have h2 : |cosReal 2 - (cosApprox[2] : ℚ)| ≤ (1 / 2 ^ 110 : ℚ) :=
    abs_cosReal_sub_le_of_double (by decide) rfl h4 (by decide +kernel)
  have h6 : |cosReal 6 - (cosApprox[6] : ℚ)| ≤ (1 / 2 ^ 110 : ℚ) :=
    abs_cosReal_sub_le_of_double (by decide) (cosReal_reflect rfl) (abs_neg_sub_neg h4) (by decide +kernel)
  have hloose : ∀ {x : ℝ} {e : ℚ}, x ≤ e → e ≤ 1 / 2 ^ 100 → x ≤ (1 / 2 ^ 100 : ℚ) :=
    fun hx he => hx.trans (by exact_mod_cast he)
  match m with
  | 0 => simp [cosReal_zero, cosApprox, cosTol]
  | 1 => exact abs_cosReal_sub_le_of_double (by decide) rfl h2 (by decide +kernel)
  | 2 => exact hloose h2 (by decide +kernel)
  | 3 => exact abs_cosReal_sub_le_of_double (by decide) rfl h6 (by decide +kernel)
  | 4 => exact hloose h4 (by decide +kernel)
  | 5 => exact abs_cosReal_sub_le_of_double (by decide) (cosReal_reflect rfl) (abs_neg_sub_neg h6) (by decide +kernel)
  | 6 => exact hloose h6 (by decide +kernel)
  | 7 => exact abs_cosReal_sub_le_of_double (by decide) (cosReal_reflect rfl) (abs_neg_sub_neg h2) (by decide +kernel)

end Sys2Proof.Machine
end

section
/-! SUPPORT. The Basis Matrix and the normalisation constants of both formats as correctly rounded closed forms
(40_numeric_common.md R133 to R135). -/

namespace Sys2Proof.Machine

/-- The significand and the step of a finite datum; zeros for the others. -/
def Flt.sigStep {P : Precision} : Flt P → Nat × Nat
  | .fin _ m q => (m, q)
  | .inf _ | .nan => (0, 0)

/-- Every real within `ε` of `a` rounds to `m` steps of size 2^q: the interval is in the binade of that step, and within
half a step of the value. -/
abbrev RoundsAll (P : Precision) (a ε : ℚ) (m q : Nat) : Prop :=
  (Flt.fin false m q : Flt P).Canonical = true ∧ 2 ^ (P.sigBits - 1) * 2 ^ q ≤ (a - ε) * 2 ^ P.unitExp ∧
    (m - 1 / 2) * 2 ^ q < (a - ε) * 2 ^ P.unitExp ∧ (a + ε) * 2 ^ P.unitExp < (m + 1 / 2) * 2 ^ q

theorem RoundsAll.isRounded {P : Precision} {a ε : ℚ} {m q : Nat} (h : RoundsAll P a ε m q) {r : ℝ}
    (hr : |r - a| ≤ (ε : ℝ)) : IsRounded P r (.fin false m q) := by
  obtain ⟨hcanonical, hbinade, hlo, hhi⟩ := h
  have hbinadeR : (2 : ℝ) ^ (P.sigBits - 1) * 2 ^ q ≤ (a - ε) * 2 ^ P.unitExp := by
    simpa using (Rat.cast_le (K := ℝ)).mpr hbinade
  have hloR : ((m : ℝ) - 1 / 2) * 2 ^ q < (a - ε) * 2 ^ P.unitExp := by
    simpa using (Rat.cast_lt (K := ℝ)).mpr hlo
  have hhiR : ((a : ℝ) + ε) * 2 ^ P.unitExp < (m + 1 / 2) * 2 ^ q := by
    simpa using (Rat.cast_lt (K := ℝ)).mpr hhi
  obtain ⟨hr1, hr2⟩ := abs_le.mp hr
  have hunit : (0 : ℝ) < 2 ^ P.unitExp := by positivity
  have hstep : (0 : ℝ) < 2 ^ q := by positivity
  have hlow : ((a : ℝ) - ε) * 2 ^ P.unitExp ≤ r * 2 ^ P.unitExp := mul_le_mul_of_nonneg_right (by linarith) hunit.le
  have hhigh : r * 2 ^ P.unitExp ≤ ((a : ℝ) + ε) * 2 ^ P.unitExp := mul_le_mul_of_nonneg_right (by linarith) hunit.le
  have hnear : |(m : ℝ) - r * 2 ^ P.unitExp / 2 ^ q| < 1 / 2 := by
    have h1 : (m : ℝ) - 1 / 2 < r * 2 ^ P.unitExp / 2 ^ q := (lt_div_iff₀ hstep).mpr (hloR.trans_le hlow)
    have h2 : r * 2 ^ P.unitExp / 2 ^ q < m + 1 / 2 := (div_lt_iff₀ hstep).mpr (hhigh.trans_lt hhiR)
    rw [abs_lt]
    constructor <;> linarith
  have hgrid : OnGrid P (r * 2 ^ P.unitExp) m q :=
    ⟨⟨hnear.le, fun h => absurd h hnear.ne⟩, .inr (hbinadeR.trans hlow)⟩
  simpa [mul_div_cancel_right₀ _ hunit.ne'] using hgrid.isRounded false hcanonical rfl id

theorem IsRounded.negate {P : Precision} {r : ℝ} {x : Flt P} (h : IsRounded P r x) : IsRounded P (-r) x.negate := by
  obtain ⟨s, m, q, rfl, hcanonical, hnearest⟩ := h
  refine ⟨!s, m, q, rfl, hcanonical, fun s' m' q' hc => ?_⟩
  have hflip : ∀ x : Flt P, |((x.val : ℚ) : ℝ) - -r| = |((x.negate.val : ℚ) : ℝ) - r| := fun x => by
    rw [negate_val, Rat.cast_neg, ← abs_neg]
    ring_nf
  have hback : (Flt.fin s' m' q' : Flt P).negate = .fin (!s') m' q' := rfl
  rw [hflip, hflip, hback, show ((Flt.fin s m q : Flt P).negate).negate = .fin s m q by simp [Flt.negate]]
  obtain ⟨hle, htie⟩ := hnearest (!s') m' q' hc
  refine ⟨hle, fun heq => (htie heq).imp_left fun hv => ?_⟩
  rw [← hback, negate_val] at hv
  rw [negate_val, ← hv, neg_neg]

/-- c_m as it is stored. -/
def cosFlt (P : Precision) (m : Fin 8) : Flt P := Flt.ofBits P (cosBits P)[m]

/-- The stored magnitudes are correct whatever reals the approximations stand for. -/
theorem roundsAll_cosFlt (P : Precision) (m : Fin 8) :
    let x := cosFlt P m
    x = .fin false x.sigStep.1 x.sigStep.2 ∧ RoundsAll P cosApprox[m] (cosTol m) x.sigStep.1 x.sigStep.2 := by
  revert m
  cases P <;> decide +kernel

theorem isRounded_cosFlt (P : Precision) (m : Fin 8) : IsRounded P (cosReal m) (cosFlt P m) := by
  obtain ⟨hx, hrounds⟩ := roundsAll_cosFlt P m
  rw [hx]
  exact hrounds.isRounded (abs_cosReal_sub_cosApprox_le m)

theorem basis_getElem (P : Precision) (k n : Fin 8) :
    (Machine.basis P)[k][n] =
      if (basisAngle k n).1 then (cosFlt P (basisAngle k n).2).negate
      else cosFlt P (basisAngle k n).2 := by
  have h := @basisOf_getElem _ (Flt.negOp P) ((cosBits P).map (Flt.ofBits P)) k n
  have hmap : ∀ m : Fin 8, ((cosBits P).map (Flt.ofBits P))[m] = cosFlt P m := fun m => by simp [cosFlt]
  rw [hmap] at h
  exact h

theorem isRounded_basis (P : Precision) (k n : Fin 8) : IsRounded P (basisReal k n) (Machine.basis P)[k][n] := by
  rw [basisReal_eq, basisOf_getElem, cosVec_getElem, basis_getElem]
  split_ifs
  · exact (isRounded_cosFlt P _).negate
  · exact isRounded_cosFlt P _

theorem norm_getElem (P : Precision) (k : Fin 8) :
    (Machine.norm P)[k] = if k = 0 then cosFlt P 4 else cosFlt P 0 := by
  fin_cases k <;> rfl

theorem isRounded_norm (P : Precision) (k : Fin 8) : IsRounded P (normReal k) (Machine.norm P)[k] := by
  rw [normReal_eq, norm_getElem]
  split_ifs
  · exact isRounded_cosFlt P 4
  · exact isRounded_cosFlt P 0

/-- Reflection of the column keeps the cosine and changes the sign in the odd rows. -/
theorem basisAngle_rev (k n : Fin 8) :
    basisAngle k n.rev = ((basisAngle k n).1 ^^ decide (k.val % 2 = 1), (basisAngle k n).2) := by
  revert k n
  decide

theorem basis_rev (P : Precision) (k n : Fin 8) :
    (Machine.basis P)[k][n.rev] =
      if k.val % 2 = 0 then (Machine.basis P)[k][n] else (Machine.basis P)[k][n].negate := by
  have hinv : ∀ x : Flt P, x.negate.negate = x := fun x => by cases x <;> simp [Flt.negate]
  rw [basis_getElem, basis_getElem]
  simp only [basisAngle_rev]
  obtain ⟨s, m⟩ := basisAngle k n
  rcases Nat.mod_two_eq_zero_or_one k.val with hk | hk <;> cases s <;> simp [hk, hinv]

/-- Settles O46: the closed forms by the rational approximations of the cosines, the rest by the angles and the bits. -/
theorem basisConstants : Obligations.BasisConstants := fun P k n =>
  ⟨isRounded_basis P k n, isRounded_norm P k, basis_rev P k n, by decide +kernel, by decide +kernel, by decide +kernel,
    by decide +kernel⟩

end Sys2Proof.Machine
end

section
/-! SUPPORT. The 1D networks in exact arithmetic: every one is the 1D transform, up to the scale its unit undoes
(42_separable.md R190 to R195; 43_llm.md R221; 44_aan.md R242; 45_ap922.md R263, R264; 46_fdct_fast.md R281). -/

namespace Sys2Proof.Machine

open Real

/-! ## Products of the c_m that the networks meet -/

theorem cosReal_products_four :
    cosReal 4 * cosReal 4 = 1 / 2 ∧ cosReal 4 * cosReal 1 = (cosReal 5 + cosReal 3) / 2 ∧
    cosReal 4 * cosReal 2 = (cosReal 6 + cosReal 2) / 2 ∧ cosReal 4 * cosReal 3 = (cosReal 7 + cosReal 1) / 2 ∧
    cosReal 5 * cosReal 4 = (-cosReal 7 + cosReal 1) / 2 ∧ cosReal 6 * cosReal 4 = (-cosReal 6 + cosReal 2) / 2 ∧
    cosReal 7 * cosReal 4 = (-cosReal 5 + cosReal 3) / 2 := by
  refine ⟨?_, cosReal_mul 4 1 (by decide), cosReal_mul 4 2 (by decide), cosReal_mul 4 3 (by decide), ?_, ?_, ?_⟩
  · rw [cosReal_mul 4 4 le_rfl, cosReal_eight, cosReal_zero, zero_add]
  · rw [cosReal_mul 5 4 (by decide), cosReal_reflect (a := 5 + 4) (m := 7) rfl]
  · rw [cosReal_mul 6 4 (by decide), cosReal_reflect (a := 6 + 4) (m := 6) rfl]
  · rw [cosReal_mul 7 4 (by decide), cosReal_reflect (a := 7 + 4) (m := 5) rfl]

theorem cosReal_products_two :
    cosReal 2 * cosReal 1 = (cosReal 3 + cosReal 1) / 2 ∧ cosReal 3 * cosReal 2 = (cosReal 5 + cosReal 1) / 2 ∧
    cosReal 5 * cosReal 2 = (cosReal 7 + cosReal 3) / 2 ∧ cosReal 7 * cosReal 2 = (-cosReal 7 + cosReal 5) / 2 := by
  refine ⟨cosReal_mul 2 1 (by decide), cosReal_mul 3 2 (by decide), cosReal_mul 5 2 (by decide), ?_⟩
  rw [cosReal_mul 7 2 (by decide), cosReal_reflect (a := 7 + 2) (m := 7) rfl]

theorem cosReal_products_six :
    cosReal 6 * cosReal 1 = (cosReal 7 + cosReal 5) / 2 ∧ cosReal 6 * cosReal 3 = (-cosReal 7 + cosReal 3) / 2 ∧
    cosReal 6 * cosReal 5 = (-cosReal 5 + cosReal 1) / 2 ∧ cosReal 7 * cosReal 6 = (-cosReal 3 + cosReal 1) / 2 := by
  refine ⟨cosReal_mul 6 1 (by decide), ?_, ?_, ?_⟩
  · rw [cosReal_mul 6 3 (by decide), cosReal_reflect (a := 6 + 3) (m := 7) rfl]
  · rw [cosReal_mul 6 5 (by decide), cosReal_reflect (a := 6 + 5) (m := 5) rfl]
  · rw [cosReal_mul 7 6 (by decide), cosReal_reflect (a := 7 + 6) (m := 3) rfl]

/-! ## The 1D transforms over the c_m -/

/-- The 1D inverse transform with the basis by its angles. -/
theorem idct1d_eq (X : Vec8 ℝ) (n : Fin 8) :
    idct1d X n = cosReal 4 * X[0] + ∑ k : Fin 7, X[k.succ] * (basisOf cosVec)[k.succ][n] := by
  rw [idct1d, Fin.sum_univ_succ, normReal_eq, if_pos rfl, basisReal_eq]
  have hrow : (basisOf cosVec)[(0 : Fin 8)][n] = 1 := by
    rw [basisOf_getElem, cosVec_getElem]
    fin_cases n <;> simp [basisAngle, cosReal_zero]
  have hterm : ∀ k : Fin 7, normReal k.succ * X[k.succ] * basisReal k.succ n =
      X[k.succ] * (basisOf cosVec)[k.succ][n] := fun k => by
    rw [normReal_eq, if_neg (Fin.succ_ne_zero k), cosReal_zero, one_mul, basisReal_eq]
  rw [hrow, mul_one]
  exact congrArg _ (Finset.sum_congr rfl fun k _ => hterm k)

/-- The eight outputs of the 1D inverse transform. -/
theorem idct1d_values (X : Vec8 ℝ) (n : Fin 8) :
    idct1d X n =
      (#v[cosReal 4 * X[0] + cosReal 1 * X[1] + cosReal 2 * X[2] + cosReal 3 * X[3] + cosReal 4 * X[4]
        + cosReal 5 * X[5] + cosReal 6 * X[6] + cosReal 7 * X[7],
        cosReal 4 * X[0] + cosReal 3 * X[1] + cosReal 6 * X[2] - cosReal 7 * X[3] - cosReal 4 * X[4]
        - cosReal 1 * X[5] - cosReal 2 * X[6] - cosReal 5 * X[7],
        cosReal 4 * X[0] + cosReal 5 * X[1] - cosReal 6 * X[2] - cosReal 1 * X[3] - cosReal 4 * X[4]
        + cosReal 7 * X[5] + cosReal 2 * X[6] + cosReal 3 * X[7],
        cosReal 4 * X[0] + cosReal 7 * X[1] - cosReal 2 * X[2] - cosReal 5 * X[3] + cosReal 4 * X[4]
        + cosReal 3 * X[5] - cosReal 6 * X[6] - cosReal 1 * X[7],
        cosReal 4 * X[0] - cosReal 7 * X[1] - cosReal 2 * X[2] + cosReal 5 * X[3] + cosReal 4 * X[4]
        - cosReal 3 * X[5] - cosReal 6 * X[6] + cosReal 1 * X[7],
        cosReal 4 * X[0] - cosReal 5 * X[1] - cosReal 6 * X[2] + cosReal 1 * X[3] - cosReal 4 * X[4]
        - cosReal 7 * X[5] + cosReal 2 * X[6] - cosReal 3 * X[7],
        cosReal 4 * X[0] - cosReal 3 * X[1] + cosReal 6 * X[2] + cosReal 7 * X[3] - cosReal 4 * X[4]
        + cosReal 1 * X[5] - cosReal 2 * X[6] + cosReal 5 * X[7],
        cosReal 4 * X[0] - cosReal 1 * X[1] + cosReal 2 * X[2] - cosReal 3 * X[3] + cosReal 4 * X[4]
        - cosReal 5 * X[5] + cosReal 6 * X[6] - cosReal 7 * X[7]] : Vec8 ℝ)[n] := by
  rw [idct1d_eq]
  simp only [Fin.sum_univ_seven]
  fin_cases n <;> simp [basisOf, cosVec] <;> ring

/-- A vector of eight is a multiple of another one if each element is. -/
theorem eq_mul_vec8 {c a0 a1 a2 a3 a4 a5 a6 a7 b0 b1 b2 b3 b4 b5 b6 b7 : ℝ} (h0 : a0 = c * b0) (h1 : a1 = c * b1)
    (h2 : a2 = c * b2) (h3 : a3 = c * b3) (h4 : a4 = c * b4) (h5 : a5 = c * b5) (h6 : a6 = c * b6) (h7 : a7 = c * b7)
    (n : Fin 8) : (#v[a0, a1, a2, a3, a4, a5, a6, a7] : Vec8 ℝ)[n] =
        c * (#v[b0, b1, b2, b3, b4, b5, b6, b7] : Vec8 ℝ)[n] := by
  fin_cases n <;> assumption

/-- The 1D forward transform (40_numeric_common.md R142). -/
noncomputable def fdct1d (x : Vec8 ℝ) (k : Fin 8) : ℝ := normReal k * ∑ n : Fin 8, x[n] * basisReal k n

theorem cosReal_eq_sin (m : Nat) (h : m ≤ 8) : cosReal m = sin ((8 - m : Nat) * π / 16) := by
  rw [cosReal, ← sin_pi_div_two_sub, Nat.cast_sub h]
  congr 1
  push_cast
  ring

theorem llmReal_eq :
    llmReal = ⟨2 * cosReal 4, cosReal 6 + cosReal 2, -cosReal 6 + cosReal 2, cosReal 1, cosReal 7,
      cosReal 3, cosReal 5⟩ := by
  obtain ⟨-, -, h42, -, -, h64, -⟩ := cosReal_products_four
  have h2 : √2 * cosReal 2 = cosReal 6 + cosReal 2 := by rw [sqrt_two_eq]; linarith
  have h6 : √2 * cosReal 6 = -cosReal 6 + cosReal 2 := by rw [sqrt_two_eq]; linarith
  have h1 : cos (π / 16) = cosReal 1 := by simp [cosReal]
  have h7 : sin (π / 16) = cosReal 7 := by simp [cosReal_eq_sin 7 (by decide)]
  have h5 : sin (3 * π / 16) = cosReal 5 := by simp [cosReal_eq_sin 5 (by decide)]
  rw [llmReal, ← sqrt_two_eq, ← h2, ← h6, h1, h7, h5]
  simp [cosReal]

theorem llm1d_real (Y : Vec8 ℝ) (n : Fin 8) : (llm1d llmReal Y)[n] = √2 * idct1d Y n := by
  obtain ⟨h44, h41, h42, h43, h54, h64, h74⟩ := cosReal_products_four
  rw [llmReal_eq, sqrt_two_eq, idct1d_values]
  refine eq_mul_vec8 ?_ ?_ ?_ ?_ ?_ ?_ ?_ ?_ n <;> dsimp only <;> grind

theorem llmF1d_real (x : Vec8 ℝ) (k : Fin 8) : (llmF1d llmReal x)[k] = √2 * fdct1d x k := by
  obtain ⟨h44, h41, h42, h43, h54, h64, h74⟩ := cosReal_products_four
  simp only [llmReal_eq, sqrt_two_eq, fdct1d, normReal_eq, basisReal_eq, Fin.sum_univ_eight]
  fin_cases k <;> simp [llmF1d, basisOf, cosVec, cosReal_zero] <;> grind

theorem aanReal_eq :
    aanReal = ⟨2 * cosReal 4, 2 * cosReal 2, 2 * cosReal 6, 2 * (cosReal 2 - cosReal 6),
      2 * (cosReal 2 + cosReal 6)⟩ := by
  have h2 : cos (π / 8) = cosReal 2 := by rw [cosReal]; congr 1; push_cast; ring
  have h6 : cos (3 * π / 8) = cosReal 6 := by rw [cosReal]; congr 1; push_cast; ring
  rw [aanReal, h2, h6, sqrt_two_eq]
  simp [cosReal]

theorem aanScale_eq (k : Fin 8) : aanScale k = if k = 0 then 1 else 2 * cosReal 4 * cosReal k := by
  rw [aanScale, sqrt_two_eq]
  rfl

theorem aan1d_real (Y : Vec8 ℝ) (n : Fin 8) :
    (aan1d aanReal (Vector.ofFn fun k => aanScale k * Y[k]))[n] = √2 * idct1d Y n := by
  obtain ⟨h44, h41, h42, h43, h54, h64, h74⟩ := cosReal_products_four
  obtain ⟨h21, h32, h52, h72⟩ := cosReal_products_two
  obtain ⟨h61, h63, h65, h76⟩ := cosReal_products_six
  rw [aanReal_eq, sqrt_two_eq, idct1d_values]
  refine eq_mul_vec8 ?_ ?_ ?_ ?_ ?_ ?_ ?_ ?_ n <;> simp [aanScale_eq] <;> grind

theorem ap922Real_eq :
    ap922Real = ⟨cosReal 7 / cosReal 1, cosReal 6 / cosReal 2, cosReal 5 / cosReal 3, cosReal 4⟩ := by
  simp [ap922Real, cosReal]

theorem wReal_eq (idx n : Fin 4) (k : Fin 8) :
    wReal idx n k = rowScale idx * (normReal k * (basisOf cosVec)[k][n.castLE (by decide : 4 ≤ 8)]) := by
  rw [← basisReal_eq, wReal, mul_assoc]
  rfl

theorem ap922Col_real (Z : Vec8 ℝ) (n : Fin 8) :
    (ap922Col ap922Real (Vector.ofFn fun r => rowScale row2idx[r] * Z[r]))[n] = idct1d Z n := by
  obtain ⟨h44, h41, h42, h43, h54, h64, h74⟩ := cosReal_products_four
  have h1 : cosReal 7 / cosReal 1 * cosReal 1 = cosReal 7 := div_mul_cancel₀ _ (cosReal_pos (by decide)).ne'
  have h2 : cosReal 6 / cosReal 2 * cosReal 2 = cosReal 6 := div_mul_cancel₀ _ (cosReal_pos (by decide)).ne'
  have h3 : cosReal 5 / cosReal 3 * cosReal 3 = cosReal 5 := div_mul_cancel₀ _ (cosReal_pos (by decide)).ne'
  rw [← one_mul (idct1d Z n), idct1d_values, ap922Real_eq]
  generalize cosReal 7 / cosReal 1 = t1 at *
  generalize cosReal 6 / cosReal 2 = t2 at *
  generalize cosReal 5 / cosReal 3 = t3 at *
  refine eq_mul_vec8 ?_ ?_ ?_ ?_ ?_ ?_ ?_ ?_ n <;> simp [rowScale, row2idx, groupK] <;> grind

/-! ## The kernels that add up products: even and odd partial sums -/

/-- One product of the 1D inverse transform. -/
noncomputable def idctTerm (X : Vec8 ℝ) (k n : Fin 8) : ℝ := normReal k * X[k] * basisReal k n

theorem idctTerm_rev (X : Vec8 ℝ) (k n : Fin 8) :
    idctTerm X k n.rev = if k.val % 2 = 0 then idctTerm X k n else -idctTerm X k n := by
  unfold idctTerm
  rw [basisReal_eq, basisReal_eq, basisOf_getElem, basisOf_getElem, cosVec_getElem, cosVec_getElem]
  simp only [basisAngle_rev]
  obtain ⟨s, m⟩ := basisAngle k n
  rcases Nat.mod_two_eq_zero_or_one k.val with hk | hk <;> cases s <;> simp [hk]

/-- Reflection within a half keeps the angles of rows 0 and 4 and changes the sign in rows 2 and 6. -/
theorem basisAngle_fold (k n : Fin 8) (hk : k.val % 2 = 0) :
    basisAngle k (3 - n) = ((basisAngle k n).1 ^^ decide (k.val % 4 = 2), (basisAngle k n).2) := by
  revert k n
  decide

theorem idctTerm_fold (X : Vec8 ℝ) (k n : Fin 8) (hk : k.val % 2 = 0) :
    idctTerm X k (3 - n) = if k.val % 4 = 2 then -idctTerm X k n else idctTerm X k n := by
  unfold idctTerm
  rw [basisReal_eq, basisReal_eq, basisOf_getElem, basisOf_getElem, cosVec_getElem, cosVec_getElem]
  simp only [basisAngle_fold k n hk]
  obtain ⟨s, m⟩ := basisAngle k n
  by_cases h2 : k.val % 4 = 2 <;> cases s <;> simp [h2]

section

variable (X : Vec8 ℝ) (n : Fin 8)

theorem idct1d_eq_sumOver : idct1d X n = sumOver allIdx fun k => idctTerm X k n := by
  simp [sumOver, allIdx, idct1d, idctTerm, Fin.sum_univ_eight]

theorem idct1d_near :
    (sumOver evenIdx fun k => idctTerm X k n) + (sumOver oddIdx fun k => idctTerm X k n) = idct1d X n := by
  rw [idct1d_eq_sumOver]
  simp only [sumOver, allIdx, evenIdx, oddIdx, List.foldl]
  ring

theorem idct1d_far :
    (sumOver evenIdx fun k => idctTerm X k n) - (sumOver oddIdx fun k => idctTerm X k n) = idct1d X n.rev := by
  rw [← idct1d_near]
  simp [sumOver, evenIdx, oddIdx, idctTerm_rev]
  ring

end

/-- An element of a vector of eight, from its eight elements. -/
theorem getElem_vec8 {f : Fin 8 → ℝ} {a0 a1 a2 a3 a4 a5 a6 a7 : ℝ} (h0 : a0 = f 0) (h1 : a1 = f 1) (h2 : a2 = f 2)
    (h3 : a3 = f 3) (h4 : a4 = f 4) (h5 : a5 = f 5) (h6 : a6 = f 6) (h7 : a7 = f 7) (n : Fin 8) :
    (#v[a0, a1, a2, a3, a4, a5, a6, a7] : Vec8 ℝ)[n] = f n := by
  fin_cases n <;> assumption

theorem scaled_mul_real (X : Vec8 ℝ) (k n : Fin 8) :
    (scaled normRealVec X)[k] * basisRealVec[k][n] = idctTerm X k n := by
  simp [scaled, normRealVec, basisRealVec, idctTerm]

theorem plain_real (X : Vec8 ℝ) (n : Fin 8) : (plain normRealVec basisRealVec X)[n] = idct1d X n := by
  simp only [plain, scaled_mul_real]
  simp [idct1d_eq_sumOver]

theorem sym2_real (X : Vec8 ℝ) (n : Fin 8) : (sym2 normRealVec basisRealVec X)[n] = idct1d X n := by
  have near := idct1d_near X
  have far := idct1d_far X
  simp only [sym2, scaled_mul_real]
  exact getElem_vec8 (near 0) (near 1) (near 2) (near 3) (far 3) (far 2) (far 1) (far 0) n

theorem sym4_real (X : Vec8 ℝ) (n : Fin 8) : (sym4 normRealVec basisRealVec X)[n] = idct1d X n := by
  -- The even part of output n, and of its mirror image in the half.
  have heven : ∀ n : Fin 8, (sumOver [0, 4] fun k => idctTerm X k n) + (sumOver [2, 6] fun k => idctTerm X k n) =
      sumOver evenIdx fun k => idctTerm X k n := fun n => by
    simp only [sumOver, evenIdx, List.foldl]
    ring
  have hmirror : ∀ n : Fin 8, (sumOver [0, 4] fun k => idctTerm X k n) - (sumOver [2, 6] fun k => idctTerm X k n) =
      sumOver evenIdx fun k => idctTerm X k (3 - n) := fun n => by
    simp [sumOver, evenIdx, idctTerm_fold]
    ring
  have near := idct1d_near X
  have far := idct1d_far X
  simp only [sym4, scaled_mul_real, heven, hmirror]
  exact getElem_vec8 (near 0) (near 1) (near 2) (near 3) (far 3) (far 2) (far 1) (far 0) n

theorem sym8_real (X : Vec8 ℝ) (n : Fin 8) : (sym8 normRealVec basisRealVec X)[n] = idct1d X n := by
  have near := fun n => (idct1d_eq_sumOver X n).symm
  have far : ∀ n : Fin 8, (sumOver allIdx fun k => if k.val % 2 = 0 then idctTerm X k n else -idctTerm X k n) =
      idct1d X n.rev := fun n => by
    simp only [idct1d_eq_sumOver, idctTerm_rev]
  simp only [sym8, scaled_mul_real]
  exact getElem_vec8 (near 0) (near 1) (near 2) (near 3) (far 3) (far 2) (far 1) (far 0) n

theorem ap922Row_real (idx : Fin 4) (X : Vec8 ℝ) (n : Fin 8) :
    (ap922Row wRealVec[idx] X)[n] = rowScale idx * idct1d X n := by
  have hterm : ∀ (n : Fin 4) (k : Fin 8), wRealVec[idx][n][k] * X[k] =
      rowScale idx * idctTerm X k (n.castLE (by decide)) := fun n k => by
    have hw : wRealVec[idx][n][k] = wReal idx n k := by simp [wRealVec]
    rw [hw, wReal_eq, idctTerm, basisReal_eq]
    ring
  have hsum : ∀ (ks : List (Fin 8)) (n : Fin 8),
      (sumOver ks fun k => rowScale idx * idctTerm X k n) =
          rowScale idx * sumOver ks fun k => idctTerm X k n := fun ks n => by
    have hfold : ∀ a : ℝ, ks.foldl (fun acc k => acc + rowScale idx * idctTerm X k n) (rowScale idx * a) =
        rowScale idx * ks.foldl (fun acc k => acc + idctTerm X k n) a := by
      induction ks with
      | nil => exact fun _ => rfl
      | cons k ks ih => exact fun a => by rw [List.foldl_cons, List.foldl_cons, ← ih, mul_add]
    simpa [sumOver] using hfold 0
  have near := fun n => congrArg (rowScale idx * ·) (idct1d_near X n)
  have far := fun n => congrArg (rowScale idx * ·) (idct1d_far X n)
  simp only [mul_add, mul_sub] at near far
  simp only [ap922Row, hterm, hsum]
  exact getElem_vec8 (f := fun n => rowScale idx * idct1d X n) (near 0) (near 1) (near 2) (near 3) (far 3) (far 2)
    (far 1) (far 0) n

end Sys2Proof.Machine
end

section
/-! SUPPORT. The 2D transforms in exact arithmetic: two passes of a 1D network are the 2D transform, and the exact
transforms undo each other (40_numeric_common.md R141, R142). -/

namespace Sys2Proof.Machine

open Real

/-! ## Two passes, position by position -/

theorem at_ofCols_rows {α β γ : Type} (row : Fin 8 → Vec8 α → Vec8 β) (col : Vec8 β → Vec8 γ) (F : Block α)
    (i j : Fin 8) :
    (ofCols (crossPass col (rowPass row F))).at i j =
      (col (Vector.ofFn fun u => (row u (Vector.ofFn fun v => F.at u v))[j]))[i] := by
  simp [ofCols, crossPass, rowPass]

theorem at_ofRows_cols {α β γ : Type} (col : Vec8 α → Vec8 β) (row : Vec8 β → Vec8 γ) (F : Block α) (i j : Fin 8) :
    (ofRows (crossPass row (colPass col F))).at i j =
      (row (Vector.ofFn fun y => (col (Vector.ofFn fun x => F.at x y))[i]))[j] := by
  simp [ofRows, crossPass, colPass]

theorem at_map {α β : Type} (f : α → β) (F : Block α) (i j : Fin 8) : Block.at (F.map f) i j = f (F.at i j) := by
  simp [Block.at]

/-! ## The exact transforms as two 1D transforms -/

theorem idct1d_smul (c : ℝ) (f : Fin 8 → ℝ) (n : Fin 8) :
    idct1d (Vector.ofFn fun k => c * f k) n = c * idct1d (Vector.ofFn f) n := by
  simp only [idct1d, Finset.mul_sum]
  exact Finset.sum_congr rfl fun k _ => by simp; ring

theorem fdct1d_smul (c : ℝ) (f : Fin 8 → ℝ) (k : Fin 8) :
    fdct1d (Vector.ofFn fun n => c * f n) k = c * fdct1d (Vector.ofFn f) k := by
  simp only [fdct1d, Finset.mul_sum]
  exact Finset.sum_congr rfl fun n _ => by simp; ring

/-- The 1D inverse transform over the rows, then over the columns. -/
noncomputable def idctRowsCols (F : Block ℝ) (x y : Fin 8) : ℝ :=
  idct1d (Vector.ofFn fun u => idct1d (Vector.ofFn fun v => F.at u v) y) x

theorem idctExact_eq (F : Block ℝ) (x y : Fin 8) : idctExact F x y = 1 / 4 * idctRowsCols F x y := by
  simp only [idctExact, idctRowsCols, idct1d, Finset.mul_sum]
  refine Finset.sum_congr rfl fun u _ => ?_
  simp only [Fin.getElem_fin, Vector.getElem_ofFn, Finset.mul_sum, Finset.sum_mul]
  exact Finset.sum_congr rfl fun v _ => by ring

theorem fdctExact_eq (d : Block ℝ) (u v : Fin 8) :
    fdctExact d u v = 1 / 4 * fdct1d (Vector.ofFn fun y => fdct1d (Vector.ofFn fun x => d.at x y) u) v := by
  simp only [fdctExact, fdct1d, Finset.mul_sum]
  rw [Finset.sum_comm]
  refine Finset.sum_congr rfl fun y _ => ?_
  simp only [Fin.getElem_fin, Vector.getElem_ofFn, Finset.mul_sum, Finset.sum_mul]
  exact Finset.sum_congr rfl fun x _ => by ring

theorem sum2_eq (f : Fin 8 → Fin 8 → ℝ) : sum2 f = ∑ u, ∑ v, f u v := by
  simp [sum2, allIdx, Fin.sum_univ_eight]
  ring

theorem refIdct_real (F : Block ℝ) (x y : Fin 8) :
    (refIdct normRealVec basisRealVec (1 / 4) F).at x y = idctExact F x y := by
  simp [refIdct, sum2_eq, idctExact, normRealVec, basisRealVec, mul_comm]

theorem refFdct_real (d : Block ℝ) (u v : Fin 8) :
    (refFdct normRealVec basisRealVec (1 / 4) d).at u v = fdctExact d u v := by
  simp [refFdct, sum2_eq, fdctExact, normRealVec, basisRealVec]
  ring

/-- The separable wiring of a kernel that is the 1D transform. -/
theorem sep2d_real {kernel : Vec8 ℝ → Vec8 ℝ} (h : ∀ X n, (kernel X)[n] = idct1d X n) (F : Block ℝ) (x y : Fin 8) :
    (sep2d kernel (1 / 4) F).at x y = idctExact F x y := by
  rw [sep2d, at_map, at_ofCols_rows, h, idctExact_eq, idctRowsCols, mul_comm]
  simp only [h]

theorem llm2d_real (F : Block ℝ) (x y : Fin 8) : (llm2d llmReal (1 / 8) F).at x y = idctExact F x y := by
  have hsq : √2 * √2 = 2 := mul_self_sqrt (by norm_num)
  rw [llm2d, at_map, at_ofCols_rows, llm1d_real, idctExact_eq, idctRowsCols]
  simp only [llm1d_real, idct1d_smul]
  linear_combination (1 / 8) * idct1d (Vector.ofFn fun u => idct1d (Vector.ofFn fun v => F.at u v) y) x * hsq

theorem llmF2d_real (d : Block ℝ) (u v : Fin 8) : (llmF2d llmReal (1 / 8) d).at u v = fdctExact d u v := by
  have hsq : √2 * √2 = 2 := mul_self_sqrt (by norm_num)
  rw [llmF2d, at_map, at_ofRows_cols, llmF1d_real, fdctExact_eq]
  simp only [llmF1d_real, fdct1d_smul]
  linear_combination (1 / 8) * fdct1d (Vector.ofFn fun y => fdct1d (Vector.ofFn fun x => d.at x y) u) v * hsq

theorem prescaleRealVec_getElem (u v : Fin 8) : prescaleRealVec[u][v] = aanScale u * aanScale v / 8 := by
  simp [prescaleRealVec, prescaleReal]

/-- The pre-scale gives each pass its factors aan[k], and the two factors √2 cancel its 1/8 to 1/4. -/
theorem aan2d_real (F : Block ℝ) (x y : Fin 8) : (aan2d aanReal prescaleRealVec F).at x y = idctExact F x y := by
  have hsq : √2 * √2 = 2 := mul_self_sqrt (by norm_num)
  have hrow : ∀ u : Fin 8, (aan1d aanReal (Vector.ofFn fun v =>
      (Block.build fun u v => F.at u v * prescaleRealVec[u][v]).at u v))[y] =
      aanScale u * (√2 / 8 * idct1d (Vector.ofFn fun v => F.at u v) y) := fun u => by
    have hinput : (Vector.ofFn fun v => (Block.build fun u v => F.at u v * prescaleRealVec[u][v]).at u v) =
        Vector.ofFn fun v => aanScale v * (Vector.ofFn fun v => aanScale u / 8 * F.at u v)[v] := by
      refine congrArg Vector.ofFn (funext fun v => ?_)
      rw [Block.at_build, prescaleRealVec_getElem, Fin.getElem_fin, Vector.getElem_ofFn]
      ring
    rw [hinput, aan1d_real, idct1d_smul]
    ring
  rw [aan2d, at_ofCols_rows, idctExact_eq, idctRowsCols]
  simp only [hrow]
  have hcol := aan1d_real (Vector.ofFn fun u => √2 / 8 * idct1d (Vector.ofFn fun v => F.at u v) y) x
  simp only [Fin.getElem_fin, Vector.getElem_ofFn] at hcol ⊢
  rw [hcol, idct1d_smul]
  linear_combination (1 / 8) * idct1d (Vector.ofFn fun u => idct1d (Vector.ofFn fun v => F.at u v) y) x * hsq

theorem ap922Twice_real (F : Block ℝ) (x y : Fin 8) :
    (ap922Twice wRealVec ap922Real (1 / 4) F).at x y = idctExact F x y := by
  rw [ap922Twice, at_map, at_ofCols_rows, idctExact_eq, idctRowsCols]
  simp only [ap922Row_real]
  have hcol := ap922Col_real (Vector.ofFn fun u => idct1d (Vector.ofFn fun v => F.at u v) y) x
  simp only [Fin.getElem_fin, Vector.getElem_ofFn] at hcol ⊢
  rw [hcol, mul_comm]

/-- Settles O56: the direct sums by their terms, the others by their 1D networks over two passes. -/
theorem transformsExact : Obligations.TransformsExact := fun F i j =>
  ⟨refIdct_real F i j, refFdct_real F i j, sep2d_real plain_real F i j, sep2d_real sym2_real F i j,
    sep2d_real sym4_real F i j, sep2d_real sym8_real F i j, llm2d_real F i j, llmF2d_real F i j, aan2d_real F i j,
    ap922Twice_real F i j⟩

/-! ## The exact transforms undo each other -/

/-- Lagrange's identity for a sum of cosines, each term a difference of sines. -/
theorem two_sin_mul_sum_cos (x : ℝ) (n : Nat) :
    2 * sin x * ∑ k ∈ Finset.range n, cos (2 * (k + 1) * x) = sin ((2 * n + 1) * x) - sin x := by
  induction n with
  | zero => simp
  | succ n ih =>
    have hstep : 2 * sin x * cos (2 * (n + 1) * x) = sin ((2 * (n + 1 : Nat) + 1) * x) - sin ((2 * n + 1) * x) := by
      rw [sin_sub_sin]
      push_cast
      ring_nf
    rw [Finset.sum_range_succ, mul_add, ih, hstep]
    ring

/-- Over the seven frequencies the cosines of an even multiple of the angle add up to -1, of an odd one to 0. -/
theorem sum_cosReal {j : Nat} (hpos : 0 < j) (hlt : j < 16) :
    ∑ k : Fin 7, cosReal (2 * j * (k + 1)) = if j % 2 = 0 then -1 else 0 := by
  have hj : (0 : ℝ) < j ∧ (j : ℝ) < 16 := ⟨by exact_mod_cast hpos, by exact_mod_cast hlt⟩
  have hsin : 0 < sin (j * π / 16) := sin_pos_of_pos_of_lt_pi (by have := pi_pos; positivity) (by nlinarith [pi_pos])
  have hsum := two_sin_mul_sum_cos (j * π / 16) 7
  have hangle : sin ((2 * (7 : Nat) + 1) * (j * π / 16)) = -(-1) ^ j * sin (j * π / 16) := by
    rw [show (2 * ((7 : Nat) : ℝ) + 1) * (j * π / 16) = j * π - j * π / 16 by push_cast; ring, sin_sub, sin_nat_mul_pi,
      cos_nat_mul_pi]
    ring
  have hterms : ∑ k : Fin 7, cosReal (2 * j * (k + 1)) = ∑ k ∈ Finset.range 7, cos (2 * (k + 1) * (j * π / 16)) := by
    rw [Finset.sum_range]
    refine Finset.sum_congr rfl fun k _ => ?_
    rw [cosReal]
    congr 1
    push_cast
    ring
  rw [hterms]
  refine mul_left_cancel₀ (mul_pos two_pos hsin).ne' ?_
  rw [hsum, hangle]
  split_ifs with heven
  · rw [(Nat.even_iff.mpr heven).neg_one_pow]
    ring
  · rw [(Nat.not_even_iff_odd.mp (mt Nat.even_iff.mp heven)).neg_one_pow]
    ring

/-- The columns of the normalised basis are orthogonal. -/
theorem basisReal_orthogonal (a n : Fin 8) :
    ∑ k : Fin 8, normReal k ^ 2 * (basisReal k a * basisReal k n) = if a = n then 4 else 0 := by
  wlog hle : n ≤ a generalizing a n
  · rw [if_congr eq_comm rfl rfl, ← this n a (le_of_not_ge hle)]
    simp only [mul_comm]
  have hproduct : ∀ k : Fin 7, normReal k.succ ^ 2 * (basisReal k.succ a * basisReal k.succ n) =
      (cosReal (2 * (a + n + 1) * (k + 1)) + cosReal (2 * (a - n) * (k + 1))) / 2 := fun k => by
    rw [normReal_eq, if_neg (Fin.succ_ne_zero k), cosReal_zero, one_pow, one_mul, basisReal_eq_cosReal,
      basisReal_eq_cosReal, cosReal_mul _ _ (Nat.mul_le_mul_right _ (by omega)), ← Nat.add_mul, ← Nat.sub_mul]
    congr 3
    · rw [Fin.val_succ]
      congr 1
      ring
    · rw [Fin.val_succ]
      congr 1
      omega
  have hfirst : normReal 0 ^ 2 * (basisReal 0 a * basisReal 0 n) = 1 / 2 := by
    have h44 := cosReal_products_four.1
    rw [normReal_eq, if_pos rfl, pow_two, h44]
    simp [basisReal]
  rw [Fin.sum_univ_succ, hfirst]
  simp only [hproduct]
  rw [← Finset.sum_div, Finset.sum_add_distrib, sum_cosReal (j := a + n + 1) (by omega) (by omega)]
  by_cases heq : a = n
  · subst heq
    simp [cosReal_zero, show (a.val + a.val + 1) % 2 = 1 by omega]
    norm_num
  · rw [sum_cosReal (j := a - n) (by omega) (by omega), if_neg heq]
    rcases Nat.mod_two_eq_zero_or_one (a.val - n.val) with hp | hp
    · rw [if_neg (by omega), if_pos hp]
      norm_num
    · rw [if_pos (by omega), if_neg (by omega)]
      norm_num

theorem idct1d_fdct1d (z : Vec8 ℝ) (n : Fin 8) : idct1d (Vector.ofFn fun k => fdct1d z k) n = 4 * z[n] := by
  have hswap : idct1d (Vector.ofFn fun k => fdct1d z k) n =
      ∑ a : Fin 8, z[a] * ∑ k : Fin 8, normReal k ^ 2 * (basisReal k a * basisReal k n) := by
    simp only [idct1d, fdct1d, Finset.mul_sum]
    rw [Finset.sum_comm]
    refine Finset.sum_congr rfl fun k _ => ?_
    simp only [Fin.getElem_fin, Vector.getElem_ofFn, Finset.mul_sum, Finset.sum_mul]
    exact Finset.sum_congr rfl fun a _ => by ring
  rw [hswap]
  simp only [basisReal_orthogonal]
  simp [mul_comm]

/-- Settles O57: each pass undoes its own, with a factor 4 that the two factors 1/4 cancel. -/
theorem exactTransformsInverse : Obligations.ExactTransformsInverse := by
  intro d x y
  have hrow : ∀ u : Fin 8, idct1d (Vector.ofFn fun v => (Block.build (fdctExact d)).at u v) y =
      fdct1d (Vector.ofFn fun x => d.at x y) u := fun u => by
    simp only [Block.at_build, fdctExact_eq]
    rw [idct1d_smul, idct1d_fdct1d]
    simp
  rw [idctExact_eq, idctRowsCols]
  simp only [hrow]
  rw [idct1d_fdct1d]
  simp

end Sys2Proof.Machine
end

section
/-! SUPPORT. Forward error analysis: a datum tracks a real number within an error bound, the bounds are propagated by
the same wiring that computes the data, and each rounding adds its share (40_numeric_common.md R132, R145, R148). -/

namespace Sys2Proof.Machine

/-! ## Error bounds and their arithmetic -/

/-- Bounds in units of 2^-40: on the magnitude of an exact value, and on the distance of the computed one from it. -/
structure ErrBound where
  mag : Nat
  err : Nat

/-- The bounds after a rounding of a result with the bounds `m` and `e`: 2^-24 of its magnitude is added to the error.
There is none where the magnitude may come near the end of the format. -/
def ErrBound.rounded (m e : Nat) : Option ErrBound :=
  if m + e < 2 ^ 160 then some ⟨m, e + ((m + e) / 2 ^ 24 + 1)⟩ else none

/-- The bounds of a sum or a difference. -/
def ErrBound.sum : Option ErrBound → Option ErrBound → Option ErrBound
  | some a, some b => ErrBound.rounded (a.mag + b.mag) (a.err + b.err)
  | _, _ => none

/-- The bounds of a product. -/
def ErrBound.prod : Option ErrBound → Option ErrBound → Option ErrBound
  | some a, some b =>
    ErrBound.rounded (a.mag * b.mag / 2 ^ 40 + 1) ((a.mag * b.err + b.mag * a.err + a.err * b.err) / 2 ^ 40 + 1)
  | _, _ => none

/-- The sign `+` of a kernel that is run on bounds. -/
@[reducible] def ErrBound.addOp : Add (Option ErrBound) := ⟨ErrBound.sum⟩
/-- The sign `-` of a kernel that is run on bounds. -/
@[reducible] def ErrBound.subOp : Sub (Option ErrBound) := ⟨ErrBound.sum⟩
/-- The sign `*` of a kernel that is run on bounds. -/
@[reducible] def ErrBound.mulOp : Mul (Option ErrBound) := ⟨ErrBound.prod⟩
/-- Negation changes no bound. -/
@[reducible] def ErrBound.negOp : Neg (Option ErrBound) := ⟨id⟩
/-- The bounds of the 0 that sums start at. -/
@[reducible] def ErrBound.zeroOp : Zero (Option ErrBound) := ⟨some ⟨0, 0⟩⟩

/-! ## Tracking -/

/-- The datum `x` is finite and within the bounds of the real `r`; without bounds nothing is said. -/
inductive Tracks {P : Precision} (x : Flt P) (r : ℝ) : Option ErrBound → Prop
  | unbounded : Tracks x r none
  | within {b : ErrBound} (finite : x.isFinite = true) (mag : |r| ≤ b.mag / 2 ^ 40)
    (err : |((x.val : ℚ) : ℝ) - r| ≤ b.err / 2 ^ 40) : Tracks x r (some b)

section

variable {P : Precision}

theorem Tracks.isFinite {x : Flt P} {r : ℝ} {b : Option ErrBound} (h : Tracks x r b) (hb : b.isSome = true) :
    x.isFinite = true := by
  cases h with
  | unbounded => cases hb
  | within hfinite _ _ => exact hfinite

/-- A quotient rounded up covers its dividend. -/
theorem natCast_le_succ_div_mul (N k : Nat) : (N : ℝ) ≤ ((N / 2 ^ k + 1 : Nat) : ℝ) * 2 ^ k := by
  have h : N < (N / 2 ^ k + 1) * 2 ^ k := by
    rw [Nat.add_mul, one_mul]
    exact Nat.lt_div_mul_add (Nat.two_pow_pos k)
  exact_mod_cast h.le

/-- A rounded result tracks what the exact result does, with the error of the rounding. -/
theorem tracks_round {s : Bool} {n e : Nat} {r : ℝ} {mag err : Nat} (hr : |r| ≤ mag / 2 ^ 40)
    (hd : |((exactArg P s n e : ℚ) : ℝ) - r| ≤ err / 2 ^ 40) :
    Tracks (Flt.round P s n e) r (ErrBound.rounded mag err) := by
  unfold ErrBound.rounded
  split_ifs with hlim
  · set v : ℝ := ((exactArg P s n e : ℚ) : ℝ) with hv
    have hmag : |v| ≤ ((mag + err : Nat) : ℝ) / 2 ^ 40 := by
      calc |v| = |(v - r) + r| := by rw [sub_add_cancel]
        _ ≤ |v - r| + |r| := abs_add_le _ _
        _ ≤ ((mag + err : Nat) : ℝ) / 2 ^ 40 := by push_cast; linarith [add_div (mag : ℝ) err (2 ^ 40)]
    have hrange : |exactArg P s n e| < overflowBound P := by
      have hsum : ((mag + err : Nat) : ℝ) ≤ 2 ^ 160 := by exact_mod_cast hlim.le
      have hreal : |v| ≤ 2 ^ 127 := hmag.trans (by rw [div_le_iff₀ (by positivity)]; linarith)
      refine lt_of_le_of_lt ?_ (overflowBound_gt P)
      rw [← Rat.cast_le (K := ℝ), Rat.cast_abs]
      push_cast
      exact hreal
    obtain ⟨hfinite, herror⟩ := round_error hrange
    rw [← hv] at herror
    have hfloor := natCast_le_succ_div_mul (mag + err) 24
    have hshare : max (|v| / 2 ^ 24) (1 / 2 ^ 150) ≤ (((mag + err) / 2 ^ 24 + 1 : Nat) : ℝ) / 2 ^ 40 := by
      refine max_le ?_ ?_
      · rw [div_le_iff₀ (by positivity), div_mul_eq_mul_div]
        exact hmag.trans (div_le_div_of_nonneg_right hfloor (by positivity))
      · have hone : (1 : ℝ) ≤ (((mag + err) / 2 ^ 24 + 1 : Nat) : ℝ) := by exact_mod_cast Nat.le_add_left 1 _
        rw [div_le_div_iff₀ (by positivity) (by positivity)]
        nlinarith
    refine .within hfinite hr ?_
    calc |(((Flt.round P s n e).val : ℚ) : ℝ) - r| ≤ |(((Flt.round P s n e).val : ℚ) : ℝ) - v| + |v - r| :=
          abs_sub_le _ _ _
      _ ≤ (err + ((mag + err) / 2 ^ 24 + 1) : Nat) / 2 ^ 40 := by
          push_cast at hshare ⊢
          rw [add_div]
          linarith
  · exact .unbounded

theorem Tracks.add {x y : Flt P} {r t : ℝ} {a b : Option ErrBound} (hx : Tracks x r a) (hy : Tracks y t b) :
    Tracks (x.add y) (r + t) (ErrBound.sum a b) := by
  match a, b, hx, hy with
  | none, _, _, _ => exact .unbounded
  | some _, none, _, _ => exact .unbounded
  | some a, some b, .within hfx hr hdx, .within hfy ht hdy =>
    obtain ⟨s, n, e, hround, hval, -⟩ := add_eq_round hfx hfy
    rw [hround]
    refine tracks_round ?_ ?_
    · push_cast
      rw [add_div]
      exact (abs_add_le _ _).trans (add_le_add hr ht)
    · rw [← hval]
      push_cast
      rw [add_div, add_sub_add_comm]
      exact (abs_add_le _ _).trans (add_le_add hdx hdy)

theorem Tracks.negate {x : Flt P} {r : ℝ} {a : Option ErrBound} (hx : Tracks x r a) : Tracks x.negate (-r) a := by
  match a, hx with
  | none, _ => exact .unbounded
  | some a, .within hfx hr hdx =>
    refine .within (negate_isFinite.trans hfx) ((abs_neg r).le.trans hr) ?_
    rw [negate_val, Rat.cast_neg, ← abs_neg]
    ring_nf at hdx ⊢
    exact hdx

theorem Tracks.sub {x y : Flt P} {r t : ℝ} {a b : Option ErrBound} (hx : Tracks x r a) (hy : Tracks y t b) :
    Tracks (x.sub y) (r - t) (ErrBound.sum a b) := by
  rw [sub_eq_add_neg]
  exact hx.add hy.negate

theorem Tracks.mul {x y : Flt P} {r t : ℝ} {a b : Option ErrBound} (hx : Tracks x r a) (hy : Tracks y t b) :
    Tracks (x.mul y) (r * t) (ErrBound.prod a b) := by
  match a, b, hx, hy with
  | none, _, _, _ => exact .unbounded
  | some _, none, _, _ => exact .unbounded
  | some a, some b, .within hfx hr hdx, .within hfy ht hdy =>
    obtain ⟨s, n, e, hround, hval, -⟩ := mul_eq_round hfx hfy
    -- A product of bounds in units of 2^-40, cut to whole units.
    have hcut : ∀ N : Nat, (N : ℝ) / 2 ^ 40 / 2 ^ 40 ≤ ((N / 2 ^ 40 + 1 : Nat) : ℝ) / 2 ^ 40 := fun N => by
      refine div_le_div_of_nonneg_right ?_ (by positivity)
      exact (div_le_iff₀ (by positivity)).mpr (natCast_le_succ_div_mul N 40)
    rw [hround]
    refine tracks_round ?_ ?_
    · rw [abs_mul]
      calc |r| * |t| ≤ (a.mag / 2 ^ 40) * (b.mag / 2 ^ 40) :=
            mul_le_mul hr ht (abs_nonneg _) (by positivity)
        _ = ((a.mag * b.mag : Nat) : ℝ) / 2 ^ 40 / 2 ^ 40 := by push_cast; ring
        _ ≤ _ := hcut _
    · rw [← hval]
      push_cast
      generalize ((x.val : ℚ) : ℝ) = u at *
      generalize ((y.val : ℚ) : ℝ) = v at *
      calc |u * v - r * t| = |r * (v - t) + t * (u - r) + (u - r) * (v - t)| := by ring_nf
        _ ≤ |r| * |v - t| + |t| * |u - r| + |u - r| * |v - t| := by
            rw [← abs_mul, ← abs_mul, ← abs_mul]
            exact (abs_add_le _ _).trans (add_le_add_left (abs_add_le _ _) _)
        _ ≤ (a.mag / 2 ^ 40) * (b.err / 2 ^ 40) + (b.mag / 2 ^ 40) * (a.err / 2 ^ 40) +
            (a.err / 2 ^ 40) * (b.err / 2 ^ 40) := by gcongr
        _ = ((a.mag * b.err + b.mag * a.err + a.err * b.err : Nat) : ℝ) / 2 ^ 40 / 2 ^ 40 := by push_cast; ring
        _ ≤ _ := by exact_mod_cast hcut _

theorem tracks_zero : Tracks (Flt.zero P) 0 (some ⟨0, 0⟩) := by
  refine .within rfl (by simp) ?_
  rw [Flt.zero, val_fin]
  simp

/-- A converted integer tracks itself. -/
theorem tracks_ofInt (P : Precision) {z : Int} {M : Nat} (hz : |z| ≤ M) :
    Tracks (Flt.ofInt P z) z (ErrBound.rounded (M * 2 ^ 40) 0) := by
  refine tracks_round ?_ ?_
  · rw [show ((M * 2 ^ 40 : Nat) : ℝ) / 2 ^ 40 = M by push_cast; ring]
    exact_mod_cast hz
  · rw [exactArg_natAbs]
    simp

end

end Sys2Proof.Machine
end

section
/-! SUPPORT. The wiring of the evaluations is generic: a relation between three arithmetics that respects the operations
holds between the outputs of a network when it holds between its inputs and its constants. -/

namespace Sys2Proof.Machine

/-- A relation between the values of three arithmetics that every operation of a kernel respects. -/
structure RespectsOps {α β γ : Type} (R : α → β → γ → Prop) [Add α] [Sub α] [Mul α] [Neg α] [Zero α] [Add β] [Sub β]
    [Mul β] [Neg β] [Zero β] [Add γ] [Sub γ] [Mul γ] [Neg γ] [Zero γ] : Prop where
  add : ∀ {a b c a' b' c'}, R a b c → R a' b' c' → R (a + a') (b + b') (c + c')
  sub : ∀ {a b c a' b' c'}, R a b c → R a' b' c' → R (a - a') (b - b') (c - c')
  mul : ∀ {a b c a' b' c'}, R a b c → R a' b' c' → R (a * a') (b * b') (c * c')
  neg : ∀ {a b c}, R a b c → R (-a) (-b) (-c)
  zero : R 0 0 0

/-- Related element by element. -/
def RelVec {α β γ : Type} {n : Nat} (R : α → β → γ → Prop) (X : Vector α n) (Y : Vector β n) (Z : Vector γ n) : Prop :=
  ∀ i : Fin n, R X[i] Y[i] Z[i]

/-- Related position by position. -/
structure RelBlock {α β γ : Type} (R : α → β → γ → Prop) (X : Block α) (Y : Block β) (Z : Block γ) : Prop where
  rel : ∀ i j : Fin 8, R (X.at i j) (Y.at i j) (Z.at i j)

theorem relVec_ofFn {α β γ : Type} {n : Nat} {R : α → β → γ → Prop} {f : Fin n → α} {g : Fin n → β} {h : Fin n → γ}
    (H : ∀ i, R (f i) (g i) (h i)) : RelVec R (Vector.ofFn f) (Vector.ofFn g) (Vector.ofFn h) := by
  intro i
  simpa using H i

theorem relVec_eight {α β γ : Type} {R : α → β → γ → Prop} {a0 a1 a2 a3 a4 a5 a6 a7 : α} {b0 b1 b2 b3 b4 b5 b6 b7 : β}
    {c0 c1 c2 c3 c4 c5 c6 c7 : γ} (h0 : R a0 b0 c0) (h1 : R a1 b1 c1) (h2 : R a2 b2 c2) (h3 : R a3 b3 c3)
    (h4 : R a4 b4 c4) (h5 : R a5 b5 c5) (h6 : R a6 b6 c6) (h7 : R a7 b7 c7) :
    RelVec R #v[a0, a1, a2, a3, a4, a5, a6, a7] #v[b0, b1, b2, b3, b4, b5, b6, b7]
      #v[c0, c1, c2, c3, c4, c5, c6, c7] := by
  intro i
  fin_cases i <;> assumption

section

variable {α β γ : Type} {R : α → β → γ → Prop} {_ : Add α} {_ : Sub α} {_ : Mul α} {_ : Neg α} {_ : Zero α} {_ : Add β}
  {_ : Sub β} {_ : Mul β} {_ : Neg β} {_ : Zero β} {_ : Add γ} {_ : Sub γ} {_ : Mul γ} {_ : Neg γ} {_ : Zero γ}
  (h : RespectsOps R)
include h

/-! ## Sums -/

theorem RespectsOps.foldl {ι : Type} (ks : List ι) {t : ι → α} {t' : ι → β} {t'' : ι → γ}
    (ht : ∀ k, R (t k) (t' k) (t'' k)) {a : α} {b : β} {c : γ} (h0 : R a b c) :
    R (ks.foldl (fun acc k => acc + t k) a) (ks.foldl (fun acc k => acc + t' k) b)
      (ks.foldl (fun acc k => acc + t'' k) c) := by
  induction ks generalizing a b c with
  | nil => exact h0
  | cons k ks ih => exact ih (h.add h0 (ht k))

theorem RespectsOps.sumOver (ks : List (Fin 8)) {t : Fin 8 → α} {t' : Fin 8 → β} {t'' : Fin 8 → γ}
    (ht : ∀ k, R (t k) (t' k) (t'' k)) : R (sumOver ks t) (sumOver ks t') (sumOver ks t'') :=
  h.foldl ks ht h.zero

theorem RespectsOps.sum2 {t : Fin 8 → Fin 8 → α} {t' : Fin 8 → Fin 8 → β} {t'' : Fin 8 → Fin 8 → γ}
    (ht : ∀ u v, R (t u v) (t' u v) (t'' u v)) : R (sum2 t) (sum2 t') (sum2 t'') := by
  have houter : ∀ (us : List (Fin 8)) {a : α} {b : β} {c : γ}, R a b c →
      R (us.foldl (fun acc u => allIdx.foldl (fun acc v => acc + t u v) acc) a)
        (us.foldl (fun acc u => allIdx.foldl (fun acc v => acc + t' u v) acc) b)
        (us.foldl (fun acc u => allIdx.foldl (fun acc v => acc + t'' u v) acc) c) := fun us => by
    induction us with
    | nil => exact id
    | cons u us ih => exact fun h0 => ih (h.foldl allIdx (ht u) h0)
  exact houter allIdx h.zero

/-! ## The direct transforms -/

section

variable {C : Vec8 α} {C' : Vec8 β} {C'' : Vec8 γ} (hC : RelVec R C C' C'') {B : Vec8 (Vec8 α)} {B' : Vec8 (Vec8 β)}
  {B'' : Vec8 (Vec8 γ)} (hB : RelVec (RelVec R) B B' B'')
include hC hB

section

variable {q : α} {q' : β} {q'' : γ} (hq : R q q' q'') {F : Block α} {F' : Block β} {F'' : Block γ}
  (hF : RelBlock R F F' F'')
include hq hF

theorem RespectsOps.refIdct : RelBlock R (refIdct C B q F) (refIdct C' B' q' F') (refIdct C'' B'' q'' F'') := by
  refine ⟨fun x y => ?_⟩
  simp only [Machine.refIdct, Block.at_build]
  exact h.mul (h.sum2 fun u v => h.mul (h.mul (h.mul (h.mul (hC u) (hC v)) (hF.rel u v)) (hB u x)) (hB v y)) hq

theorem RespectsOps.refFdct : RelBlock R (refFdct C B q F) (refFdct C' B' q' F') (refFdct C'' B'' q'' F'') := by
  refine ⟨fun u v => ?_⟩
  simp only [Machine.refFdct, Block.at_build]
  exact h.mul (h.sum2 fun x y => h.mul (h.mul (hF.rel x y) (hB u x)) (hB v y)) (h.mul (h.mul (hC u) (hC v)) hq)

end

/-! ## The separable kernels -/

variable {X : Vec8 α} {X' : Vec8 β} {X'' : Vec8 γ} (hX : RelVec R X X' X'')
include hX

/-- One product of a separable kernel. -/
theorem RespectsOps.scaled_mul (k n : Fin 8) :
    R ((scaled C X)[k] * B[k][n]) ((scaled C' X')[k] * B'[k][n]) ((scaled C'' X'')[k] * B''[k][n]) :=
  h.mul (relVec_ofFn (fun k => h.mul (hC k) (hX k)) k) (hB k n)

theorem RespectsOps.plain : RelVec R (plain C B X) (plain C' B' X') (plain C'' B'' X'') :=
  relVec_ofFn fun n => h.sumOver allIdx fun k => h.scaled_mul hC hB hX k n

theorem RespectsOps.sym2 : RelVec R (sym2 C B X) (sym2 C' B' X') (sym2 C'' B'' X'') := by
  have sums := fun (ks : List (Fin 8)) (n : Fin 8) => h.sumOver ks fun k => h.scaled_mul hC hB hX k n
  have plus := fun n => h.add (sums evenIdx n) (sums oddIdx n)
  have minus := fun n => h.sub (sums evenIdx n) (sums oddIdx n)
  exact relVec_eight (plus 0) (plus 1) (plus 2) (plus 3) (minus 3) (minus 2) (minus 1) (minus 0)

theorem RespectsOps.sym4 : RelVec R (sym4 C B X) (sym4 C' B' X') (sym4 C'' B'' X'') := by
  have sums := fun (ks : List (Fin 8)) (n : Fin 8) => h.sumOver ks fun k => h.scaled_mul hC hB hX k n
  have near := fun n => h.add (sums [0, 4] n) (sums [2, 6] n)
  have mirrored := fun n => h.sub (sums [0, 4] n) (sums [2, 6] n)
  have odd := sums oddIdx
  exact relVec_eight (h.add (near 0) (odd 0)) (h.add (near 1) (odd 1)) (h.add (mirrored 1) (odd 2))
    (h.add (mirrored 0) (odd 3)) (h.sub (mirrored 0) (odd 3)) (h.sub (mirrored 1) (odd 2)) (h.sub (near 1) (odd 1))
    (h.sub (near 0) (odd 0))

theorem RespectsOps.sym8 : RelVec R (sym8 C B X) (sym8 C' B' X') (sym8 C'' B'' X'') := by
  have products := h.scaled_mul hC hB hX
  have near := fun n => h.sumOver allIdx fun k => products k n
  have far : ∀ n : Fin 8, _ := fun n => h.sumOver allIdx
    (t := fun k => if k.val % 2 = 0 then (scaled C X)[k] * B[k][n] else -((scaled C X)[k] * B[k][n]))
    (t' := fun k => if k.val % 2 = 0 then (scaled C' X')[k] * B'[k][n] else -((scaled C' X')[k] * B'[k][n]))
    (t'' := fun k => if k.val % 2 = 0 then (scaled C'' X'')[k] * B''[k][n] else -((scaled C'' X'')[k] * B''[k][n]))
    fun k => by
      split_ifs
      · exact products k n
      · exact h.neg (products k n)
  exact relVec_eight (near 0) (near 1) (near 2) (near 3) (far 3) (far 2) (far 1) (far 0)

end

/-! ## The networks -/

section

variable {k : LlmConsts α} {k' : LlmConsts β} {k'' : LlmConsts γ} (hr2 : R k.r2 k'.r2 k''.r2)
  (hr2c2 : R k.r2c2 k'.r2c2 k''.r2c2) (hr2c6 : R k.r2c6 k'.r2c6 k''.r2c6) (hc1 : R k.c1 k'.c1 k''.c1)
  (hs1 : R k.s1 k'.s1 k''.s1) (hc3 : R k.c3 k'.c3 k''.c3) (hs3 : R k.s3 k'.s3 k''.s3) {X : Vec8 α} {X' : Vec8 β}
  {X'' : Vec8 γ} (hX : RelVec R X X' X'')
include hr2 hr2c2 hr2c6 hc1 hs1 hc3 hs3 hX

theorem RespectsOps.llm1d : RelVec R (llm1d k X) (llm1d k' X') (llm1d k'' X'') := by
  -- even part
  have b0 := h.add (hX 0) (hX 4)
  have b1 := h.sub (hX 0) (hX 4)
  have b3 := h.add (h.mul hr2c2 (hX 2)) (h.mul hr2c6 (hX 6))
  have b2 := h.sub (h.mul hr2c6 (hX 2)) (h.mul hr2c2 (hX 6))
  -- odd part
  have c7 := h.add (hX 1) (hX 7)
  have c4 := h.sub (hX 1) (hX 7)
  have t5 := h.mul hr2 (hX 3)
  have t6 := h.mul hr2 (hX 5)
  have b7 := h.add c7 t5
  have b5 := h.sub c7 t5
  have b4 := h.add c4 t6
  have b6 := h.sub c4 t6
  have a4 := h.sub (h.mul hc3 b4) (h.mul hs3 b7)
  have a7 := h.add (h.mul hs3 b4) (h.mul hc3 b7)
  have a5 := h.sub (h.mul hc1 b5) (h.mul hs1 b6)
  have a6 := h.add (h.mul hs1 b5) (h.mul hc1 b6)
  exact relVec_eight (h.add (h.add b0 b3) a7) (h.add (h.add b1 b2) a6) (h.add (h.sub b1 b2) a5)
    (h.add (h.sub b0 b3) a4) (h.sub (h.sub b0 b3) a4) (h.sub (h.sub b1 b2) a5) (h.sub (h.add b1 b2) a6)
    (h.sub (h.add b0 b3) a7)

theorem RespectsOps.llmF1d : RelVec R (llmF1d k X) (llmF1d k' X') (llmF1d k'' X'') := by
  -- input butterfly
  have a0 := h.add (hX 0) (hX 7)
  have a7 := h.sub (hX 0) (hX 7)
  have a1 := h.add (hX 1) (hX 6)
  have a6 := h.sub (hX 1) (hX 6)
  have a2 := h.add (hX 2) (hX 5)
  have a5 := h.sub (hX 2) (hX 5)
  have a3 := h.add (hX 3) (hX 4)
  have a4 := h.sub (hX 3) (hX 4)
  -- even part
  have b0 := h.add a0 a3
  have b3 := h.sub a0 a3
  have b1 := h.add a1 a2
  have b2 := h.sub a1 a2
  -- odd part
  have b4 := h.add (h.mul hc3 a4) (h.mul hs3 a7)
  have b7 := h.sub (h.mul hc3 a7) (h.mul hs3 a4)
  have b5 := h.add (h.mul hc1 a5) (h.mul hs1 a6)
  have b6 := h.sub (h.mul hc1 a6) (h.mul hs1 a5)
  have c7 := h.add b7 b5
  have c4 := h.add b4 b6
  exact relVec_eight (h.add b0 b1) (h.add c7 c4) (h.add (h.mul hr2c2 b3) (h.mul hr2c6 b2)) (h.mul hr2 (h.sub b7 b5))
    (h.sub b0 b1) (h.mul hr2 (h.sub b4 b6)) (h.sub (h.mul hr2c6 b3) (h.mul hr2c2 b2)) (h.sub c7 c4)

end

section

variable {k : AanConsts α} {k' : AanConsts β} {k'' : AanConsts γ} (hr2 : R k.r2 k'.r2 k''.r2) (ha : R k.a k'.a k''.a)
  (hminus : R k.aMinusB k'.aMinusB k''.aMinusB) (hplus : R k.aPlusB k'.aPlusB k''.aPlusB) {X : Vec8 α} {X' : Vec8 β}
  {X'' : Vec8 γ} (hX : RelVec R X X' X'')
include hr2 ha hminus hplus hX

theorem RespectsOps.aan1d : RelVec R (aan1d k X) (aan1d k' X') (aan1d k'' X'') := by
  -- even part
  have t10 := h.add (hX 0) (hX 4)
  have t11 := h.sub (hX 0) (hX 4)
  have t13 := h.add (hX 2) (hX 6)
  have t12 := h.sub (h.mul (h.sub (hX 2) (hX 6)) hr2) t13
  -- odd part
  have z13 := h.add (hX 5) (hX 3)
  have z10 := h.sub (hX 5) (hX 3)
  have z11 := h.add (hX 1) (hX 7)
  have z12 := h.sub (hX 1) (hX 7)
  have o7 := h.add z11 z13
  have u11 := h.mul (h.sub z11 z13) hr2
  have z5 := h.mul (h.add z10 z12) ha
  have u10 := h.sub z5 (h.mul z12 hminus)
  have u12 := h.sub z5 (h.mul z10 hplus)
  have o6 := h.sub u12 o7
  have o5 := h.sub u11 o6
  have o4 := h.sub u10 o5
  exact relVec_eight (h.add (h.add t10 t13) o7) (h.add (h.add t11 t12) o6) (h.add (h.sub t11 t12) o5)
    (h.add (h.sub t10 t13) o4) (h.sub (h.sub t10 t13) o4) (h.sub (h.sub t11 t12) o5) (h.sub (h.add t11 t12) o6)
    (h.sub (h.add t10 t13) o7)

end

theorem RespectsOps.ap922Row {W : Vector (Vec8 α) 4} {W' : Vector (Vec8 β) 4} {W'' : Vector (Vec8 γ) 4}
    (hW : RelVec (RelVec R) W W' W'') {X : Vec8 α} {X' : Vec8 β} {X'' : Vec8 γ} (hX : RelVec R X X' X'') :
    RelVec R (ap922Row W X) (ap922Row W' X') (ap922Row W'' X'') := by
  have sums := fun (ks : List (Fin 8)) (n : Fin 4) => h.sumOver ks fun k => h.mul (hW n k) (hX k)
  have plus := fun n => h.add (sums evenIdx n) (sums oddIdx n)
  have minus := fun n => h.sub (sums evenIdx n) (sums oddIdx n)
  exact relVec_eight (plus 0) (plus 1) (plus 2) (plus 3) (minus 3) (minus 2) (minus 1) (minus 0)

section

variable {k : Ap922Consts α} {k' : Ap922Consts β} {k'' : Ap922Consts γ} (ht1 : R k.t1 k'.t1 k''.t1)
  (ht2 : R k.t2 k'.t2 k''.t2) (ht3 : R k.t3 k'.t3 k''.t3) (hg4 : R k.g4 k'.g4 k''.g4) {X : Vec8 α} {X' : Vec8 β}
  {X'' : Vec8 γ} (hX : RelVec R X X' X'')
include ht1 ht2 ht3 hg4 hX

theorem RespectsOps.ap922Col : RelVec R (ap922Col k X) (ap922Col k' X') (ap922Col k'' X'') := by
  -- even part
  have u04 := h.add (hX 0) (hX 4)
  have v04 := h.sub (hX 0) (hX 4)
  have u26 := h.add (hX 2) (h.mul ht2 (hX 6))
  have v26 := h.sub (h.mul ht2 (hX 2)) (hX 6)
  -- odd part
  have u17 := h.add (hX 1) (h.mul ht1 (hX 7))
  have v17 := h.sub (h.mul ht1 (hX 1)) (hX 7)
  have u35 := h.add (hX 3) (h.mul ht3 (hX 5))
  have v35 := h.sub (h.mul ht3 (hX 3)) (hX 5)
  have b0 := h.add u17 u35
  have b3 := h.sub v17 v35
  have u12 := h.mul hg4 (h.sub u17 u35)
  have v12 := h.mul hg4 (h.add v17 v35)
  have b1 := h.add u12 v12
  have b2 := h.sub u12 v12
  exact relVec_eight (h.add (h.add u04 u26) b0) (h.add (h.add v04 v26) b1) (h.add (h.sub v04 v26) b2)
    (h.add (h.sub u04 u26) b3) (h.sub (h.sub u04 u26) b3) (h.sub (h.sub v04 v26) b2) (h.sub (h.add v04 v26) b1)
    (h.sub (h.add u04 u26) b0)

end

end

/-! ## Two passes -/

section

variable {α β γ : Type} {R : α → β → γ → Prop} {F : Block α} {F' : Block β} {F'' : Block γ} (hF : RelBlock R F F' F'')
include hF

theorem RelBlock.rows_cols {row : Fin 8 → Vec8 α → Vec8 α} {row' : Fin 8 → Vec8 β → Vec8 β}
    {row'' : Fin 8 → Vec8 γ → Vec8 γ}
    (hrow : ∀ u {X X' X''}, RelVec R X X' X'' → RelVec R (row u X) (row' u X') (row'' u X''))
    {col : Vec8 α → Vec8 α} {col' : Vec8 β → Vec8 β} {col'' : Vec8 γ → Vec8 γ}
    (hcol : ∀ {X X' X''}, RelVec R X X' X'' → RelVec R (col X) (col' X') (col'' X'')) :
    RelBlock R (ofCols (crossPass col (rowPass row F))) (ofCols (crossPass col' (rowPass row' F')))
      (ofCols (crossPass col'' (rowPass row'' F''))) := by
  refine ⟨fun i j => ?_⟩
  rw [at_ofCols_rows, at_ofCols_rows, at_ofCols_rows]
  exact hcol (relVec_ofFn fun u => hrow u (relVec_ofFn fun v => hF.rel u v) j) i

theorem RelBlock.cols_rows {col : Vec8 α → Vec8 α} {col' : Vec8 β → Vec8 β} {col'' : Vec8 γ → Vec8 γ}
    (hcol : ∀ {X X' X''}, RelVec R X X' X'' → RelVec R (col X) (col' X') (col'' X'')) :
    RelBlock R (ofRows (crossPass col (colPass col F))) (ofRows (crossPass col' (colPass col' F')))
      (ofRows (crossPass col'' (colPass col'' F''))) := by
  refine ⟨fun i j => ?_⟩
  rw [at_ofRows_cols, at_ofRows_cols, at_ofRows_cols]
  exact hcol (relVec_ofFn fun y => hcol (relVec_ofFn fun x => hF.rel x y) i) j

theorem RelBlock.map {f : α → α} {f' : β → β} {f'' : γ → γ} (hf : ∀ {a b c}, R a b c → R (f a) (f' b) (f'' c)) :
    RelBlock R (F.map f) (F'.map f') (F''.map f'') := by
  refine ⟨fun i j => ?_⟩
  rw [at_map, at_map, at_map]
  exact hf (hF.rel i j)

end

end Sys2Proof.Machine
end

section
/-! SUPPORT. The constants of every unit track their closed forms: each closed form is a polynomial or a quotient of the
c_m, so it has a rational approximation, and the stored bits are compared with that (40_numeric_common.md R133). -/

namespace Sys2Proof.Machine

open Real

/-! ## Rational approximations of closed forms -/

/-- The real `r` is within `ε` of the rational `a`. -/
def Approx (r : ℝ) (a ε : ℚ) : Prop := |r - a| ≤ (ε : ℝ)

theorem approx_self (a : ℚ) : Approx a a 0 := by simp [Approx]

theorem Approx.neg {r : ℝ} {a ε : ℚ} (h : Approx r a ε) : Approx (-r) (-a) ε := abs_neg_sub_neg h

theorem Approx.add {r t : ℝ} {a b ε δ : ℚ} (hr : Approx r a ε) (ht : Approx t b δ) :
    Approx (r + t) (a + b) (ε + δ) := by
  unfold Approx at *
  push_cast
  rw [add_sub_add_comm]
  exact (abs_add_le _ _).trans (add_le_add hr ht)

theorem Approx.mul {r t : ℝ} {a b ε δ : ℚ} (hr : Approx r a ε) (ht : Approx t b δ) :
    Approx (r * t) (a * b) (|a| * δ + |b| * ε + ε * δ) := by
  unfold Approx at *
  push_cast
  have hε : (0 : ℝ) ≤ (ε : ℝ) := (abs_nonneg _).trans hr
  calc |r * t - a * b| = |(a : ℝ) * (t - b) + b * (r - a) + (r - a) * (t - b)| := by ring_nf
    _ ≤ |(a : ℝ)| * |t - b| + |(b : ℝ)| * |r - a| + |r - a| * |t - b| := by
      rw [← abs_mul, ← abs_mul, ← abs_mul]
      exact (abs_add_le _ _).trans (add_le_add_left (abs_add_le _ _) _)
    _ ≤ |(a : ℝ)| * δ + |(b : ℝ)| * ε + ε * δ := by gcongr

theorem Approx.two_mul {r : ℝ} {a ε : ℚ} (h : Approx r a ε) : Approx (2 * r) (2 * a) (2 * ε) := by
  have hsum := h.add h
  rwa [← mul_two, ← mul_two, ← mul_two, mul_comm r, mul_comm a, mul_comm ε] at hsum

theorem Approx.mono {r : ℝ} {a ε δ : ℚ} (h : Approx r a ε) (hle : ε ≤ δ) : Approx r a δ :=
  h.trans (by exact_mod_cast hle)

theorem Approx.div {r t : ℝ} {a b ε δ : ℚ} (hr : Approx r a ε) (ht : Approx t b δ) (hb : 0 < b - δ) :
    Approx (r / t) (a / b) ((ε + |a / b| * δ) / (b - δ)) := by
  unfold Approx at *
  have hδ : (0 : ℝ) ≤ (δ : ℝ) := (abs_nonneg _).trans ht
  have hbR : (0 : ℝ) < b - δ := by exact_mod_cast hb
  have hb0 : (0 : ℝ) < b := by linarith
  have hlow : (b : ℝ) - δ ≤ t := by linarith [(abs_le.mp ht).1]
  have ht0 : 0 < t := by linarith
  push_cast
  calc |r / t - a / b| = |(r - a) - (a / b : ℝ) * (t - b)| / t := by
        rw [← abs_of_pos ht0, ← abs_div, abs_of_pos ht0]
        congr 1
        field_simp
        ring
    _ ≤ (ε + |(a : ℝ) / b| * δ) / t := by
        refine div_le_div_of_nonneg_right ((abs_sub _ _).trans (add_le_add hr ?_)) ht0.le
        rw [abs_mul]
        exact mul_le_mul_of_nonneg_left ht (abs_nonneg _)
    _ ≤ (ε + |(a : ℝ) / b| * δ) / (b - δ) := by
        refine div_le_div_of_nonneg_left ?_ hbR hlow
        have hε : (0 : ℝ) ≤ (ε : ℝ) := (abs_nonneg _).trans hr
        positivity

theorem approx_cosReal (m : Fin 8) : Approx (cosReal m) cosApprox[m] (cosTol m) := abs_cosReal_sub_cosApprox_le m

/-- A datum tracks a real when it is close to the real's approximation. -/
abbrev ConstCheck {P : Precision} (x : Flt P) (a ε : ℚ) (b : ErrBound) : Prop :=
  x.isFinite = true ∧ (|a| + ε) * 2 ^ 40 ≤ b.mag ∧ (|x.val - a| + ε) * 2 ^ 40 ≤ b.err

theorem ConstCheck.tracks {P : Precision} {x : Flt P} {r : ℝ} {a ε : ℚ} {b : ErrBound} (h : ConstCheck x a ε b)
    (hr : Approx r a ε) : Tracks x r (some b) := by
  obtain ⟨hfinite, hmag, herr⟩ := h
  have hmagR : (|(a : ℝ)| + ε) * 2 ^ 40 ≤ b.mag := by simpa using (Rat.cast_le (K := ℝ)).mpr hmag
  have herrR : (|((x.val : ℚ) : ℝ) - a| + ε) * 2 ^ 40 ≤ b.err := by simpa using (Rat.cast_le (K := ℝ)).mpr herr
  unfold Approx at hr
  refine .within hfinite ?_ ?_
  · rw [le_div_iff₀ (by positivity)]
    refine le_trans (mul_le_mul_of_nonneg_right ?_ (by positivity)) hmagR
    calc |r| = |(a : ℝ) + (r - a)| := by ring_nf
      _ ≤ |(a : ℝ)| + ε := (abs_add_le _ _).trans (add_le_add_right hr _)
  · rw [le_div_iff₀ (by positivity)]
    refine le_trans (mul_le_mul_of_nonneg_right ?_ (by positivity)) herrR
    calc |((x.val : ℚ) : ℝ) - r| ≤ |((x.val : ℚ) : ℝ) - a| + |(a : ℝ) - r| := abs_sub_le _ _ _
      _ ≤ |((x.val : ℚ) : ℝ) - a| + ε := by
        rw [abs_sub_comm (a : ℝ)]
        exact add_le_add_right hr _

/-! ## The constants -/

/-- The bounds of a constant of magnitude at most 1. -/
def unitBound : Option ErrBound := some ⟨2 ^ 40 + 1, 2 ^ 16⟩

theorem tracks_cosFlt (P : Precision) (m : Fin 8) : Tracks (cosFlt P m) (cosReal m) unitBound := by
  have hcheck : ∀ m : Fin 8, ConstCheck (cosFlt P m) cosApprox[m] (cosTol m) ⟨2 ^ 40 + 1, 2 ^ 16⟩ := by
    cases P <;> decide +kernel
  exact (hcheck m).tracks (approx_cosReal m)

theorem tracks_basis (P : Precision) (k n : Fin 8) : Tracks (Machine.basis P)[k][n] (basisReal k n) unitBound := by
  rw [basisReal_eq, basisOf_getElem, cosVec_getElem, basis_getElem]
  split_ifs
  · exact (tracks_cosFlt P _).negate
  · exact tracks_cosFlt P _

theorem tracks_norm (P : Precision) (k : Fin 8) : Tracks (Machine.norm P)[k] (normReal k) unitBound := by
  rw [normReal_eq, norm_getElem]
  split_ifs
  · exact tracks_cosFlt P 4
  · exact tracks_cosFlt P 0

/-- The bounds of 0.25. -/
def quarterBound : Option ErrBound := some ⟨2 ^ 38, 0⟩

/-- The bounds of 0.125. -/
def eighthBound : Option ErrBound := some ⟨2 ^ 37, 0⟩

theorem tracks_quarter (P : Precision) : Tracks (quarter P) (1 / 4) quarterBound := by
  have hcheck : ConstCheck (quarter P) (1 / 4) 0 ⟨2 ^ 38, 0⟩ := by cases P <;> decide +kernel
  exact hcheck.tracks (by simpa using approx_self (1 / 4))

theorem tracks_eighth : Tracks eighth (1 / 8) eighthBound := by
  have hcheck : ConstCheck eighth (1 / 8) 0 ⟨2 ^ 37, 0⟩ := by decide +kernel
  exact hcheck.tracks (by simpa using approx_self (1 / 8))

/-- The bounds of the LLM constants. -/
def llmBounds : LlmConsts (Option ErrBound) where
  r2 := some ⟨3 * 2 ^ 39, 2 ^ 17⟩
  r2c2 := some ⟨3 * 2 ^ 39, 2 ^ 17⟩
  r2c6 := unitBound
  c1 := unitBound
  s1 := unitBound
  c3 := unitBound
  s3 := unitBound

theorem tracks_llm_r2 : Tracks llmConsts.r2 llmReal.r2 llmBounds.r2 := by
  rw [llmReal_eq]
  exact ConstCheck.tracks (by decide +kernel) (approx_cosReal 4).two_mul

theorem tracks_llm_r2c2 : Tracks llmConsts.r2c2 llmReal.r2c2 llmBounds.r2c2 := by
  rw [llmReal_eq]
  exact ConstCheck.tracks (by decide +kernel) ((approx_cosReal 6).add (approx_cosReal 2))

theorem tracks_llm_r2c6 : Tracks llmConsts.r2c6 llmReal.r2c6 llmBounds.r2c6 := by
  rw [llmReal_eq]
  exact ConstCheck.tracks (by decide +kernel) ((approx_cosReal 6).neg.add (approx_cosReal 2))

theorem tracks_llm_c1 : Tracks llmConsts.c1 llmReal.c1 llmBounds.c1 := by
  rw [llmReal_eq]
  exact tracks_cosFlt .binary32 1

theorem tracks_llm_s1 : Tracks llmConsts.s1 llmReal.s1 llmBounds.s1 := by
  rw [llmReal_eq]
  exact tracks_cosFlt .binary32 7

theorem tracks_llm_c3 : Tracks llmConsts.c3 llmReal.c3 llmBounds.c3 := by
  rw [llmReal_eq]
  exact tracks_cosFlt .binary32 3

theorem tracks_llm_s3 : Tracks llmConsts.s3 llmReal.s3 llmBounds.s3 := by
  rw [llmReal_eq]
  exact tracks_cosFlt .binary32 5

/-- The bounds of the AAN constants; B multiplies nothing and has none. -/
def aanBounds : AanConsts (Option ErrBound) where
  r2 := some ⟨3 * 2 ^ 39, 2 ^ 17⟩
  a := some ⟨2 ^ 41, 2 ^ 17⟩
  b := none
  aMinusB := some ⟨5 * 2 ^ 38, 2 ^ 17⟩
  aPlusB := some ⟨11 * 2 ^ 38, 2 ^ 18⟩

theorem tracks_aan_r2 (P : Precision) : Tracks (aanConsts P).r2 aanReal.r2 aanBounds.r2 := by
  rw [aanReal_eq]
  exact ConstCheck.tracks (by cases P <;> decide +kernel) (approx_cosReal 4).two_mul

theorem tracks_aan_a (P : Precision) : Tracks (aanConsts P).a aanReal.a aanBounds.a := by
  rw [aanReal_eq]
  exact ConstCheck.tracks (by cases P <;> decide +kernel) (approx_cosReal 2).two_mul

theorem tracks_aan_aMinusB (P : Precision) : Tracks (aanConsts P).aMinusB aanReal.aMinusB aanBounds.aMinusB := by
  rw [aanReal_eq]
  have happrox := (approx_cosReal 2).two_mul.add (approx_cosReal 6).two_mul.neg
  rw [← sub_eq_add_neg, ← mul_sub] at happrox
  exact ConstCheck.tracks (by cases P <;> decide +kernel) happrox

theorem tracks_aan_aPlusB (P : Precision) : Tracks (aanConsts P).aPlusB aanReal.aPlusB aanBounds.aPlusB := by
  rw [aanReal_eq]
  have happrox := (approx_cosReal 2).two_mul.add (approx_cosReal 6).two_mul
  rw [← mul_add] at happrox
  exact ConstCheck.tracks (by cases P <;> decide +kernel) happrox

/-- The approximation of aan[k]. -/
def aanApprox (k : Fin 8) : ℚ := if k = 0 then 1 else 2 * cosApprox[4] * cosApprox[k]

theorem approx_aanScale (k : Fin 8) : Approx (aanScale k) (aanApprox k) (1 / 2 ^ 90) := by
  rw [aanScale_eq, aanApprox]
  split_ifs
  · simpa using (approx_self 1).mono (by decide +kernel : (0 : ℚ) ≤ 1 / 2 ^ 90)
  · have htol : ∀ k : Fin 8, |2 * cosApprox[4]| * cosTol k + |cosApprox[k]| * (2 * cosTol 4) + 2 * cosTol 4 * cosTol k ≤
        1 / 2 ^ 90 := by decide +kernel
    exact ((approx_cosReal 4).two_mul.mul (approx_cosReal k)).mono (htol k)

/-- aan[k] in units of 2^-20, rounded up. -/
def aanMag : Vec8 Nat := #v[1048576, 1454418, 1370032, 1232996, 1048578, 823862, 567487, 289303]

/-- The bounds of the pre-scale table. -/
def prescaleBounds : Vec8 (Vec8 (Option ErrBound)) :=
  Vector.ofFn fun u => Vector.ofFn fun v => some ⟨aanMag[u] * aanMag[v] / 8 + 1, 2 ^ 14⟩

theorem tracks_prescale (P : Precision) (u v : Fin 8) :
    Tracks (prescale P)[u][v] (prescaleReal u v) prescaleBounds[u][v] := by
  have happrox := ((approx_aanScale u).mul (approx_aanScale v)).mul (approx_self (1 / 8))
  have hreal : aanScale u * aanScale v * ((1 / 8 : ℚ) : ℝ) = prescaleReal u v := by
    rw [prescaleReal]
    push_cast
    ring
  rw [hreal] at happrox
  have hcheck : ∀ u v : Fin 8, ConstCheck (prescale P)[u][v] (aanApprox u * aanApprox v * (1 / 8))
      (|aanApprox u * aanApprox v| * 0 +
          |1 / 8| * (|aanApprox u| * (1 / 2 ^ 90) + |aanApprox v| * (1 / 2 ^ 90) + 1 / 2 ^ 90 * (1 / 2 ^ 90)) +
        (|aanApprox u| * (1 / 2 ^ 90) + |aanApprox v| * (1 / 2 ^ 90) + 1 / 2 ^ 90 * (1 / 2 ^ 90)) * 0)
      ⟨aanMag[u] * aanMag[v] / 8 + 1, 2 ^ 14⟩ := by
    cases P <;> decide +kernel
  simpa [prescaleBounds] using (hcheck u v).tracks happrox

/-- The bounds of the AP-922 column constants. -/
def ap922Bounds : Ap922Consts (Option ErrBound) where
  t1 := unitBound
  t2 := unitBound
  t3 := unitBound
  g4 := unitBound

theorem tracks_ap922_t1 : Tracks ap922Consts.t1 ap922Real.t1 ap922Bounds.t1 := by
  rw [ap922Real_eq]
  exact ConstCheck.tracks (by decide +kernel) ((approx_cosReal 7).div (approx_cosReal 1) (by decide +kernel))

theorem tracks_ap922_t2 : Tracks ap922Consts.t2 ap922Real.t2 ap922Bounds.t2 := by
  rw [ap922Real_eq]
  exact ConstCheck.tracks (by decide +kernel) ((approx_cosReal 6).div (approx_cosReal 2) (by decide +kernel))

theorem tracks_ap922_t3 : Tracks ap922Consts.t3 ap922Real.t3 ap922Bounds.t3 := by
  rw [ap922Real_eq]
  exact ConstCheck.tracks (by decide +kernel) ((approx_cosReal 5).div (approx_cosReal 3) (by decide +kernel))

theorem tracks_ap922_g4 : Tracks ap922Consts.g4 ap922Real.g4 ap922Bounds.g4 := by
  rw [ap922Real_eq]
  exact tracks_cosFlt .binary32 4

theorem cosTol_le (m : Fin 8) : cosTol m ≤ 1 / 2 ^ 100 := by
  revert m
  decide +kernel

/-- The approximation of the normalised basis C(k)·B[k][n]. -/
def normBasisApprox (k n : Fin 8) : ℚ := if k = 0 then cosApprox[4] else (basisOf cosApprox)[k][n]

theorem approx_normBasis (k n : Fin 8) :
    Approx (normReal k * (basisOf cosVec)[k][n]) (normBasisApprox k n) (1 / 2 ^ 100) := by
  rw [normReal_eq, normBasisApprox]
  split_ifs with hk
  · have hone : (basisOf cosVec)[k][n] = 1 := by
      rw [← basisReal_eq, hk]
      simp [basisReal]
    rw [hone, mul_one]
    exact (approx_cosReal 4).mono (cosTol_le 4)
  · rw [cosReal_zero, one_mul, basisOf_getElem, basisOf_getElem, cosVec_getElem]
    split_ifs
    · exact ((approx_cosReal _).mono (cosTol_le _)).neg
    · exact (approx_cosReal _).mono (cosTol_le _)

/-- The c_m that scales table idx, as an index of the approximations. -/
def rowScaleIdx : Vector (Fin 8) 4 := #v[4, 1, 2, 3]

theorem approx_rowScale (idx : Fin 4) : Approx (rowScale idx) cosApprox[rowScaleIdx[idx]] (1 / 2 ^ 100) := by
  have hidx : rowScale idx = cosReal rowScaleIdx[idx].val := by
    rw [rowScale]
    congr 1
    revert idx
    decide
  rw [hidx]
  exact (approx_cosReal _).mono (cosTol_le _)

theorem tracks_wTables (idx n : Fin 4) (k : Fin 8) : Tracks wTables[idx][n][k] wRealVec[idx][n][k] unitBound := by
  have hreal : wRealVec[idx][n][k] = wReal idx n k := by simp [wRealVec]
  have hcheck : ∀ (idx n : Fin 4) (k : Fin 8), ConstCheck wTables[idx][n][k]
      (cosApprox[rowScaleIdx[idx]] * normBasisApprox k (n.castLE (by decide)))
      (|cosApprox[rowScaleIdx[idx]]| * (1 / 2 ^ 100) + |normBasisApprox k (n.castLE (by decide))| * (1 / 2 ^ 100) +
        1 / 2 ^ 100 * (1 / 2 ^ 100)) ⟨2 ^ 40 + 1, 2 ^ 16⟩ := by
    decide +kernel
  rw [hreal, wReal_eq]
  exact (hcheck idx n k).tracks ((approx_rowScale idx).mul (approx_normBasis k _))

end Sys2Proof.Machine
end

section
/-! SUPPORT. Every evaluation tracks its exact counterpart, with the bounds that its own wiring computes
(40_numeric_common.md R145, R148). -/

namespace Sys2Proof.Machine

/-- Tracking is respected by the operations of all three arithmetics. -/
theorem tracks_respectsOps (P : Precision) :
    @RespectsOps (Flt P) ℝ (Option ErrBound) Tracks (Flt.addOp P) (Flt.subOp P) (Flt.mulOp P) (Flt.negOp P)
      (Flt.zeroOp P) _ _ _ _ _ ErrBound.addOp ErrBound.subOp ErrBound.mulOp ErrBound.negOp ErrBound.zeroOp :=
  @RespectsOps.mk _ _ _ _ (Flt.addOp P) (Flt.subOp P) (Flt.mulOp P) (Flt.negOp P) (Flt.zeroOp P) _ _ _ _ _
    ErrBound.addOp ErrBound.subOp ErrBound.mulOp ErrBound.negOp ErrBound.zeroOp
    Tracks.add Tracks.sub Tracks.mul Tracks.negate tracks_zero

/-- The exact block of integers. -/
def realBlock (F : Block Int) : Block ℝ := F.map Int.cast

/-- Every entry has magnitude at most `M`. -/
def EntriesWithin (M : Nat) (F : Block Int) : Prop := ∀ k : Fin 64, |F[k]| ≤ M

/-- The bounds of converted integers of magnitude at most `M`. -/
def inputBounds (M : Nat) : Block (Option ErrBound) := Block.build fun _ _ => ErrBound.rounded (M * 2 ^ 40) 0

theorem tracks_cvtBlock (P : Precision) {F : Block Int} {M : Nat} (hF : EntriesWithin M F) :
    RelBlock Tracks (cvtBlock P F) (realBlock F) (inputBounds M) := by
  refine ⟨fun i j => ?_⟩
  rw [cvtBlock, realBlock, at_map, at_map, inputBounds, Block.at_build]
  exact tracks_ofInt P (hF (blockIndex i j))

theorem cvtSamples_eq (P : Precision) (s : Block Int) : cvtSamples P s = cvtBlock P (s.map (· - 128)) := by
  simp [cvtSamples, cvtBlock]

/-! ## The bounds of each unit -/

/-- The bounds of the normalisation constants. -/
def normBounds : Vec8 (Option ErrBound) := Vector.ofFn fun _ => unitBound

/-- The bounds of the Basis Matrix. -/
def basisBounds : Vec8 (Vec8 (Option ErrBound)) := Vector.ofFn fun _ => Vector.ofFn fun _ => unitBound

/-- The bounds of the tables W. -/
def wBounds : Vector (Vector (Vec8 (Option ErrBound)) 4) 4 :=
  Vector.ofFn fun _ => Vector.ofFn fun _ => Vector.ofFn fun _ => unitBound

/-- The bounds of REFIDCT. -/
def refIdctBounds (M : Nat) : Block (Option ErrBound) :=
  @refIdct _ ErrBound.addOp ErrBound.mulOp ErrBound.zeroOp normBounds basisBounds quarterBound (inputBounds M)

/-- The bounds of FDCT_REF. -/
def refFdctBounds (M : Nat) : Block (Option ErrBound) :=
  @refFdct _ ErrBound.addOp ErrBound.mulOp ErrBound.zeroOp normBounds basisBounds quarterBound (inputBounds M)

/-- The bounds of PLAIN. -/
def plainBounds : Vec8 (Option ErrBound) → Vec8 (Option ErrBound) :=
  @plain _ ErrBound.addOp ErrBound.mulOp ErrBound.zeroOp normBounds basisBounds

/-- The bounds of SYM2. -/
def sym2Bounds : Vec8 (Option ErrBound) → Vec8 (Option ErrBound) :=
  @sym2 _ ErrBound.addOp ErrBound.subOp ErrBound.mulOp ErrBound.zeroOp normBounds basisBounds

/-- The bounds of SYM4. -/
def sym4Bounds : Vec8 (Option ErrBound) → Vec8 (Option ErrBound) :=
  @sym4 _ ErrBound.addOp ErrBound.subOp ErrBound.mulOp ErrBound.zeroOp normBounds basisBounds

/-- The bounds of SYM8. -/
def sym8Bounds : Vec8 (Option ErrBound) → Vec8 (Option ErrBound) :=
  @sym8 _ ErrBound.addOp ErrBound.mulOp ErrBound.negOp ErrBound.zeroOp normBounds basisBounds

/-- The bounds of SEP2D with a kernel of these bounds. -/
def sepBounds (kernel : Vec8 (Option ErrBound) → Vec8 (Option ErrBound)) (M : Nat) : Block (Option ErrBound) :=
  @sep2d _ ErrBound.mulOp kernel quarterBound (inputBounds M)

/-- The bounds of IDCT_LLM. -/
def llm2dBounds (M : Nat) : Block (Option ErrBound) :=
  @llm2d _ ErrBound.addOp ErrBound.subOp ErrBound.mulOp llmBounds eighthBound (inputBounds M)

/-- The bounds of FDCT_LLM. -/
def llmF2dBounds (M : Nat) : Block (Option ErrBound) :=
  @llmF2d _ ErrBound.addOp ErrBound.subOp ErrBound.mulOp llmBounds eighthBound (inputBounds M)

/-- The bounds of the AAN operations. -/
def aan2dBounds (M : Nat) : Block (Option ErrBound) :=
  @aan2d _ ErrBound.addOp ErrBound.subOp ErrBound.mulOp aanBounds prescaleBounds (inputBounds M)

/-- The bounds of IDCT_AP922. -/
def ap922TwiceBounds (M : Nat) : Block (Option ErrBound) :=
  @ap922Twice _ ErrBound.addOp ErrBound.subOp ErrBound.mulOp ErrBound.zeroOp wBounds ap922Bounds quarterBound
    (inputBounds M)

/-! ## The evaluations -/

section

variable (P : Precision)

theorem relVec_norm : RelVec Tracks (Machine.norm P) normRealVec normBounds := fun k => by
  simpa [normRealVec, normBounds] using tracks_norm P k

theorem relVec_basis : RelVec (RelVec Tracks) (Machine.basis P) basisRealVec basisBounds := fun k n => by
  simpa [basisRealVec, basisBounds] using tracks_basis P k n

theorem relVec_wTables (idx : Fin 4) : RelVec (RelVec Tracks) wTables[idx] wRealVec[idx] wBounds[idx] := fun n k => by
  simpa [wBounds] using tracks_wTables idx n k

variable {F : Block Int} {M : Nat} (hF : EntriesWithin M F)
include hF

theorem tracks_evalIdctRef :
    RelBlock Tracks (evalIdctRef P F) (refIdct normRealVec basisRealVec (1 / 4) (realBlock F)) (refIdctBounds M) :=
  (tracks_respectsOps P).refIdct (relVec_norm P) (relVec_basis P) (tracks_quarter P) (tracks_cvtBlock P hF)

theorem tracks_evalFdctRef {s : Block Int} (hs : F = s.map (· - 128)) :
    RelBlock Tracks (evalFdctRef s) (refFdct normRealVec basisRealVec (1 / 4) (realBlock F)) (refFdctBounds M) := by
  rw [evalFdctRef, cvtSamples_eq, ← hs]
  exact (tracks_respectsOps _).refFdct (relVec_norm _) (relVec_basis _) (tracks_quarter _) (tracks_cvtBlock _ hF)

/-- SEP2D of a kernel that tracks. -/
theorem tracks_evalSep {kernel : Vec8 (Flt .binary32) → Vec8 (Flt .binary32)} {kernel' : Vec8 ℝ → Vec8 ℝ}
    {kernel'' : Vec8 (Option ErrBound) → Vec8 (Option ErrBound)}
    (hkernel : ∀ {X X' X''}, RelVec Tracks X X' X'' → RelVec Tracks (kernel X) (kernel' X') (kernel'' X'')) :
    RelBlock Tracks (evalSep kernel F) (sep2d kernel' (1 / 4) (realBlock F)) (sepBounds kernel'' M) :=
  ((tracks_cvtBlock _ hF).rows_cols (fun _ => hkernel) hkernel).map fun hx => hx.mul (tracks_quarter _)

theorem tracks_evalIdctAan :
    RelBlock Tracks (evalIdctAan P F) (aan2d aanReal prescaleRealVec (realBlock F)) (aan2dBounds M) := by
  have hscaled : RelBlock Tracks
      (Block.build fun u v => ((cvtBlock P F).at u v).mul (prescale P)[u][v])
      (Block.build fun u v => (realBlock F).at u v * prescaleRealVec[u][v])
      (Block.build fun u v => ErrBound.prod ((inputBounds M).at u v) prescaleBounds[u][v]) := by
    refine ⟨fun u v => ?_⟩
    rw [Block.at_build, Block.at_build, Block.at_build, prescaleRealVec_getElem]
    exact ((tracks_cvtBlock P hF).rel u v).mul (tracks_prescale P u v)
  have hkernel : ∀ {X X' X''}, RelVec Tracks X X' X'' → RelVec Tracks (aan1dFlt P X) (aan1d aanReal X')
      (@aan1d _ ErrBound.addOp ErrBound.subOp ErrBound.mulOp aanBounds X'') :=
    (tracks_respectsOps P).aan1d (tracks_aan_r2 P) (tracks_aan_a P) (tracks_aan_aMinusB P) (tracks_aan_aPlusB P)
  exact hscaled.rows_cols (fun _ => hkernel) hkernel

omit P

theorem tracks_evalIdctLlm :
    RelBlock Tracks (evalIdctLlm F) (llm2d llmReal (1 / 8) (realBlock F)) (llm2dBounds M) := by
  have hkernel : ∀ {X X' X''}, RelVec Tracks X X' X'' → RelVec Tracks (llm1dF32 X) (llm1d llmReal X')
      (@llm1d _ ErrBound.addOp ErrBound.subOp ErrBound.mulOp llmBounds X'') :=
    (tracks_respectsOps _).llm1d tracks_llm_r2 tracks_llm_r2c2 tracks_llm_r2c6 tracks_llm_c1 tracks_llm_s1 tracks_llm_c3
      tracks_llm_s3
  exact ((tracks_cvtBlock _ hF).rows_cols (fun _ => hkernel) hkernel).map fun hx => hx.mul tracks_eighth

theorem tracks_evalFdctLlm {s : Block Int} (hs : F = s.map (· - 128)) :
    RelBlock Tracks (evalFdctLlm s) (llmF2d llmReal (1 / 8) (realBlock F)) (llmF2dBounds M) := by
  have hkernel : ∀ {X X' X''}, RelVec Tracks X X' X'' → RelVec Tracks (llmF1dF32 X) (llmF1d llmReal X')
      (@llmF1d _ ErrBound.addOp ErrBound.subOp ErrBound.mulOp llmBounds X'') :=
    (tracks_respectsOps _).llmF1d tracks_llm_r2 tracks_llm_r2c2 tracks_llm_r2c6 tracks_llm_c1 tracks_llm_s1
      tracks_llm_c3 tracks_llm_s3
  rw [evalFdctLlm, cvtSamples_eq, ← hs]
  exact ((tracks_cvtBlock _ hF).cols_rows hkernel).map fun hx => hx.mul tracks_eighth

theorem tracks_evalIdctAp922 :
    RelBlock Tracks (evalIdctAp922 F) (ap922Twice wRealVec ap922Real (1 / 4) (realBlock F)) (ap922TwiceBounds M) :=
  ((tracks_cvtBlock _ hF).rows_cols (fun r => (tracks_respectsOps _).ap922Row (relVec_wTables row2idx[r]))
    ((tracks_respectsOps _).ap922Col tracks_ap922_t1 tracks_ap922_t2 tracks_ap922_t3 tracks_ap922_g4)).map
    fun hx => hx.mul (tracks_quarter _)

end

section

variable {X : Vec8 (Flt .binary32)} {X' : Vec8 ℝ} {X'' : Vec8 (Option ErrBound)} (hX : RelVec Tracks X X' X'')
include hX

theorem tracks_plain : RelVec Tracks (plainF32 X) (plain normRealVec basisRealVec X') (plainBounds X'') :=
  (tracks_respectsOps _).plain (relVec_norm _) (relVec_basis _) hX

theorem tracks_sym2 : RelVec Tracks (sym2F32 X) (sym2 normRealVec basisRealVec X') (sym2Bounds X'') :=
  (tracks_respectsOps _).sym2 (relVec_norm _) (relVec_basis _) hX

theorem tracks_sym4 : RelVec Tracks (sym4F32 X) (sym4 normRealVec basisRealVec X') (sym4Bounds X'') :=
  (tracks_respectsOps _).sym4 (relVec_norm _) (relVec_basis _) hX

theorem tracks_sym8 : RelVec Tracks (sym8F32 X) (sym8 normRealVec basisRealVec X') (sym8Bounds X'') :=
  (tracks_respectsOps _).sym8 (relVec_norm _) (relVec_basis _) hX

end

/-! ## No exceptional values -/

theorem getElem_eq_at {α : Type} (b : Block α) (k : Fin 64) : b[k] = b.at (rowOf k) (colOf k) := by
  simp [Block.at]

theorem RelBlock.isFinite {P : Precision} {X : Block (Flt P)} {Y : Block ℝ} {b : Block (Option ErrBound)}
    (h : RelBlock Tracks X Y b) (hb : ∀ i j : Fin 8, (b.at i j).isSome = true) (k : Fin 64) : X[k].isFinite = true := by
  rw [getElem_eq_at]
  exact (h.rel _ _).isFinite (hb _ _)

/-- Settles O45: for coefficients of 32 bits and shifted samples every unit has bounds at every position, so nothing
leaves the format. -/
theorem noExceptionalValues : Obligations.NoExceptionalValues := by
  intro inBuf k
  have hF : EntriesWithin (2 ^ 31) (coeffBlock inBuf) := fun k => by
    simpa [coeffBlock] using abs_coeff_le inBuf[k]
  have hd : EntriesWithin 128 ((sampleBlock inBuf).map (· - 128)) := fun k => by
    obtain ⟨hlo, hhi⟩ := sample_bounds inBuf[k]
    have : |sample inBuf[k] - 128| ≤ (128 : Int) := abs_le.mpr ⟨by omega, by omega⟩
    simpa [sampleBlock] using this
  refine ⟨fun P => ⟨?_, ?_⟩, ?_, ?_, ?_, ?_, ?_, ?_, ?_, ?_⟩
  · exact (tracks_evalIdctRef P hF).isFinite (by decide +kernel) k
  · exact (tracks_evalIdctAan P hF).isFinite (by decide +kernel) k
  · exact (tracks_evalSep hF tracks_plain).isFinite (by decide +kernel) k
  · exact (tracks_evalSep hF tracks_sym2).isFinite (by decide +kernel) k
  · exact (tracks_evalSep hF tracks_sym4).isFinite (by decide +kernel) k
  · exact (tracks_evalSep hF tracks_sym8).isFinite (by decide +kernel) k
  · exact (tracks_evalIdctLlm hF).isFinite (by decide +kernel) k
  · exact (tracks_evalIdctAp922 hF).isFinite (by decide +kernel) k
  · exact (tracks_evalFdctRef hd rfl).isFinite (by decide +kernel) k
  · exact (tracks_evalFdctLlm hd rfl).isFinite (by decide +kernel) k

end Sys2Proof.Machine
end

section
/-! SUPPORT. The tolerance laws: in the domain of coefficients up to 2400 every floating-point inverse operation is
closer than 1/2 to the exact transform, so any two are closer than 1 and a flat block rounds to itself
(40_numeric_common.md R145, R147). -/

namespace Sys2Proof.Machine

/-! ## The bytes of coefficients written by a host -/

theorem coeff_coeffWord {z : Int} (h : |z| ≤ 2 ^ 31 - 1) : coeff (coeffWord z) = z := by
  rw [abs_le] at h
  rw [coeff, coeffWord, BitVec.toInt_ofInt]
  exact Int.bmod_eq_of_le (by omega) (by omega)

theorem coeffBlock_coeffWord {F : Block Int} (hF : EntriesWithin 2400 F) : coeffBlock (F.map coeffWord) = F := by
  refine Vector.ext fun k hk => ?_
  rw [coeffBlock, Vector.getElem_map, Vector.getElem_map]
  exact coeff_coeffWord ((hF ⟨k, hk⟩).trans (by norm_num))

theorem outputOf_eq (i : Instr) (F : Block Int) : outputOf i F = some (resultBlock i (F.map coeffWord)) := by
  rw [outputOf, exec_eq_complete]
  rfl

/-! ## Closeness to the exact transform -/

/-- The bounds say that the computed value is finite and closer than 1/2 to the exact one. -/
def closerThanHalf : Option ErrBound → Bool
  | some b => b.err < 2 ^ 39
  | none => false

theorem Tracks.close {P : Precision} {x : Flt P} {r : ℝ} {b : Option ErrBound} (h : Tracks x r b)
    (hb : closerThanHalf b = true) : x.isFinite = true ∧ |((x.val : ℚ) : ℝ) - r| < 1 / 2 := by
  cases h with
  | unbounded => cases hb
  | @within b hfinite _ herr =>
    have hlt : (b.err : ℝ) < 2 ^ 39 := by exact_mod_cast of_decide_eq_true hb
    refine ⟨hfinite, herr.trans_lt ?_⟩
    rw [div_lt_div_iff₀ (by positivity) two_pos]
    linarith

/-- The bytes `out` are those of a block of exact values closer than 1/2 to the real block `E`. -/
def Accurate (m : RMode) (out : Block Word) (E : Fin 8 → Fin 8 → ℝ) : Prop :=
  ∃ v : Block ℚ, out = bytesOutExact m v ∧ ∀ x y : Fin 8, |((v.at x y : ℚ) : ℝ) - E x y| < 1 / 2

theorem accurate_bytesOut {P : Precision} {m : RMode} {X : Block (Flt P)} {Y : Block ℝ} {b : Block (Option ErrBound)}
    {E : Fin 8 → Fin 8 → ℝ} (h : RelBlock Tracks X Y b) (hb : ∀ x y : Fin 8, closerThanHalf (b.at x y) = true)
    (hE : ∀ x y, Y.at x y = E x y) : Accurate m (bytesOut m X) E := by
  have hclose := fun x y => (h.rel x y).close (hb x y)
  refine ⟨X.map Flt.val, Vector.ext fun k hk => ?_, fun x y => ?_⟩
  · have hfinite := (hclose (rowOf ⟨k, hk⟩) (colOf ⟨k, hk⟩)).1
    rw [← getElem_eq_at] at hfinite
    simpa [bytesOut, bytesOutExact] using congrArg byteWord (finalizeFlt_of_isFinite m hfinite)
  · rw [at_map, ← hE]
    exact (hclose x y).2

/-- Every floating-point inverse operation is accurate on coefficients of magnitude up to 2400. -/
theorem resultBlock_accurate {i : Instr} (hi : i.isForward = false) (hfix : i.opcode ≠ 0x08) {F : Block Int}
    (hF : EntriesWithin 2400 F) :
    Accurate i.rmode (resultBlock i (F.map coeffWord)) (idctExact (realBlock F)) := by
  have hread := coeffBlock_coeffWord hF
  cases i with
  | fdctRef m => cases hi
  | fdctLlm m => cases hi
  | idctSepFix m => exact absurd rfl hfix
  | idctRefF32 m =>
    rw [resultBlock, hread]
    exact accurate_bytesOut (tracks_evalIdctRef _ hF) (by decide +kernel) (refIdct_real _)
  | idctRefF64 m =>
    rw [resultBlock, hread]
    exact accurate_bytesOut (tracks_evalIdctRef _ hF) (by decide +kernel) (refIdct_real _)
  | idctSep m =>
    rw [resultBlock, hread]
    exact accurate_bytesOut (tracks_evalSep hF tracks_plain) (by decide +kernel) (sep2d_real plain_real _)
  | idctSepSym2 m =>
    rw [resultBlock, hread]
    exact accurate_bytesOut (tracks_evalSep hF tracks_sym2) (by decide +kernel) (sep2d_real sym2_real _)
  | idctSepSym4 m =>
    rw [resultBlock, hread]
    exact accurate_bytesOut (tracks_evalSep hF tracks_sym4) (by decide +kernel) (sep2d_real sym4_real _)
  | idctSepSym8 m =>
    rw [resultBlock, hread]
    exact accurate_bytesOut (tracks_evalSep hF tracks_sym8) (by decide +kernel) (sep2d_real sym8_real _)
  | idctLlm m =>
    rw [resultBlock, hread]
    exact accurate_bytesOut (tracks_evalIdctLlm hF) (by decide +kernel) (llm2d_real _)
  | idctAanF32 m =>
    rw [resultBlock, hread]
    exact accurate_bytesOut (tracks_evalIdctAan _ hF) (by decide +kernel) (aan2d_real _)
  | idctAanF64 m =>
    rw [resultBlock, hread]
    exact accurate_bytesOut (tracks_evalIdctAan _ hF) (by decide +kernel) (aan2d_real _)
  | idctAp922 m =>
    rw [resultBlock, hread]
    exact accurate_bytesOut (tracks_evalIdctAp922 hF) (by decide +kernel) (ap922Twice_real _)

/-! ## Equivalence of the algorithms -/

theorem bytesOutExact_toNat (m : RMode) (v : Block ℚ) (k : Fin 64) :
    ((bytesOutExact m v)[k].toNat : Int) = finalize m v[k] := by
  rw [bytesOutExact_getElem]
  exact byteWord_toNat (by rw [finalize_eq]; omega) (by rw [finalize_eq]; omega)

/-- Values less than 1 apart finalize to bytes at most 1 apart. -/
theorem abs_finalize_sub_le {m : RMode} {p q : ℚ} (h : |p - q| < 1) : |finalize m p - finalize m q| ≤ 1 := by
  have hround := abs_le.mp (abs_roundInt_sub_roundInt_le (m := m) h)
  rw [finalize_eq, finalize_eq, abs_le]
  omega

theorem Accurate.within {m : RMode} {a b : Block Word} {E : Fin 8 → Fin 8 → ℝ} (ha : Accurate m a E)
    (hb : Accurate m b E) : within 1 a b := by
  obtain ⟨v, rfl, hv⟩ := ha
  obtain ⟨w, rfl, hw⟩ := hb
  intro k
  rw [bytesOutExact_toNat, bytesOutExact_toNat]
  refine abs_finalize_sub_le ?_
  have hvk := hv (rowOf k) (colOf k)
  have hwk := hw (rowOf k) (colOf k)
  rw [← getElem_eq_at] at hvk hwk
  have hreal : |((v[k] : ℚ) : ℝ) - ((w[k] : ℚ) : ℝ)| < 1 := by
    rw [abs_lt] at *
    constructor <;> linarith
  exact_mod_cast hreal

/-- Settles O60: both operations are closer than 1/2 to the exact transform, by the error analysis of their own
networks. -/
theorem crossAlgorithm : Obligations.CrossAlgorithm := by
  intro i hi hfix F hdomain a b ha hb
  have hF : EntriesWithin 2400 F := fun k => by
    obtain ⟨hlo, hhi⟩ := hdomain k
    rw [Config.coeffLawBound] at hlo hhi
    exact abs_le.mpr ⟨by push_cast; linarith, by push_cast; linarith⟩
  rw [outputOf_eq, Option.some_inj] at ha hb
  rw [← ha, ← hb]
  exact (resultBlock_accurate hi hfix hF).within (resultBlock_accurate (i := .idctRefF32 i.rmode) rfl
    (show (0x01 : BitVec 5) ≠ 0x08 by decide) hF)

/-! ## The flat block -/

theorem dcBlock_at (f : Int) (u v : Fin 8) : (dcBlock f).at u v = if u = 0 ∧ v = 0 then f else 0 := by
  have hindex : (blockIndex u v).val = 0 ↔ u = 0 ∧ v = 0 := by
    rw [Fin.ext_iff, Fin.ext_iff]
    change 8 * u.val + v.val = 0 ↔ u.val = 0 ∧ v.val = 0
    omega
  simp only [Block.at, dcBlock, Fin.getElem_fin, Vector.getElem_set, Vector.getElem_replicate, eq_comm (a := 0), hindex]

theorem dcBlock_within {c : Int} (hlo : -300 ≤ c) (hhi : c ≤ 300) : EntriesWithin 2400 (dcBlock (8 * c)) := by
  intro k
  rw [getElem_eq_at, dcBlock_at]
  split_ifs
  · exact abs_le.mpr ⟨by push_cast; linarith, by push_cast; linarith⟩
  · simp

/-- The exact transform of the flat block is flat. -/
theorem idctExact_dcBlock (c : Int) (x y : Fin 8) : idctExact (realBlock (dcBlock (8 * c))) x y = c := by
  have hterm : ∀ u v : Fin 8, normReal u * normReal v * (realBlock (dcBlock (8 * c))).at u v * basisReal u x *
      basisReal v y = if u = 0 then (if v = 0 then normReal 0 * normReal 0 * (8 * c) else 0) else 0 := fun u v => by
    rw [realBlock, at_map, dcBlock_at]
    by_cases hu : u = 0 <;> by_cases hv : v = 0 <;> simp [hu, hv, basisReal]
  have hnorm : normReal 0 * normReal 0 = 1 / 2 := by
    rw [normReal_eq, if_pos rfl]
    exact cosReal_products_four.1
  simp only [idctExact, hterm]
  simp [hnorm]
  ring

/-- Row 0 of the fixed-point table is constant. -/
theorem fixTable_row_zero (n : Fin 8) : (fixTable 4096)[(0 : Fin 8)][n] = 2896 := by
  revert n
  decide +kernel

theorem roundInt_zero (m : RMode) : roundInt m 0 = 0 := roundInt_eq_of_abs_sub_lt (by norm_num)

/-- A sum whose terms after the first are zero. -/
theorem sumOver_allIdx_first {f : Fin 8 → Int} (h : ∀ k, k ≠ 0 → f k = 0) : sumOver allIdx f = f 0 := by
  simp [sumOver, allIdx, h]

/-- The row pass of the flat block: the rounded first row, zeros below. -/
theorem fixRows_dcBlock (m : RMode) (c : Int) (u y : Fin 8) :
    (fixRows 4096 m (dcBlock (8 * c)))[u][y] = if u = 0 then roundInt m (mkRat (2896 * (8 * c)) 4096) else 0 := by
  have hrow : (fixRows 4096 m (dcBlock (8 * c)))[u][y] =
      roundDiv m (sumOver allIdx fun v => (fixTable 4096)[v][y] * (dcBlock (8 * c)).at u v) 4096 := by
    simp [fixRows, rowPass]
  rw [hrow, roundDiv, sumOver_allIdx_first fun v hv => by rw [dcBlock_at, if_neg fun h => hv h.2, mul_zero], dcBlock_at,
    fixTable_row_zero]
  by_cases hu : u = 0
  · rw [if_pos hu, if_pos ⟨hu, rfl⟩]
  · rw [if_neg hu, if_neg fun h => hu h.1, mul_zero, Rat.zero_mkRat, roundInt_zero]

theorem evalIdctSepFix_dcBlock (m : RMode) (c : Int) (x y : Fin 8) :
    (evalIdctSepFix 4096 m (dcBlock (8 * c))).at x y =
      2896 * (roundInt m (mkRat (2896 * (8 * c)) 4096)) / 16384 := by
  have hcolumn : (evalIdctSepFix 4096 m (dcBlock (8 * c))).at x y =
      mkRat (sumOver allIdx fun u => (fixTable 4096)[u][x] * (fixRows 4096 m (dcBlock (8 * c)))[u][y]) (4 * 4096) := by
    rw [evalIdctSepFix, Block.at_build]
  rw [hcolumn, sumOver_allIdx_first fun u hu => by rw [fixRows_dcBlock, if_neg hu, mul_zero], fixRows_dcBlock,
    if_pos rfl, fixTable_row_zero, Rat.mkRat_eq_div]
  push_cast
  norm_num

/-- In the fixed-point operation the two roundings and the cut constant move a flat block by less than 1/2. -/
theorem abs_evalIdctSepFix_sub_lt (m : RMode) {c : Int} (hlo : -300 ≤ c) (hhi : c ≤ 300) (x y : Fin 8) :
    |(evalIdctSepFix 4096 m (dcBlock (8 * c))).at x y - c| < 1 / 2 := by
  have hround := abs_le.mp (abs_roundInt_sub_le m (mkRat (2896 * (8 * c)) 4096))
  have hmk : mkRat (2896 * (8 * c)) 4096 = 2896 * (8 * c) / 4096 := by
    rw [Rat.mkRat_eq_div]
    push_cast
    ring
  have hloQ : (-300 : ℚ) ≤ c := by exact_mod_cast hlo
  have hhiQ : (c : ℚ) ≤ 300 := by exact_mod_cast hhi
  rw [evalIdctSepFix_dcBlock, abs_lt]
  rw [hmk] at hround ⊢
  constructor <;> linarith [hround.1, hround.2]

theorem abs_cast_sub_lt_half {q : ℚ} {c : Int} : |(q : ℝ) - (c : ℝ)| < 1 / 2 ↔ |q - c| < 1 / 2 := by
  rw [← Rat.cast_lt (K := ℝ)]
  push_cast
  rfl

/-- Every inverse operation is accurate on the flat block. -/
theorem resultBlock_dcBlock_accurate {i : Instr} (hi : i.isForward = false) {c : Int} (hlo : -300 ≤ c) (hhi : c ≤ 300) :
    Accurate i.rmode (resultBlock i ((dcBlock (8 * c)).map coeffWord)) fun _ _ => c := by
  have hF := dcBlock_within hlo hhi
  by_cases hfix : i.opcode = 0x08
  · obtain ⟨m, rfl⟩ : ∃ m, i = .idctSepFix m := by
      cases i with
      | idctSepFix m => exact ⟨m, rfl⟩
      | _ => cases hfix
    refine ⟨evalIdctSepFix 4096 m (dcBlock (8 * c)), ?_, fun x y => ?_⟩
    · rw [resultBlock, coeffBlock_coeffWord hF]
      rfl
    · have hclose := abs_evalIdctSepFix_sub_lt m hlo hhi x y
      generalize (evalIdctSepFix 4096 m (dcBlock (8 * c))).at x y = q at *
      exact abs_cast_sub_lt_half.mpr hclose
  · have h := resultBlock_accurate hi hfix hF
    rwa [funext₂ (idctExact_dcBlock c)] at h

/-- Settles O59: the value at every position is closer than 1/2 to c, so it rounds to c under every policy. -/
theorem dcOnlyLaw : Obligations.DcOnlyLaw := by
  intro i c hi hlo hhi
  refine ⟨_, outputOf_eq i _, fun k => ?_⟩
  obtain ⟨v, hout, hv⟩ := resultBlock_dcBlock_accurate hi hlo hhi
  have hvk := hv (rowOf k) (colOf k)
  rw [← getElem_eq_at] at hvk
  have hround : roundInt i.rmode v[k] = c := roundInt_eq_of_abs_sub_lt (abs_cast_sub_lt_half.mp hvk)
  rw [hout, bytesOutExact_toNat, finalize_eq, hround]

end Sys2Proof.Machine
end

section
/-! SUPPORT. The completion of a command: the frame of `State.complete` as the host meets it in the window, and from it
what an operation that completes with given output words leaves (60_exceptions.md R300; 40_numeric_common.md R143). -/

namespace Sys2Proof.Machine

/-! ## The bytes of the window that a completion leaves alone -/

theorem regAt_eq_status {off : Nat} (h : regAt off = .status) : off = 0x008 := by
  by_contra hne
  unfold regAt at h
  split_ifs at h

theorem regAt_eq_outEntry {off : Nat} {k : Fin 64} (h : regAt off = .outEntry k) : 0x200 ≤ off ∧ off < 0x300 := by
  by_contra hne
  unfold regAt at h
  split_ifs at h

/-- Only BUSY and DONE, bits 0 and 1, are the completion's. -/
theorem Status.completed_toWord_getLsbD (f : Status) {b : Nat} (hb : 2 ≤ b) :
    f.completed.toWord.getLsbD b = f.toWord.getLsbD b := by
  have hbusy : ¬ b < 1 := by omega
  have hdone : ¬ b - 1 < 1 := by omega
  simp only [Status.toWord, BitVec.getLsbD_append, hbusy, hdone, Status.completed_multi, Status.completed_err,
    Status.completed_errCode, if_false]

section

variable (s : State) (out : Block Word)

theorem peek_complete {off : Nat} (hstatus : off ≠ 0x008) (hout : ¬ (0x200 ≤ off ∧ off < 0x300)) :
    (s.complete out).peek off = s.peek off := by
  unfold State.peek
  cases hr : regAt off with
  | status => exact absurd (regAt_eq_status hr) hstatus
  | outEntry k => exact absurd (regAt_eq_outEntry hr) hout
  | _ => rfl

theorem peek_status : s.peek 0x008 = s.status.toWord := rfl

/-- A bit of the three upper bytes of STATUS, or one of its low byte above DONE. -/
theorem peekByte_complete_status {b i : Nat} (hb : b < 4) (hi : 2 ≤ 8 * b + i) :
    ((s.complete out).peekByte (0x008 + b)).getLsbD i = (s.peekByte (0x008 + b)).getLsbD i := by
  have hword := Status.completed_toWord_getLsbD s.status hi
  have hbyte := fun t : State => peekByte_of_word t 2 hb
  rw [hbyte, hbyte, BitVec.getLsbD_extractLsb', BitVec.getLsbD_extractLsb', peek_status, peek_status,
    State.complete_status, hword]

theorem peekByte_complete {a : Nat} (hstatus : a ≠ 0x008) (hout : ¬ (0x200 ≤ a ∧ a < 0x300)) :
    (s.complete out).peekByte a = s.peekByte a := by
  by_cases hoff : a - a % 4 = 0x008
  · obtain ⟨b, rfl⟩ : ∃ b, a = 0x008 + b := ⟨a - 0x008, by omega⟩
    exact BitVec.eq_of_getLsbD_eq fun i _ => peekByte_complete_status s out (by omega) (by omega)
  · rw [State.peekByte, peek_complete s out hoff (by omega), ← State.peekByte]

/-- Every completion is one as the statements describe it, whatever block it writes. -/
theorem completed_complete : Completed s (s.complete out) where
  busy := rfl
  done := rfl
  err := rfl
  multi := rfl
  errCode := rfl
  pend := rfl
  outValid := rfl
  inBuf := rfl
  inWritten := rfl
  cmd := rfl
  ctrl := rfl
  draws := rfl
  inputs := rfl
  replies := rfl
  bytes _ hstatus hout := peekByte_complete s out hstatus hout
  statusBits _ hb := peekByte_complete_status s out (b := 0) (by decide) (by omega)

end

/-- An operation completes with the words of its result block. -/
theorem exec_completes_with {i : Instr} {s : State} {w : Fin 8 → Fin 8 → Word}
    (h : ∀ x y : Fin 8, (resultBlock i s.inBuf)[blockIndex x y] = w x y) :
    ∃ t, exec i s = .next t ∧ Completed s t ∧ ∀ x y : Fin 8, t.outBuf[blockIndex x y] = w x y :=
  ⟨_, exec_eq_complete i s, completed_complete s _, h⟩

theorem floatsOut_getElem (r : Block (Flt .binary32)) (k : Fin 64) : (floatsOut r)[k] = floatWord r[k] := by
  simp [floatsOut]

end Sys2Proof.Machine
end

section
/-! SUPPORT. The direct transforms: their double sum is one chain of 64 additions in row-major order, so each position of
their evaluations is the chain that the rule writes (41_reference.md R170 to R174). -/

namespace Sys2Proof.Machine

/-- The order of R170: the indices 0..63 are the rows in order, and in each row its columns in order. -/
theorem finRange_eq_flatMap : List.finRange 64 = allIdx.flatMap fun u => allIdx.map (blockIndex u) := by decide

theorem sum2_eq_foldl {α : Type} [Add α] [Zero α] (term : Fin 8 → Fin 8 → α) :
    sum2 term = (List.finRange 64).foldl (fun acc i => acc + term (rowOf i) (colOf i)) 0 := by
  rw [finRange_eq_flatMap, List.foldl_flatMap]
  simp only [List.foldl_map, rowOf_blockIndex, colOf_blockIndex]
  rfl

section

variable {α : Type} {_ : Add α} {_ : Mul α} {_ : Zero α} (C : Vec8 α) (B : Vec8 (Vec8 α)) (q : α)

theorem refIdct_at (F : Block α) (x y : Fin 8) :
    (refIdct C B q F).at x y =
      (List.finRange 64).foldl
        (fun acc i => acc + C[rowOf i] * C[colOf i] * F[i] * B[rowOf i][x] * B[colOf i][y]) 0 * q := by
  rw [refIdct, Block.at_build, sum2_eq_foldl]
  simp only [← getElem_eq_at]

theorem refFdct_at (d : Block α) (u v : Fin 8) :
    (refFdct C B q d).at u v =
      (List.finRange 64).foldl (fun acc i => acc + d[i] * B[u][rowOf i] * B[v][colOf i]) 0 * (C[u] * C[v] * q) := by
  rw [refFdct, Block.at_build, sum2_eq_foldl]
  simp only [← getElem_eq_at]

end

theorem cvtBlock_coeffBlock_getElem (P : Precision) (b : Block Word) (i : Fin 64) :
    (cvtBlock P (coeffBlock b))[i] = Flt.ofInt P b[i].toInt := by
  simp [cvtBlock, coeffBlock, coeff]

theorem sample_eq (w : Word) : sample w = (w.toNat % 256 : Nat) := by simp [sample]

theorem cvtSamples_sampleBlock_getElem (P : Precision) (b : Block Word) (i : Fin 64) :
    (cvtSamples P (sampleBlock b))[i] = Flt.ofInt P ((b[i].toNat % 256 : Nat) - 128 : Int) := by
  simp [cvtSamples, sampleBlock, sample_eq]

theorem evalIdctRef_at (P : Precision) (b : Block Word) (x y : Fin 8) :
    (evalIdctRef P (coeffBlock b)).at x y = refPixel P b x y := by
  rw [evalIdctRef, refIdctFlt, refIdct_at]
  simp only [cvtBlock_coeffBlock_getElem]
  rfl

theorem evalFdctRef_at (b : Block Word) (u v : Fin 8) :
    (evalFdctRef (sampleBlock b)).at u v = refCoefficient b u v := by
  rw [evalFdctRef, refFdct_at]
  simp only [cvtSamples_sampleBlock_getElem]
  rfl

/-- Settles O7: in both precisions a byte of the result block is Finalize of the chain at its position. -/
theorem referenceResults : Obligations.ReferenceResults := by
  have byte (P : Precision) (m : RMode) (b : Block Word) (x y : Fin 8) :
      (bytesOut m (evalIdctRef P (coeffBlock b)))[blockIndex x y] = byteWord (finalizeFlt m (refPixel P b x y)) := by
    rw [bytesOut_getElem, ← evalIdctRef_at, Block.at]
  exact fun m s => ⟨exec_completes_with (byte .binary32 m s.inBuf), exec_completes_with (byte .binary64 m s.inBuf)⟩

/-- Settles O8: a word of the result block is the encoding of the forward chain at its position. -/
theorem forwardReferenceResult : Obligations.ForwardReferenceResult := by
  refine fun m s => exec_completes_with fun u v => ?_
  rw [resultBlock, floatsOut_getElem, floatWord, ← evalFdctRef_at, Block.at]

end Sys2Proof.Machine
end

section
/-! SUPPORT. The separable operations in binary32: what each kernel gathers in each output, that SYM8 is PLAIN, and SEP2D
position by position (42_separable.md R190 to R195, R199 to R202). -/

namespace Sys2Proof.Machine

/-! ## The outputs of the four kernels -/

/-- The sum over the listed inputs of the products that go to output n. -/
def kernelSum {α : Type} [Add α] [Mul α] [Zero α] (C : Vec8 α) (B : Vec8 (Vec8 α)) (X : Vec8 α) (n : Fin 8)
    (ks : List (Fin 8)) : α :=
  sumOver ks fun k => C[k] * X[k] * B[k][n]

section

variable {α : Type} {_ : Add α} {_ : Mul α} {_ : Zero α} (C : Vec8 α) (B : Vec8 (Vec8 α)) (X : Vec8 α) (n : Fin 8)

theorem scaled_getElem (k : Fin 8) : (scaled C X)[k] = C[k] * X[k] := by simp [scaled]

theorem plain_getElem : (plain C B X)[n] = kernelSum C B X n allIdx := by
  simp only [plain, scaled_getElem, kernelSum]
  simp

theorem sym2_getElem {_ : Sub α} (hn : n.val < 4) :
    (sym2 C B X)[n] = kernelSum C B X n evenIdx + kernelSum C B X n oddIdx ∧
    (sym2 C B X)[n.rev] = kernelSum C B X n evenIdx - kernelSum C B X n oddIdx := by
  simp only [sym2, scaled_getElem]
  match n, hn with
  | 0, _ | 1, _ | 2, _ | 3, _ => exact ⟨rfl, rfl⟩

theorem sym4_getElem {_ : Sub α} (hn : n.val < 2) :
    (sym4 C B X)[n] = kernelSum C B X n [0, 4] + kernelSum C B X n [2, 6] + kernelSum C B X n oddIdx ∧
    (sym4 C B X)[n.rev] = kernelSum C B X n [0, 4] + kernelSum C B X n [2, 6] - kernelSum C B X n oddIdx ∧
    (sym4 C B X)[3 - n] = kernelSum C B X n [0, 4] - kernelSum C B X n [2, 6] + kernelSum C B X (3 - n) oddIdx ∧
    (sym4 C B X)[4 + n] = kernelSum C B X n [0, 4] - kernelSum C B X n [2, 6] - kernelSum C B X (3 - n) oddIdx := by
  simp only [sym4, scaled_getElem]
  match n, hn with
  | 0, _ | 1, _ => exact ⟨rfl, rfl, rfl, rfl⟩

theorem sym8_getElem {_ : Neg α} (hn : n.val < 4) :
    (sym8 C B X)[n] = kernelSum C B X n allIdx ∧
    (sym8 C B X)[n.rev] =
      sumOver allIdx fun k => if k.val % 2 = 0 then C[k] * X[k] * B[k][n] else -(C[k] * X[k] * B[k][n]) := by
  simp only [sym8, scaled_getElem]
  match n, hn with
  | 0, _ | 1, _ | 2, _ | 3, _ => exact ⟨rfl, rfl⟩

/-- SYM8 is PLAIN in any arithmetic in which the products have the mirror symmetry of the basis (R195). -/
theorem sym8_eq_plain {_ : Neg α}
    (hB : ∀ (x : α) (k n : Fin 8), x * B[k][n.rev] = if k.val % 2 = 0 then x * B[k][n] else -(x * B[k][n])) :
    sym8 C B X = plain C B X := by
  have hnear : ∀ n : Fin 8, n.val < 4 → (sym8 C B X)[n] = (plain C B X)[n] := fun n hn => by
    rw [(sym8_getElem C B X n hn).1, plain_getElem]
  have hfar : ∀ n : Fin 8, n.val < 4 → (sym8 C B X)[n.rev] = (plain C B X)[n.rev] := fun n hn => by
    simp only [(sym8_getElem C B X n hn).2, plain_getElem, kernelSum, hB]
  refine Vector.ext fun i hi => ?_
  by_cases hi4 : i < 4
  · exact hnear ⟨i, hi⟩ hi4
  · obtain ⟨n, rfl⟩ : ∃ n : Fin 8, i = n.rev.val := ⟨Fin.rev ⟨i, hi⟩, by rw [Fin.rev_rev]⟩
    exact hfar n (by rw [Fin.val_rev] at hi4; omega)

end

/-- Settles O55: over the reals each kernel adds up the eight products of the 1D inverse transform. -/
theorem separableKernelsExact : Obligations.SeparableKernelsExact := fun X n =>
  ⟨plain_real X n, sym2_real X n, sym4_real X n, sym8_real X n⟩

/-- Settles O10: each output is built from sums along lists of inputs, which are the chains that the rules write. -/
theorem separableKernelOrder : Obligations.SeparableKernelOrder := fun X =>
  ⟨fun _ => plain_getElem _ _ X _, fun _ hn => sym2_getElem _ _ X _ hn, fun _ hn => sym4_getElem _ _ X _ hn,
    fun _ hn => sym8_getElem _ _ X _ hn⟩

/-! ## SYM8 is PLAIN -/

theorem round_not (P : Precision) (s : Bool) (n e : Nat) : Flt.round P (!s) n e = (Flt.round P s n e).negate := by
  simp only [Flt.round]
  split_ifs <;> rfl

/-- The sign of a factor is the sign of the product, for every datum: rounding to nearest looks at magnitudes only. -/
theorem mul_negate {P : Precision} (a b : Flt P) : a.mul b.negate = (a.mul b).negate := by
  cases a with
  | nan => cases b <;> rfl
  | inf s =>
    cases b with
    | nan => rfl
    | inf t => simp [Flt.mul, Flt.negate]
    | fin t m q =>
      simp only [Flt.mul, Flt.negate, Bool.bne_not]
      split_ifs <;> rfl
  | fin s m q =>
    cases b with
    | nan => rfl
    | inf t =>
      simp only [Flt.mul, Flt.negate, Bool.bne_not]
      split_ifs <;> rfl
    | fin t m' q' => simp only [Flt.mul, Flt.negate, Bool.bne_not, round_not]

/-- A product with the mirrored entry of the Basis Matrix is what SYM8 scatters to output 7 - n. -/
theorem mul_basis_rev {P : Precision} (x : Flt P) (k n : Fin 8) :
    x.mul (Machine.basis P)[k][n.rev] =
      if k.val % 2 = 0 then x.mul (Machine.basis P)[k][n] else (x.mul (Machine.basis P)[k][n]).negate := by
  rw [basis_rev, apply_ite (x.mul ·), mul_negate]

theorem sym8F32_eq_plainF32 : sym8F32 = plainF32 := funext fun X => sym8_eq_plain _ _ X mul_basis_rev

/-- Settles O58: the kernels are one function, so the two operations complete with one block. -/
theorem sym8IsPlain : Obligations.Sym8IsPlain := by
  refine ⟨congrFun sym8F32_eq_plainF32, fun m s => ?_⟩
  have hblock : resultBlock (.idctSepSym8 m) s.inBuf = resultBlock (.idctSep m) s.inBuf := by
    rw [resultBlock, resultBlock, sym8F32_eq_plainF32]
  rw [exec_eq_complete, exec_eq_complete, hblock]

/-! ## The operations -/

theorem cvtBlock_coeffBlock_at (P : Precision) (b : Block Word) (x y : Fin 8) :
    (cvtBlock P (coeffBlock b)).at x y = Flt.ofInt P (b.at x y).toInt :=
  cvtBlock_coeffBlock_getElem P b (blockIndex x y)

theorem sep2d_at {α : Type} {_ : Mul α} (kernel : Vec8 α → Vec8 α) (q : α) (F : Block α) (x y : Fin 8) :
    (sep2d kernel q F).at x y =
      (kernel (Vector.ofFn fun u => (kernel (Vector.ofFn fun v => F.at u v))[y]))[x] * q := by
  rw [sep2d, at_map, at_ofCols_rows]

theorem evalSep_at (kernel : Vec8 (Flt .binary32) → Vec8 (Flt .binary32)) (b : Block Word) (x y : Fin 8) :
    (evalSep kernel (coeffBlock b)).at x y = sepPixel kernel b x y := by
  rw [evalSep, sep2d_at]
  simp only [cvtBlock_coeffBlock_at]
  rfl

/-- Settles O9: whatever the kernel is, a byte of the result block is Finalize of SEP2D at its position. -/
theorem separableResults : Obligations.SeparableResults := by
  have byte (kernel : Vec8 (Flt .binary32) → Vec8 (Flt .binary32)) (m : RMode) (b : Block Word) (x y : Fin 8) :
      (bytesOut m (evalSep kernel (coeffBlock b)))[blockIndex x y] =
        byteWord (finalizeFlt m (sepPixel kernel b x y)) := by
    rw [bytesOut_getElem, ← evalSep_at, Block.at]
  exact fun m s =>
    ⟨exec_completes_with (byte plainF32 m s.inBuf), exec_completes_with (byte sym2F32 m s.inBuf),
      exec_completes_with (byte sym4F32 m s.inBuf), exec_completes_with (byte sym8F32 m s.inBuf)⟩

end Sys2Proof.Machine
end

section
/-! SUPPORT. The K table of IDCT_SEP_FIX: nested integer square roots are the floors of the scaled cosines, so each entry
is the nearest integer to its real product (42_separable.md R198; log 22). -/

namespace Sys2Proof.Machine

open Real

/-! ## The integer square root -/

/-- The digits found so far do not pass the root, and the digits to come reach it. -/
theorem isqrtFrom_bounds {y : Nat} (b acc : Nat) (hle : acc * acc ≤ y) (hlt : y < (acc + 2 ^ b) * (acc + 2 ^ b)) :
    isqrtFrom y b acc * isqrtFrom y b acc ≤ y ∧ y < (isqrtFrom y b acc + 1) * (isqrtFrom y b acc + 1) := by
  induction b generalizing acc with
  | zero => exact ⟨hle, hlt⟩
  | succ b ih =>
    have hhalves : acc + 2 ^ b + 2 ^ b = acc + 2 ^ (b + 1) := by rw [pow_succ]; omega
    rw [isqrtFrom]
    split_ifs with h
    · exact ih _ h (by rwa [hhalves])
    · exact ih _ hle (not_le.mp h)

theorem isqrt_bounds (y : Nat) : isqrt y * isqrt y ≤ y ∧ y < (isqrt y + 1) * (isqrt y + 1) := by
  refine isqrtFrom_bounds _ 0 (by simp) ?_
  calc y < 2 ^ (y.log2 + 1) := Nat.lt_log2_self
    _ ≤ 2 ^ (y.log2 / 2 + 1 + (y.log2 / 2 + 1)) := Nat.pow_le_pow_right (by decide) (by omega)
    _ = (0 + 2 ^ (y.log2 / 2 + 1)) * (0 + 2 ^ (y.log2 / 2 + 1)) := by rw [zero_add, pow_add]

/-- The floor of a square root is the integer root of the floor. -/
theorem isqrt_floor_sq {x : ℝ} (hx : 0 ≤ x) : isqrt ⌊x ^ 2⌋₊ = ⌊x⌋₊ := by
  obtain ⟨hle, hlt⟩ := isqrt_bounds ⌊x ^ 2⌋₊
  rw [← pow_two] at hle hlt
  have hle : (isqrt ⌊x ^ 2⌋₊ : ℝ) ^ 2 ≤ x ^ 2 := by exact_mod_cast (Nat.le_floor_iff (sq_nonneg x)).mp hle
  have hlt : x ^ 2 < ((isqrt ⌊x ^ 2⌋₊ : ℝ) + 1) ^ 2 := by exact_mod_cast (Nat.floor_lt (sq_nonneg x)).mp hlt
  exact ((Nat.floor_eq_iff hx).mpr
    ⟨le_of_sq_le_sq hle hx, lt_of_pow_lt_pow_left₀ 2 (by positivity) hlt⟩).symm

/-! ## Scaled cosines -/

theorem irrational_cosReal (m : Fin 8) (hm : m ≠ 0) : Irrational (cosReal m) := by
  have hden : ∀ m : Fin 8, m ≠ 0 → 3 < ((m.val : ℚ) / 16).den := by decide +kernel
  have hcos := irrational_cos_rat_mul_pi (hden m hm)
  rwa [cosReal, mul_div_right_comm, show (m.val : ℝ) / 16 = ((m.val / 16 : ℚ) : ℝ) by push_cast; rfl]

theorem irrational_scaled {T : Nat} (hT : T ≠ 0) (m : Fin 8) (hm : m ≠ 0) : Irrational (T * (2 * cosReal m)) :=
  ((irrational_cosReal m hm).natCast_mul two_ne_zero).natCast_mul hT

theorem natCast_mul_cosReal_le (T m : Nat) : T * cosReal m ≤ T := mul_le_of_le_one_right T.cast_nonneg (cos_le_one _)

/-- The cosine of half an angle, scaled by `T`, from that of the whole angle, scaled by the square of `T`. -/
theorem isqrt_floor_double (T : Nat) {m : Nat} (hm : m < 8) :
    isqrt ⌊((2 * T ^ 2 : Nat) : ℝ) + (T ^ 2 : Nat) * (2 * cosReal (2 * m))⌋₊ = ⌊(T : ℝ) * (2 * cosReal m)⌋₊ := by
  have hpos := cosReal_pos hm
  have hsq : (T * (2 * cosReal m)) ^ 2 = ((2 * T ^ 2 : Nat) : ℝ) + (T ^ 2 : Nat) * (2 * cosReal (2 * m)) := by
    rw [mul_pow, mul_pow, cosReal_sq]
    push_cast
    ring
  rw [← hsq, isqrt_floor_sq (by positivity)]

theorem floor_natCast_sub {N : Nat} {z : ℝ} (hz : Irrational z) (h0 : 0 ≤ z) (hN : z ≤ N) :
    ⌊(N : ℝ) - z⌋₊ = N - ⌊z⌋₊ - 1 := by
  have hle : (⌊z⌋₊ : ℝ) < z := (Nat.floor_le h0).lt_of_ne (hz.ne_nat _).symm
  have hlt : z < ⌊z⌋₊ + 1 := Nat.lt_floor_add_one z
  obtain ⟨d, rfl⟩ : ∃ d, N = ⌊z⌋₊ + 1 + d :=
    Nat.exists_eq_add_of_le (by exact_mod_cast hle.trans_le hN)
  rw [show ⌊z⌋₊ + 1 + d - ⌊z⌋₊ - 1 = d by omega, Nat.floor_eq_iff (by linarith)]
  push_cast
  constructor <;> linarith

section

variable {T A m : Nat} (hA : A = T ^ 2)
include hA

/-- The whole angle is below a right angle: its scaled cosine is added. -/
theorem isqrt_add_floor (hm : 2 * m < 8) :
    isqrt (2 * A + ⌊(A : ℝ) * (2 * cosReal (2 * m))⌋₊) = ⌊(T : ℝ) * (2 * cosReal m)⌋₊ := by
  have hpos := cosReal_pos hm
  rw [← isqrt_floor_double T (by omega), ← hA, add_comm ((_ : Nat) : ℝ), Nat.floor_add_natCast (by positivity), add_comm]

/-- The whole angle is a right angle. -/
theorem isqrt_two_mul : isqrt (2 * A) = ⌊(T : ℝ) * (2 * cosReal 4)⌋₊ := by
  rw [← isqrt_floor_double T (by decide), cosReal_eight, mul_zero, mul_zero, add_zero, Nat.floor_natCast, hA]

/-- The whole angle is past a right angle: the scaled cosine of its reflection is subtracted. -/
theorem isqrt_sub_floor (hT : T ≠ 0) (hm : m < 8) (j : Fin 8) (hj : 2 * m + j = 16) :
    isqrt (2 * A - ⌊(A : ℝ) * (2 * cosReal j)⌋₊ - 1) = ⌊(T : ℝ) * (2 * cosReal m)⌋₊ := by
  have hpos := cosReal_pos j.isLt
  have hirr := irrational_scaled (T := A) (by rw [hA]; positivity) j (by rintro rfl; omega)
  have hle : (A : ℝ) * (2 * cosReal j) ≤ (2 * A : Nat) := by
    push_cast
    linarith [natCast_mul_cosReal_le A j]
  rw [← isqrt_floor_double T hm, cosReal_reflect hj, ← hA, mul_neg, mul_neg, ← sub_eq_add_neg,
    floor_natCast_sub hirr (by positivity) hle]

end

/-- Each of the nested roots is the floor of a scaled cosine: of 4 and 2, 4 and 6, or 4 alone, then of m itself. -/
theorem twiceCosFloor_eq {S : Nat} (hS : S ≠ 0) (m : Fin 8) : twiceCosFloor S m = ⌊(S : ℝ) * (2 * cosReal m)⌋₊ := by
  have hS2 : S ^ 2 ≠ 0 := pow_ne_zero 2 hS
  have root2 : isqrt (2 * S ^ 8) = ⌊((S ^ 4 : Nat) : ℝ) * (2 * cosReal 4)⌋₊ := isqrt_two_mul (by ring)
  have rootP : isqrt (2 * S ^ 4 + ⌊((S ^ 4 : Nat) : ℝ) * (2 * cosReal 4)⌋₊) =
      ⌊((S ^ 2 : Nat) : ℝ) * (2 * cosReal 2)⌋₊ := isqrt_add_floor (m := 2) (by ring) (by decide)
  have rootM : isqrt (2 * S ^ 4 - ⌊((S ^ 4 : Nat) : ℝ) * (2 * cosReal 4)⌋₊ - 1) =
      ⌊((S ^ 2 : Nat) : ℝ) * (2 * cosReal 6)⌋₊ := isqrt_sub_floor (by ring) hS2 (by decide) 4 rfl
  have flat2 : isqrt (2 * S ^ 4) = ⌊((S ^ 2 : Nat) : ℝ) * (2 * cosReal 4)⌋₊ := isqrt_two_mul (by ring)
  simp only [twiceCosFloor, root2, rootP, rootM, flat2]
  match m with
  | 0 =>
    rw [show (S : ℝ) * (2 * cosReal (0 : Fin 8)) = (2 * S : Nat) by rw [Fin.val_zero, cosReal_zero]; push_cast; ring]
    exact (Nat.floor_natCast _).symm
  | 1 => exact isqrt_add_floor (m := 1) rfl (by decide)
  | 2 => exact isqrt_add_floor (m := 2) rfl (by decide)
  | 3 => exact isqrt_add_floor (m := 3) rfl (by decide)
  | 4 => exact isqrt_two_mul rfl
  | 5 => exact isqrt_sub_floor rfl hS (by decide) 6 rfl
  | 6 => exact isqrt_sub_floor rfl hS (by decide) 4 rfl
  | 7 => exact isqrt_sub_floor rfl hS (by decide) 2 rfl

/-- Halving the floor of twice an irrational, plus one, gives the nearest integer, and there is no tie. -/
theorem abs_fixConst_sub_lt {S : Nat} (hS : S ≠ 0) {m : Fin 8} (hm : m ≠ 0) :
    |(fixConst S m : ℝ) - S * cosReal m| < 1 / 2 := by
  have hpos := cosReal_pos m.isLt
  have hirr := irrational_scaled hS m hm
  rw [fixConst, twiceCosFloor_eq hS, Int.cast_natCast]
  have hle : (⌊(S : ℝ) * (2 * cosReal m)⌋₊ : ℝ) < S * (2 * cosReal m) :=
    (Nat.floor_le (by positivity)).lt_of_ne (hirr.ne_nat _).symm
  have hlt := Nat.lt_floor_add_one ((S : ℝ) * (2 * cosReal m))
  generalize ⌊(S : ℝ) * (2 * cosReal m)⌋₊ = f at *
  have hdown : (2 * ((f + 1) / 2 : Nat) : ℝ) ≤ f + 1 := by exact_mod_cast (by omega : 2 * ((f + 1) / 2) ≤ f + 1)
  have hup : (f : ℝ) ≤ 2 * ((f + 1) / 2 : Nat) := by exact_mod_cast (by omega : f ≤ 2 * ((f + 1) / 2))
  rw [abs_lt]
  constructor <;> linarith

/-! ## The table -/

/-- Entry (k, n) of the K table as a sign and the index of a cosine: row 0 holds S·C(0) = S·c_4 throughout, the other
rows have the angles of the Basis Matrix. -/
def fixAngle (k n : Fin 8) : Bool × Fin 8 := if k = 0 then (false, 4) else basisAngle k n

theorem fixAngle_ne_zero (k n : Fin 8) : (fixAngle k n).2 ≠ 0 := by
  revert k n
  decide

theorem fixAngle_rev (k n : Fin 8) :
    fixAngle k n.rev = ((fixAngle k n).1 ^^ decide (k.val % 2 = 1), (fixAngle k n).2) := by
  revert k n
  decide

theorem fixTable_getElem (S : Nat) (k n : Fin 8) :
    (fixTable S)[k][n] =
      if (fixAngle k n).1 then -fixConst S (fixAngle k n).2 else fixConst S (fixAngle k n).2 := by
  fin_cases k <;> fin_cases n <;> rfl

theorem fixReal_eq (S : Nat) (k n : Fin 8) :
    fixReal S k n =
      if (fixAngle k n).1 then -(S * cosReal (fixAngle k n).2) else S * cosReal (fixAngle k n).2 := by
  rw [fixReal, normReal_eq, fixAngle]
  by_cases hk : k = 0
  · rw [hk, if_pos rfl, if_pos rfl, basisReal_eq_cosReal, Fin.val_zero, mul_zero, cosReal_zero, mul_one]
    rfl
  · rw [if_neg hk, if_neg hk, cosReal_zero, one_mul, basisReal_eq, basisOf_getElem, cosVec_getElem, apply_ite (_ * ·),
      mul_neg]

theorem abs_fixTable_sub_lt {S : Nat} (hS : S ≠ 0) (k n : Fin 8) :
    |((fixTable S)[k][n] : ℝ) - fixReal S k n| < 1 / 2 := by
  have hconst := abs_fixConst_sub_lt hS (fixAngle_ne_zero k n)
  rw [fixTable_getElem, fixReal_eq]
  split_ifs
  · rwa [Int.cast_neg, neg_sub_neg, abs_sub_comm]
  · exact hconst

theorem fixTable_rev (S : Nat) (k n : Fin 8) :
    (fixTable S)[k][n.rev] = if k.val % 2 = 0 then (fixTable S)[k][n] else -(fixTable S)[k][n] := by
  rw [fixTable_getElem, fixTable_getElem, fixAngle_rev]
  obtain ⟨s, m⟩ := fixAngle k n
  rcases Nat.mod_two_eq_zero_or_one k.val with hk | hk <;> cases s <;> simp [hk]

/-- Settles O50: an entry is a signed constant, which is the nearest integer, and mirroring changes the sign alone. -/
theorem fixedPointTable : Obligations.FixedPointTable := fun S hS k n =>
  ⟨abs_fixTable_sub_lt (by omega) k n, fixTable_rev S k n⟩

end Sys2Proof.Machine
end

section
/-! SUPPORT. IDCT_SEP_FIX: its evaluation position by position, and the bounds of its intermediates (42_separable.md R196,
R203; log 14). -/

namespace Sys2Proof.Machine

/-! ## The result -/

theorem sumOver_allIdx_eq_sum (f : Fin 8 → Int) : sumOver allIdx f = ∑ k, f k := by
  simp [sumOver, allIdx, Fin.sum_univ_eight]

theorem coeffBlock_at (b : Block Word) (x y : Fin 8) : (coeffBlock b).at x y = (b.at x y).toInt := at_map ..

theorem fixRows_coeffBlock (S : Nat) (m : RMode) (b : Block Word) (u y : Fin 8) :
    (fixRows S m (coeffBlock b))[u][y] = fixRowValue S m b u y := by
  simp [fixRows, rowPass, roundDiv, fixRowValue, sumOver_allIdx_eq_sum, coeffBlock_at, Rat.mkRat_eq_div]

theorem evalIdctSepFix_at (S : Nat) (m : RMode) (b : Block Word) (x y : Fin 8) :
    (evalIdctSepFix S m (coeffBlock b)).at x y = (fixColumnSum S m b x y : Rat) / (4 * S) := by
  rw [evalIdctSepFix, Block.at_build, sumOver_allIdx_eq_sum, Rat.mkRat_eq_div]
  simp only [fixRows_coeffBlock]
  push_cast [fixColumnSum]
  rfl

/-- Settles O11: a byte of the result block is Finalize of the column sum over four times the scale. -/
theorem fixedPointResult : Obligations.FixedPointResult := by
  refine fun m s => exec_completes_with fun x y => ?_
  have hvalue := evalIdctSepFix_at Config.fixScale m s.inBuf x y
  rw [resultBlock, bytesOutExact_getElem, ← Block.at, hvalue]
  rfl

/-! ## Bounds -/

theorem abs_sum_mul_le {f g : Fin 8 → Int} {a b : Int} (hf : ∀ k, |f k| ≤ a) (hg : ∀ k, |g k| ≤ b) :
    |∑ k, f k * g k| ≤ 8 * (a * b) := by
  have hterm : ∀ k ∈ Finset.univ, |f k * g k| ≤ a * b := fun k _ => by
    rw [abs_mul]
    exact mul_le_mul (hf k) (hg k) (abs_nonneg _) ((abs_nonneg _).trans (hf k))
  calc |∑ k, f k * g k| ≤ ∑ k, |f k * g k| := Finset.abs_sum_le_sum_abs _ _
    _ ≤ Finset.univ.card • (a * b) := Finset.sum_le_card_nsmul _ _ _ hterm
    _ = 8 * (a * b) := by simp

theorem abs_roundInt_le {m : RMode} {q : Rat} {b : Int} (h : |q| ≤ b) : |roundInt m q| ≤ b := by
  have hround := abs_roundInt_sub_le m q
  have hdist : (|roundInt m q| : Rat) < b + 1 := by
    calc |(roundInt m q : Rat)| = |((roundInt m q : Rat) - q) + q| := by rw [sub_add_cancel]
      _ ≤ |(roundInt m q : Rat) - q| + |q| := abs_add_le _ _
      _ < b + 1 := by linarith
  exact Int.lt_add_one_iff.mp (by exact_mod_cast hdist)

theorem abs_fixConst_le {S : Nat} (hS : S ≠ 0) {m : Fin 8} (hm : m ≠ 0) : |fixConst S m| ≤ S := by
  have hnear := (abs_lt.mp (abs_fixConst_sub_lt hS hm)).2
  have hlt : (fixConst S m : ℝ) < S + 1 := by linarith [natCast_mul_cosReal_le S m]
  have hnonneg : 0 ≤ fixConst S m := Int.natCast_nonneg _
  rw [abs_of_nonneg hnonneg]
  exact Int.lt_add_one_iff.mp (by exact_mod_cast hlt)

theorem abs_fixTable_le {S : Nat} (hS : S ≠ 0) (k n : Fin 8) : |(fixTable S)[k][n]| ≤ S := by
  have hconst := abs_fixConst_le hS (fixAngle_ne_zero k n)
  rw [fixTable_getElem]
  split_ifs
  · rwa [abs_neg]
  · exact hconst

section

variable {S : Nat} (hS : S ≠ 0) (m : RMode) (b : Block Word)
include hS

theorem abs_fixRowSum_le (u y : Fin 8) :
    |∑ v : Fin 8, (fixTable S)[v][y] * (b.at u v).toInt| ≤ 8 * (S * 2 ^ 31) :=
  abs_sum_mul_le (fun v => abs_fixTable_le hS v y) fun v => abs_coeff_le (b.at u v)

/-- The scale cancels, and rounding does not pass an integer bound. -/
theorem abs_fixRowValue_le (u y : Fin 8) : |fixRowValue S m b u y| ≤ 2 ^ 34 := by
  refine abs_roundInt_le ?_
  have hpos : (0 : Rat) < S := by exact_mod_cast Nat.pos_of_ne_zero hS
  have hsum : (|∑ v : Fin 8, (fixTable S)[v][y] * (b.at u v).toInt| : Int) ≤ (8 * (S * 2 ^ 31) : Rat) := by
    exact_mod_cast abs_fixRowSum_le hS b u y
  rw [Int.cast_abs] at hsum
  rw [abs_div, abs_of_pos hpos, div_le_iff₀ hpos]
  push_cast at hsum ⊢
  linarith

theorem abs_fixColumnSum_le {K : Int} (hK : ∀ k n : Fin 8, |(fixTable S)[k][n]| ≤ K) (x y : Fin 8) :
    |fixColumnSum S m b x y| ≤ 8 * (K * 2 ^ 34) :=
  abs_sum_mul_le (fun u => hK u x) fun u => abs_fixRowValue_le hS m b u y

end

/-- At the default scale the cosine closest to 1 keeps every entry clear of the scale itself. -/
theorem abs_fixTable_4096_le (k n : Fin 8) : |(fixTable 4096)[k][n]| ≤ 4017 := by
  revert k n
  decide +kernel

/-- Settles O51: the entries of the table are at most the scale; at 4096 they are below it, which the 50 bits need. -/
theorem fixedPointBounds : Obligations.FixedPointBounds := by
  refine ⟨fun S m b i j hS => ?_, fun m b i j => ?_⟩
  · have hS0 : S ≠ 0 := by omega
    have hrow := abs_fixRowSum_le hS0 b i j
    have hvalue := abs_fixRowValue_le hS0 m b i j
    have hcolumn := abs_fixColumnSum_le hS0 m b (abs_fixTable_le hS0) i j
    refine ⟨?_, ?_, ?_⟩ <;> omega
  · have hrow := abs_fixRowSum_le (S := 4096) (by decide) b i j
    have hvalue := abs_fixRowValue_le (S := 4096) (by decide) m b i j
    have hcolumn := abs_fixColumnSum_le (by decide) m b abs_fixTable_4096_le i j
    refine ⟨?_, ?_, ?_⟩ <;> omega

end Sys2Proof.Machine
end

section
/-! SUPPORT. The LLM units: the seven constants that both share as correctly rounded closed forms, both networks in exact
arithmetic, and IDCT_LLM position by position (43_llm.md R220 to R222; 46_fdct_fast.md R280, R281). -/

namespace Sys2Proof.Machine

/-! ## The constants -/

/-- The stored positive datum `x` is what every real within `ε` of `a` rounds to. -/
abbrev RoundsAllTo {P : Precision} (x : Flt P) (a ε : ℚ) : Prop :=
  x = .fin false x.sigStep.1 x.sigStep.2 ∧ RoundsAll P a ε x.sigStep.1 x.sigStep.2

theorem RoundsAllTo.isRounded {P : Precision} {x : Flt P} {a ε : ℚ} (h : RoundsAllTo x a ε) {r : ℝ}
    (hr : Approx r a ε) : IsRounded P r x := by
  obtain ⟨hx, hrounds⟩ := h
  rw [hx]
  exact hrounds.isRounded hr

theorem isRounded_llm_r2 : IsRounded .binary32 llmReal.r2 llmConsts.r2 := by
  rw [llmReal_eq]
  exact RoundsAllTo.isRounded (by decide +kernel) (approx_cosReal 4).two_mul

theorem isRounded_llm_r2c2 : IsRounded .binary32 llmReal.r2c2 llmConsts.r2c2 := by
  rw [llmReal_eq]
  exact RoundsAllTo.isRounded (by decide +kernel) ((approx_cosReal 6).add (approx_cosReal 2))

theorem isRounded_llm_r2c6 : IsRounded .binary32 llmReal.r2c6 llmConsts.r2c6 := by
  rw [llmReal_eq]
  exact RoundsAllTo.isRounded (by decide +kernel) ((approx_cosReal 6).neg.add (approx_cosReal 2))

/-- Settles O47: three constants are products with √2, approximated as sums of the c_m; the other four are c_1, c_7, c_3
and c_5 with the bits of the cosine table. -/
theorem llmConstants : Obligations.LlmConstants := by
  refine ⟨isRounded_llm_r2, isRounded_llm_r2c2, isRounded_llm_r2c6, ?_⟩
  rw [llmReal_eq]
  exact ⟨isRounded_cosFlt .binary32 1, isRounded_cosFlt .binary32 7, isRounded_cosFlt .binary32 3,
    isRounded_cosFlt .binary32 5⟩

/-! ## The networks in exact arithmetic -/

/-- Settles O52: the product identities of the c_m turn both networks into the transforms. -/
theorem llmNetworksExact : Obligations.LlmNetworksExact := by
  refine ⟨llm1d_real, fun x k => ?_⟩
  rw [llmF1d_real, fdct1d, mul_assoc]

/-! ## The operation -/

theorem llm2d_at {α : Type} {_ : Add α} {_ : Sub α} {_ : Mul α} (k : LlmConsts α) (e : α) (F : Block α)
    (x y : Fin 8) :
    (llm2d k e F).at x y =
      (llm1d k (Vector.ofFn fun u => (llm1d k (Vector.ofFn fun v => F.at u v))[y]))[x] * e := by
  rw [llm2d, at_map, at_ofCols_rows]

theorem evalIdctLlm_at (b : Block Word) (x y : Fin 8) : (evalIdctLlm (coeffBlock b)).at x y = llmPixel b x y := by
  rw [evalIdctLlm, llm2d_at]
  simp only [cvtBlock_coeffBlock_at]
  rfl

/-- Settles O12: a byte of the result block is Finalize of the two passes at its position. -/
theorem llmResult : Obligations.LlmResult := by
  refine fun m s => exec_completes_with fun x y => ?_
  rw [resultBlock, bytesOut_getElem, ← evalIdctLlm_at, Block.at]

end Sys2Proof.Machine
end

section
/-! SUPPORT. The AAN units: the five constants and the pre-scale table as correctly rounded closed forms in both formats,
and IDCT_AAN_F32 and IDCT_AAN_F64 position by position (44_aan.md R240 to R244). -/

namespace Sys2Proof.Machine

/-! ## The constants -/

section

variable (P : Precision)

theorem isRounded_aan_r2 : IsRounded P aanReal.r2 (aanConsts P).r2 := by
  rw [aanReal_eq]
  exact RoundsAllTo.isRounded (by cases P <;> decide +kernel) (approx_cosReal 4).two_mul

theorem isRounded_aan_a : IsRounded P aanReal.a (aanConsts P).a := by
  rw [aanReal_eq]
  exact RoundsAllTo.isRounded (by cases P <;> decide +kernel) (approx_cosReal 2).two_mul

theorem isRounded_aan_b : IsRounded P aanReal.b (aanConsts P).b := by
  rw [aanReal_eq]
  exact RoundsAllTo.isRounded (by cases P <;> decide +kernel) (approx_cosReal 6).two_mul

theorem isRounded_aan_aMinusB : IsRounded P aanReal.aMinusB (aanConsts P).aMinusB := by
  simp only [aanReal_eq, sub_eq_add_neg]
  exact RoundsAllTo.isRounded (by cases P <;> decide +kernel) ((approx_cosReal 2).add (approx_cosReal 6).neg).two_mul

theorem isRounded_aan_aPlusB : IsRounded P aanReal.aPlusB (aanConsts P).aPlusB := by
  rw [aanReal_eq]
  exact RoundsAllTo.isRounded (by cases P <;> decide +kernel) ((approx_cosReal 2).add (approx_cosReal 6)).two_mul

end

/-! ## The pre-scale table -/

theorem aanScale_four : aanScale 4 = 1 := by
  obtain ⟨h44, -⟩ := cosReal_products_four
  have heq : aanScale 4 = 2 * cosReal 4 * cosReal 4 := aanScale_eq 4
  rw [heq, mul_assoc, h44]
  norm_num

/-- The approximation of aan[k] that is exact at aan[4] = 1 too. The entries 1/8 of Q start a binade, so an interval
around an approximation of them would not lie in one. -/
def aanNear (k : Fin 8) : ℚ := if k = 4 then 1 else aanApprox k

/-- How far `aanNear` can be from aan[k]. -/
def aanTol (k : Fin 8) : ℚ := if k = 0 ∨ k = 4 then 0 else 1 / 2 ^ 90

theorem approx_aanNear (k : Fin 8) : Approx (aanScale k) (aanNear k) (aanTol k) := by
  by_cases h0 : k = 0
  · subst h0
    simpa [aanScale, aanNear, aanApprox, aanTol] using approx_self 1
  by_cases h4 : k = 4
  · subst h4
    simpa [aanScale_four, aanNear, aanTol] using approx_self 1
  · simpa only [aanNear, aanTol, h0, h4, or_self, if_false] using approx_aanScale k

/-- The approximation of Q[u][v]. -/
def prescaleNear (u v : Fin 8) : ℚ := aanNear u * aanNear v / 8

/-- How far `prescaleNear` can be from Q[u][v]. -/
def prescaleTol (u v : Fin 8) : ℚ := (|aanNear u| * aanTol v + |aanNear v| * aanTol u + aanTol u * aanTol v) / 8

theorem approx_prescaleReal (u v : Fin 8) : Approx (prescaleReal u v) (prescaleNear u v) (prescaleTol u v) := by
  have happrox := ((approx_aanNear u).mul (approx_aanNear v)).mul (approx_self (1 / 8))
  convert happrox using 1
  · rw [prescaleReal]
    push_cast
    ring
  · rw [prescaleNear]
    ring
  · rw [prescaleTol, abs_of_pos (by norm_num : (0 : ℚ) < 1 / 8)]
    ring

/-- Every entry of the table is what all reals near its closed form round to. -/
theorem roundsAllTo_prescale (P : Precision) (u v : Fin 8) :
    RoundsAllTo (prescale P)[u][v] (prescaleNear u v) (prescaleTol u v) := by
  revert u v
  cases P <;> decide +kernel

/-- Settles O48: the constants are approximated as doubled sums of the c_m, the entries of Q as products of two aan[k]. -/
theorem aanConstants : Obligations.AanConstants := fun P =>
  ⟨isRounded_aan_r2 P, isRounded_aan_a P, isRounded_aan_b P, isRounded_aan_aMinusB P, isRounded_aan_aPlusB P,
    fun u v => (roundsAllTo_prescale P u v).isRounded (approx_prescaleReal u v)⟩

/-! ## The network in exact arithmetic -/

/-- Settles O53: the product identities of the c_m turn the network on pre-scaled inputs into the transform. -/
theorem aanNetworkExact : Obligations.AanNetworkExact := aan1d_real

/-! ## The operations -/

theorem aan2d_at {α : Type} {_ : Add α} {_ : Sub α} {_ : Mul α} (k : AanConsts α) (Q : Vec8 (Vec8 α)) (F : Block α)
    (x y : Fin 8) :
    (aan2d k Q F).at x y =
      (aan1d k (Vector.ofFn fun u => (aan1d k (Vector.ofFn fun v => F.at u v * Q[u][v]))[y]))[x] := by
  rw [aan2d, at_ofCols_rows]
  simp only [Block.at_build]

theorem evalIdctAan_at (P : Precision) (b : Block Word) (x y : Fin 8) :
    (evalIdctAan P (coeffBlock b)).at x y = aanPixel P b x y := by
  rw [evalIdctAan, aan2d_at]
  simp only [cvtBlock_coeffBlock_at]
  rfl

/-- Settles O14: in both precisions a byte of the result block is Finalize of the two passes at its position. -/
theorem aanResults : Obligations.AanResults := by
  have byte (P : Precision) (m : RMode) (b : Block Word) (x y : Fin 8) :
      (bytesOut m (evalIdctAan P (coeffBlock b)))[blockIndex x y] = byteWord (finalizeFlt m (aanPixel P b x y)) := by
    rw [bytesOut_getElem, ← evalIdctAan_at, Block.at]
  exact fun m s => ⟨exec_completes_with (byte .binary32 m s.inBuf), exec_completes_with (byte .binary64 m s.inBuf)⟩

end Sys2Proof.Machine
end

section
/-! SUPPORT. The AP-922 unit: the four constants and the W tables as correctly rounded closed forms, both kernels in exact
arithmetic, and IDCT_AP922 position by position (45_ap922.md R260 to R265). -/

namespace Sys2Proof.Machine

/-! ## The constants of the column kernel -/

theorem isRounded_ap922_t1 : IsRounded .binary32 ap922Real.t1 ap922Consts.t1 := by
  rw [ap922Real_eq]
  exact RoundsAllTo.isRounded (by decide +kernel) ((approx_cosReal 7).div (approx_cosReal 1) (by decide +kernel))

theorem isRounded_ap922_t2 : IsRounded .binary32 ap922Real.t2 ap922Consts.t2 := by
  rw [ap922Real_eq]
  exact RoundsAllTo.isRounded (by decide +kernel) ((approx_cosReal 6).div (approx_cosReal 2) (by decide +kernel))

theorem isRounded_ap922_t3 : IsRounded .binary32 ap922Real.t3 ap922Consts.t3 := by
  rw [ap922Real_eq]
  exact RoundsAllTo.isRounded (by decide +kernel) ((approx_cosReal 5).div (approx_cosReal 3) (by decide +kernel))

theorem isRounded_ap922_g4 : IsRounded .binary32 ap922Real.g4 ap922Consts.g4 := by
  rw [ap922Real_eq]
  exact isRounded_cosFlt .binary32 4

/-! ## The W tables: each entry is a product of two of the c_m, with a sign -/

/-- Entry (n, k) of every W table as a sign and the index of the c_m that the table's scale multiplies. -/
def wAngle (n : Fin 4) (k : Fin 8) : Bool × Fin 8 := fixAngle k (n.castLE (by decide))

theorem rowScale_eq_cosReal (idx : Fin 4) : rowScale idx = cosReal rowScaleIdx[idx].val := by
  fin_cases idx <;> rfl

theorem wReal_eq_cosReal_mul (idx n : Fin 4) (k : Fin 8) :
    wReal idx n k =
      if (wAngle n k).1 then -(cosReal rowScaleIdx[idx].val * cosReal (wAngle n k).2)
      else cosReal rowScaleIdx[idx].val * cosReal (wAngle n k).2 := by
  have hunit := fixReal_eq 1 k (n.castLE (by decide))
  rw [fixReal, Nat.cast_one, one_mul, one_mul, basisReal_eq] at hunit
  rw [wReal_eq, hunit, rowScale_eq_cosReal, wAngle, mul_ite, mul_neg]

/-- The approximation of the product c_i·c_j. The exact c_4·c_4 = 1/2 stands at the end of a binade, where an interval
around it would meet two of them. -/
def cosMulNear (i j : Fin 8) : ℚ := if i = 4 ∧ j = 4 then 1 / 2 else cosApprox[i] * cosApprox[j]

/-- How far `cosMulNear` can be from c_i·c_j. -/
def cosMulTol (i j : Fin 8) : ℚ := if i = 4 ∧ j = 4 then 0 else 1 / 2 ^ 98

theorem approx_cosReal_mul (i j : Fin 8) : Approx (cosReal i * cosReal j) (cosMulNear i j) (cosMulTol i j) := by
  unfold cosMulNear cosMulTol
  split_ifs with hij
  · obtain ⟨rfl, rfl⟩ := hij
    have h44 : cosReal 4 * cosReal 4 = 1 / 2 := cosReal_products_four.1
    simpa [h44] using approx_self (1 / 2)
  · have htol : ∀ i j : Fin 8, |cosApprox[i]| * cosTol j + |cosApprox[j]| * cosTol i + cosTol i * cosTol j ≤
        1 / 2 ^ 98 := by decide +kernel
    exact ((approx_cosReal i).mul (approx_cosReal j)).mono (htol i j)

/-- The stored W[idx][n][k] without the sign of its closed form. -/
def wMagnitude (idx n : Fin 4) (k : Fin 8) : Flt .binary32 :=
  if (wAngle n k).1 then wTables[idx][n][k].negate else wTables[idx][n][k]

/-- Every magnitude is what all reals near its product of cosines round to. -/
theorem roundsAllTo_wMagnitude (idx n : Fin 4) (k : Fin 8) :
    RoundsAllTo (wMagnitude idx n k) (cosMulNear rowScaleIdx[idx] (wAngle n k).2)
      (cosMulTol rowScaleIdx[idx] (wAngle n k).2) := by
  revert idx n k
  decide +kernel

theorem negate_negate {P : Precision} (x : Flt P) : x.negate.negate = x := by
  cases x <;> simp [Flt.negate]

theorem isRounded_wTables (idx n : Fin 4) (k : Fin 8) : IsRounded .binary32 (wReal idx n k) wTables[idx][n][k] := by
  have hmag := (roundsAllTo_wMagnitude idx n k).isRounded (approx_cosReal_mul _ _)
  rw [wReal_eq_cosReal_mul]
  unfold wMagnitude at hmag
  split_ifs at hmag ⊢
  · have hneg := hmag.negate
    rwa [negate_negate] at hneg
  · exact hmag

/-- Settles O49: T1, T2 and T3 are approximated as quotients of the c_m, the entries of W as products; G4 is c_4 with the
bits of the cosine table. -/
theorem ap922Constants : Obligations.Ap922Constants :=
  ⟨isRounded_ap922_t1, isRounded_ap922_t2, isRounded_ap922_t3, isRounded_ap922_g4, isRounded_wTables⟩

/-! ## The kernels in exact arithmetic -/

/-- Settles O54: each product of the row kernel carries its table's scale as a factor, and the product identities of the
c_m with T1, T2, T3 and G4 as quotients turn the column kernel into the transform. -/
theorem ap922KernelsExact : Obligations.Ap922KernelsExact := ⟨fun r => ap922Row_real row2idx[r], ap922Col_real⟩

/-! ## The operation -/

theorem ap922Twice_at {α : Type} {_ : Add α} {_ : Sub α} {_ : Mul α} {_ : Zero α} (W : Vector (Vector (Vec8 α) 4) 4)
    (c : Ap922Consts α) (q : α) (F : Block α) (n k : Fin 8) :
    (ap922Twice W c q F).at n k =
      (ap922Col c (Vector.ofFn fun r =>
        (ap922Row W[row2idx[r]] (Vector.ofFn fun v => F.at r v))[k]))[n] * q := by
  rw [ap922Twice, at_map, at_ofCols_rows]

theorem evalIdctAp922_at (b : Block Word) (n k : Fin 8) :
    (evalIdctAp922 (coeffBlock b)).at n k = ap922Pixel b n k := by
  rw [evalIdctAp922, ap922Twice_at]
  simp only [cvtBlock_coeffBlock_at]
  rfl

/-- Settles O15: a byte of the result block is Finalize of the two passes at its position. -/
theorem ap922Result : Obligations.Ap922Result := by
  refine fun m s => exec_completes_with fun n k => ?_
  rw [resultBlock, bytesOut_getElem, ← evalIdctAp922_at, Block.at]

end Sys2Proof.Machine
end

section
/-! SUPPORT. FDCT_LLM position by position: columns, then rows, then the factor 0.125, on the samples less 128
(46_fdct_fast.md R281, R282). -/

namespace Sys2Proof.Machine

theorem cvtSamples_sampleBlock_at (P : Precision) (b : Block Word) (x y : Fin 8) :
    (cvtSamples P (sampleBlock b)).at x y = Flt.ofInt P (((b.at x y).toNat % 256 : Nat) - 128 : Int) :=
  cvtSamples_sampleBlock_getElem P b (blockIndex x y)

theorem llmF2d_at {α : Type} {_ : Add α} {_ : Sub α} {_ : Mul α} (k : LlmConsts α) (e : α) (d : Block α)
    (u v : Fin 8) :
    (llmF2d k e d).at u v =
      (llmF1d k (Vector.ofFn fun y => (llmF1d k (Vector.ofFn fun x => d.at x y))[u]))[v] * e := by
  rw [llmF2d, at_map, at_ofRows_cols]

theorem evalFdctLlm_at (b : Block Word) (u v : Fin 8) :
    (evalFdctLlm (sampleBlock b)).at u v = llmCoefficient b u v := by
  rw [evalFdctLlm, llmF2d_at]
  simp only [cvtSamples_sampleBlock_at]
  rfl

/-- Settles O13: a word of the result block is the encoding of the two passes at its position. -/
theorem forwardLlmResult : Obligations.ForwardLlmResult := by
  refine fun m s => exec_completes_with fun u v => ?_
  rw [resultBlock, floatsOut_getElem, floatWord, ← evalFdctLlm_at, Block.at]

end Sys2Proof.Machine
end

section
/-! SUPPORT. Completions and recorded errors: what an operation leaves, what recording an error leaves, and what a host
transaction can do to STATUS; from these, which event of a step raises BUSY, DONE or ERR, and that none but the host's
clear and a reset lowers ERR (60_exceptions.md R300 to R304, R310). -/

namespace Sys2Proof

open Sys2Proof.Machine

/-- Settles O16: every operation completes by `State.complete`, whose frame is `completed_complete`. -/
theorem completionFrame : Obligations.CompletionFrame := by
  intro i s t h
  obtain ⟨out, rfl⟩ := exec_cases h
  exact completed_complete s out

/-- Settles O26: `State.recordError` writes STATUS alone, with the flags of `Status.record`. -/
theorem errorRecording : Obligations.ErrorRecording := by
  refine ⟨fun s e => ⟨s.status.record e, rfl, s.status.record_busy e, s.status.record_done e, s.status.record_err e,
    fun hclear => ?_, fun hset => ?_⟩, rfl, rfl, rfl, rfl, rfl, rfl⟩
  · simp [hclear]
  · simp [hset]

/-! ## What a host transaction does to STATUS -/

/-- The effects of a host transaction on STATUS: none, a recorded error, the host's clear, or an accepted command.
Where an error is recorded or a command accepted, the rest of the state is given too. -/
def HostEffect (s : State) (x : Transaction) (t : State) : Prop :=
  t.status = s.status ∨
  (∃ e r, t = (s.recordError e).reply r) ∨
  (∃ v, x = .write 0x008 4 v ∧ t.status = s.status.writeClear v) ∨
  ∃ i r, x = .write 0x004 4 (encodeCommand i) ∧ s.allWritten = true ∧ t = (s.accept (encodeCommand i) i).reply r

theorem size_eq_of_accessLegal {off size : Nat} (hl : accessLegal off size = true) : size = 4 := by
  by_contra hsize
  cases hl.symm.trans ((accessLegal_eq_false_iff off size).mpr (.inl hsize))

theorem submit_hostEffect {s t : State} {w : Word} (h : s.submit w = .next t) (r : Reply) :
    HostEffect s (.write 0x004 4 w) (t.reply r) := by
  rcases submit_cases h with ⟨e, rfl⟩ | ⟨i, hi, _, hwritten, _, rfl⟩
  · exact .inr (.inl ⟨e, r, rfl⟩)
  · obtain rfl := decodeCommand_ok hi
    exact .inr (.inr (.inr ⟨i, r, rfl, hwritten, rfl⟩))

theorem writeEffect_hostEffect {s t : State} {off : Nat} {v : Word} (h : s.writeEffect off v = .next t) (r : Reply) :
    HostEffect s (.write off 4 v) (t.reply r) := by
  cases hr : regAt off with
  | cmd =>
    obtain rfl := regAt_eq_cmd hr
    exact submit_hostEffect h r
  | status =>
    obtain rfl := regAt_eq_status hr
    cases h
    exact .inr (.inr (.inl ⟨v, rfl, rfl⟩))
  | inEntry k =>
    simp only [State.writeEffect, hr] at h
    split at h
    · cases h
      exact .inr (.inl ⟨.inWriteWhileBusy, r, rfl⟩)
    · cases h
      exact .inl rfl
  | id | ctrl | outEntry _ | reserved =>
    simp only [State.writeEffect, hr] at h
    cases h
    exact .inl rfl

theorem transact_hostEffect {s t : State} {x : Transaction} (h : s.transact x = .next t) : HostEffect s x t := by
  rcases transact_cases h with ⟨_, _, _, _, hread⟩ | ⟨_, _, _, _, rfl, hl, hwrite, rfl⟩ | ⟨_, rfl⟩
  · rcases readEffect_cases hread with ⟨_, rfl⟩ | rfl
    · exact .inl rfl
    · exact .inl rfl
  · obtain rfl := size_eq_of_accessLegal hl
    exact writeEffect_hostEffect hwrite _
  · exact .inl rfl

/-! ## What raises and what lowers a flag -/

/-- Settles O27, by the events of a step: of them only the host's clear and a reset, which the statement leaves out,
lower a flag of the error. -/
theorem errorSticky : Obligations.ErrorSticky := by
  intro s t herr hstep hreset hclear
  obtain ⟨x, rest, hin, hx⟩ | ⟨rest, hin, _⟩ | ⟨i, _, _, hi⟩ | ⟨_, rfl⟩ := step_event_cases hstep
  · obtain h | ⟨e, r, rfl⟩ | ⟨v, rfl, h⟩ | ⟨i, r, rfl, _, rfl⟩ := transact_hostEffect hx
    · simp [h, herr]
    · simp [herr]
    · have hbit : v[2] = false := hclear v rest hin
      simp [h, herr, hbit]
    · exact ⟨herr, rfl, id⟩
  · exact absurd hin (hreset rest)
  · obtain ⟨out, rfl⟩ := exec_cases hi
    exact ⟨herr, rfl, id⟩
  · exact ⟨herr, rfl, id⟩

/-- Settles O35, by the events of a step: DONE rises in a completion only, and ERR where the host's transaction records
an error. -/
theorem oneFlagPerEvent : Obligations.OneFlagPerEvent := by
  intro s t hstep
  obtain ⟨x, rest, _, hx⟩ | ⟨rest, _, rfl⟩ | ⟨i, hb, _, hi⟩ | ⟨_, rfl⟩ := step_event_cases hstep
  · obtain h | ⟨e, r, rfl⟩ | ⟨v, _, h⟩ | ⟨i, r, _, _, rfl⟩ := transact_hostEffect hx
    · simp +contextual [h]
    · refine ⟨fun hlow hhigh => ?_, fun _ _ => ⟨by simp, by simp, rfl, rfl, rfl, rfl⟩⟩
      simp [hlow] at hhigh
    · simp +contextual [h]
    · simp +contextual
  · simp [State.reset]
  · obtain ⟨out, rfl⟩ := exec_cases hi
    exact ⟨fun _ _ => ⟨hb, rfl, rfl, rfl, rfl⟩, fun hclear hset => absurd hset (by simp [hclear])⟩
  · simp +contextual

/-- Settles O38, by the events of a step: of the effects of a transaction only acceptance raises BUSY, and no other
event does. -/
theorem busyRisesByAcceptance : Obligations.BusyRisesByAcceptance := by
  intro s t hstep hidle hbusy
  obtain ⟨x, rest, hin, hx⟩ | ⟨rest, _, rfl⟩ | ⟨i, _, _, hi⟩ | ⟨_, rfl⟩ := step_event_cases hstep
  · obtain h | ⟨e, r, rfl⟩ | ⟨v, _, h⟩ | ⟨i, r, rfl, hwritten, rfl⟩ := transact_hostEffect hx
    · simp [h, hidle] at hbusy
    · simp [hidle] at hbusy
    · simp [h, hidle] at hbusy
    · have hmarks : ∀ k : Fin 64, s.inWritten[k] = true := by
        simpa [State.allWritten, Fin.forall_iff] using hwritten
      exact ⟨i, rest, hin, rfl, rfl, rfl, rfl, rfl, hmarks⟩
  · cases hbusy
  · obtain ⟨out, rfl⟩ := exec_cases hi
    cases hbusy
  · cases hidle.symm.trans hbusy

end Sys2Proof
end

section
/-! SUPPORT. The engine's turn and the faults: the engine runs the command in PEND, which is the one in the bytes of CMD,
and a step stops in the host's transaction only (60_exceptions.md R300, R306, R318; log 4, log 7, log 10). -/

namespace Sys2Proof

open Sys2Proof.Machine

/-! ## The engine's turn -/

theorem Inv.exists_pend {s : State} (h : Inv s) (hb : s.status.busy = true) : ∃ i, s.pend = some i :=
  Option.isSome_iff_exists.mp (h.pendBusy.trans hb)

theorem nextEvent_nil_busy {s : State} (hin : s.inputs = []) (hb : s.status.busy = true) :
    s.nextEvent = (some .engine, s) := by
  simp [State.nextEvent, hin, hb]

theorem nextEvent_cons {s : State} {e : Event} {rest : List Event} (hin : s.inputs = e :: rest) :
    s.nextEvent = (some e, { s with inputs := rest }) := by
  simp [State.nextEvent, hin]

theorem step_engine_run {s u : State} {i : Instr} (hn : s.nextEvent = (some .engine, u)) (hb : u.status.busy = true)
    (hp : u.pend = some i) : step s = exec i u := by
  simp [step, hn, State.engineTurn, hb, hp]

/-- The engine's turn stops in one state only: BUSY = 1 with nothing in PEND (log 4). -/
theorem step_engine_goes_on_or_stuck {s u : State} (hn : s.nextEvent = (some .engine, u)) :
    (∃ t, step s = .next t) ∨ u.status.busy = true ∧ u.pend = none ∧ step s = .fault .engineStuck := by
  cases hb : u.status.busy with
  | false => exact .inl ⟨u, by simp [step, hn, State.engineTurn, hb]⟩
  | true =>
    cases hp : u.pend with
    | none => exact .inr ⟨rfl, rfl, by simp [step, hn, State.engineTurn, hb, hp]⟩
    | some i =>
      obtain ⟨out, hout⟩ := exec_completes i u
      exact .inl ⟨_, (step_engine_run hn hb hp).trans hout⟩

/-- The command in the bytes of CMD is the one in PEND. -/
theorem Inv.pend_of_cmdBytes {s : State} (h : Inv s) (hb : s.status.busy = true) {i : Instr}
    (hi : decodeBytes (cmdBytes s) = .ok (i, [])) : s.pend = some i := by
  obtain ⟨j, hj⟩ := h.exists_pend hb
  have hbytes : cmdBytes s = encodeBytes j := congrArg wordBytes (h.pendCmd j hj)
  rw [hbytes, decodeBytes_encodeBytes] at hi
  cases hi
  exact hj

theorem withFetchWord_of_decode {s : State} {nbits w : Nat} {i : Instr} (hi : decodeTableWord nbits w = some i) :
    s.withFetchWord nbits w =
      { s.accept (BitVec.ofNat 32 (w % 2 ^ nbits)) i with inputs := .engine :: s.inputs } := by
  simp [State.withFetchWord, hi]

/-- Settles O5: in all three clauses it is the engine's turn with the command in PEND. -/
theorem stepRunsDecoded : Obligations.StepRunsDecoded := by
  refine ⟨fun s i h hb hi => ⟨fun hin => ?_, fun rest hin => ?_⟩, fun s nbits w i hi => ?_⟩
  · exact step_engine_run (nextEvent_nil_busy hin hb) hb (h.pend_of_cmdBytes hb hi)
  · exact step_engine_run (nextEvent_cons hin) hb (h.pend_of_cmdBytes hb hi)
  · rw [withFetchWord_of_decode hi]
    exact step_engine_run (nextEvent_cons rfl) rfl rfl

/-! ## The faults -/

/-- A step is the host's next transaction, or it goes on, or the engine is stuck. -/
theorem step_host_or_goes_on_or_stuck (s : State) :
    (∃ x rest, s.inputs = .host x :: rest ∧ step s = ({ s with inputs := rest } : State).transact x) ∨
    (∃ t, step s = .next t) ∨
    s.status.busy = true ∧ s.pend = none ∧ step s = .fault .engineStuck := by
  rcases nextEvent_cases s with ⟨_, _, hn⟩ | ⟨hin, hb, _⟩ | ⟨e, rest, hin, hn⟩
  · exact .inr (step_engine_goes_on_or_stuck hn)
  · exact .inr (.inl ⟨s, step_nil_idle hin hb⟩)
  · cases e with
    | host x => exact .inl ⟨x, rest, hin, step_host hin⟩
    | reset => exact .inr (.inl ⟨_, step_reset hin⟩)
    | engine => exact .inr (step_engine_goes_on_or_stuck hn :)

theorem step_not_refused (s : State) (r : Refusal) : step s ≠ .refused r := by
  obtain ⟨x, rest, _, hx⟩ | ⟨t, ht⟩ | ⟨_, _, hstuck⟩ := step_host_or_goes_on_or_stuck s
  · rw [hx]
    exact transact_not_refused _ x r
  · simp [ht]
  · simp [hstuck]

/-- A legal access at an entry of OUT is at the offset of one. -/
theorem exists_eq_outOffset {off size : Nat} {k : Fin 64} (hl : accessLegal off size = true)
    (hr : regAt off = .outEntry k) : ∃ j : Fin 64, off = outOffset j := by
  obtain ⟨hge, hlt⟩ := regAt_eq_outEntry hr
  have hal : off % 4 = 0 := by
    by_contra hal
    cases hl.symm.trans ((accessLegal_eq_false_iff off size).mpr (.inr (.inl hal)))
  exact ⟨⟨(off - 0x200) / 4, by omega⟩, by simp only [outOffset]; omega⟩

theorem accessLegal_of_read_fault {s : State} {off size : Nat} {f : Fault}
    (h : s.transact (.read off size) = .fault f) : accessLegal off size = true := by
  cases hl : accessLegal off size with
  | true => rfl
  | false => cases (transact_malformed s 0 hl).1.symm.trans h

theorem accessLegal_of_write_fault {s : State} {off size : Nat} {v : Word} {f : Fault}
    (h : s.transact (.write off size v) = .fault f) : accessLegal off size = true := by
  cases hl : accessLegal off size with
  | true => rfl
  | false => cases (transact_malformed s v hl).2.symm.trans h

/-- The two model faults of 60_exceptions.md R318, each by its transaction and the marks it meets. -/
theorem transact_eq_fault_iff {s : State} {x : Transaction} {f : Fault} : s.transact x = .fault f ↔
    (f = .unwrittenIn ∧ s.status.busy = false ∧ s.allWritten = false ∧
      ∃ w i, x = .write 0x004 4 w ∧ decodeCommand w = .ok i) ∨
    (f = .unwrittenOut ∧ s.status.busy = false ∧ s.outValid = false ∧ ∃ k, x = .read (outOffset k) 4) := by
  constructor
  · intro h
    rcases transact_fault h with
      ⟨hf, hb, hvalid, off, size, k, rfl, hr⟩ | ⟨hf, hb, hmark, off, size, w, i, rfl, hr, hi⟩
    · have hl := accessLegal_of_read_fault h
      obtain rfl := size_eq_of_accessLegal hl
      obtain ⟨j, rfl⟩ := exists_eq_outOffset hl hr
      exact .inr ⟨hf, hb, hvalid, j, rfl⟩
    · obtain rfl := size_eq_of_accessLegal (accessLegal_of_write_fault h)
      obtain rfl := regAt_eq_cmd hr
      exact .inl ⟨hf, hb, hmark, w, i, rfl, hi⟩
  · rintro (⟨rfl, hb, hmark, w, i, rfl, hi⟩ | ⟨rfl, hb, hvalid, k, rfl⟩)
    · exact transact_cmd_fault (submit_unwritten (by simp [hb]) hi hmark)
    · rw [transact_read s (accessLegal_outOffset k), readEffect_outOffset]
      simp [hb, hvalid]

/-- Settles O34: under the invariant the engine is never stuck, so a fault is one of the host's transaction, and every
operation completes. -/
theorem faultsExactly : Obligations.FaultsExactly := by
  refine ⟨fun s f hinv => ⟨fun hfault => ?_, ?_⟩, step_not_refused, fun i s => ⟨_, exec_eq_complete i s⟩⟩
  · obtain ⟨x, rest, hin, hx⟩ | ⟨t, ht⟩ | ⟨hb, hp, _⟩ := step_host_or_goes_on_or_stuck s
    · rcases transact_eq_fault_iff.mp (hx.symm.trans hfault) with
        ⟨hf, hb, hmark, w, i, rfl, hi⟩ | ⟨hf, hb, hvalid, k, rfl⟩
      · exact .inl ⟨hf, hb, (allWritten_eq_false_iff s).mp hmark, w, rest, i, hin, hi⟩
      · exact .inr ⟨hf, hb, hvalid, k, rest, hin⟩
    · cases ht.symm.trans hfault
    · obtain ⟨i, hi⟩ := hinv.exists_pend hb
      cases hp.symm.trans hi
  · rintro (⟨hf, hb, hmark, w, rest, i, hin, hi⟩ | ⟨hf, hb, hvalid, k, rest, hin⟩)
    · rw [step_host hin]
      exact transact_eq_fault_iff.mpr (.inl ⟨hf, hb, (allWritten_eq_false_iff s).mpr hmark, w, i, rfl, hi⟩)
    · rw [step_host hin]
      exact transact_eq_fault_iff.mpr (.inr ⟨hf, hb, hvalid, k, rfl⟩)

end Sys2Proof
end
